-- ==== Sys2Proof/Word.lean ====
section
/-! DEFINITION. The bit-vector widths of GOLSTEP (spec/00_scope.md R8, R11): every quantity is unsigned
and held at its own width. -/

namespace Sys2Proof

/-- A byte of a buffer (R37). -/
abbrev Byte := BitVec 8

/-- A command word, CMDW = 16 bits (R8, R81). -/
abbrev CmdWord := BitVec 16

/-- A response word, RSPW = 4 bits (R8, R90). -/
abbrev RspWord := BitVec 4

/-- A column, XW = 7 bits (R8). -/
abbrev Col := BitVec 7

/-- A row, YW = 6 bits (R8). -/
abbrev Row := BitVec 6

/-- A byte index, IDXW = 10 bits (R8, R23). -/
abbrev Index := BitVec 10

/-- A bit position inside a byte, 3 bits (R50). -/
abbrev BitPos := BitVec 3

/-- A scan position, POSW = 13 bits (R8, R24). -/
abbrev ScanPos := BitVec 13

/-- A live-neighbour count, CNTW = 4 bits (R8, R145). -/
abbrev Count := BitVec 4

/-- A buffer seen as the array of its 1024 bytes (R52); no field of State has this type. -/
abbrev Buffer := Index → Byte

end Sys2Proof
end

