-- ==== Sys2Proof/Syntax.lean ====
section
/-! DEFINITION. The command set GOL-CMD version 1 (spec/30_encoding.md R83): one constructor per row of
spec/opcode_table.json. Operands are exactly as wide as their ranges (R57, U3), so no out-of-range
coordinate can be written down. -/

namespace Sys2Proof

/-- A command (R83, R84). -/
inductive Instr where
  /-- NOP (R186). -/
  | nop
  /-- GET x, y: read one cell of the current grid (R112). -/
  | get (x : Col) (y : Row)
  /-- TGL x, y: flip one cell of the current grid (R114). -/
  | tgl (x : Col) (y : Row)
  /-- STEP: replace the current grid by its next generation (R155). -/
  | step
  /-- FILL: overwrite the current buffer from the random source (R117). -/
  | fill
  /-- DRAW: send the current buffer to the render sink (R180). -/
  | draw
  deriving DecidableEq, Repr

/-- A command as a line of assembler source writes it (R96): the operands are the numbers written, in
range or not. -/
inductive AsmCmd where
  | nop
  | get (x y : Nat)
  | tgl (x y : Nat)
  | step
  | fill
  | draw
  deriving DecidableEq, Repr

end Sys2Proof
end

