-- ==== Sys2Proof/Decode.lean ====
section
/-! DEFINITION. Decoding and encoding of command words (spec/30_encoding.md R81 to R88). -/

namespace Sys2Proof

/-- Why a word is Reserved (R86). -/
inductive Reserved where
  /-- `op` is 0b110 or 0b111, with any low bits. -/
  | opcode (op : BitVec 3)
  /-- `op` is one of NOP, STEP, FILL, DRAW and bits 12:0 are not all zero (R87). -/
  | operandBits (op : BitVec 3)
  deriving DecidableEq, Repr

/-- `op = w[15:13]` (R81). -/
def opField (w : CmdWord) : BitVec 3 := w.extractLsb' 13 3

/-- `y = w[12:7]` (R81, R82). -/
def yField (w : CmdWord) : Row := w.extractLsb' 7 6

/-- `x = w[6:0]` (R81, R82). -/
def xField (w : CmdWord) : Col := w.extractLsb' 0 7

/-- `low = w[12:0]` (R84). -/
def lowField (w : CmdWord) : BitVec 13 := w.extractLsb' 0 13

/-- A command without operands: its low bits must be zero (R84, R87). -/
def bare (w : CmdWord) (i : Instr) : Except Reserved Instr :=
  if lowField w = 0#13 then .ok i else .error (.operandBits (opField w))

/-- Decoding (R84): total, reads nothing but the word, and rejects a reserved word by name. -/
def decode (w : CmdWord) : Except Reserved Instr :=
  match opField w with
  | 0b000#3 => bare w .nop
  | 0b001#3 => .ok (.get (xField w) (yField w))
  | 0b010#3 => .ok (.tgl (xField w) (yField w))
  | 0b011#3 => bare w .step
  | 0b100#3 => bare w .fill
  | 0b101#3 => bare w .draw
  | op => .error (.opcode op)

/-- The three fields of a command word put together (R81). -/
def packWord (op : BitVec 3) (y : Row) (x : Col) : CmdWord := op ++ y ++ x

/-- Encoding (R83, R84). -/
def encode : Instr → CmdWord
  | .nop => packWord 0b000#3 0#6 0#7
  | .get x y => packWord 0b001#3 y x
  | .tgl x y => packWord 0b010#3 y x
  | .step => packWord 0b011#3 0#6 0#7
  | .fill => packWord 0b100#3 0#6 0#7
  | .draw => packWord 0b101#3 0#6 0#7

/-- `match` of the opcode map (R83). -/
def tableMatch : Instr → CmdWord
  | .nop => 0x0000#16
  | .get _ _ => 0x2000#16
  | .tgl _ _ => 0x4000#16
  | .step => 0x6000#16
  | .fill => 0x8000#16
  | .draw => 0xA000#16

/-- `mask` of the opcode map (R83). -/
def tableMask : Instr → CmdWord
  | .nop => 0xFFFF#16
  | .get _ _ => 0xE000#16
  | .tgl _ _ => 0xE000#16
  | .step => 0xFFFF#16
  | .fill => 0xFFFF#16
  | .draw => 0xFFFF#16

/-- The command word that a table row's bits stand for: a command is one 16-bit word on a parallel port
with no byte order (R56, R88), so bits above `nbits` are 0 and there is no second word. -/
def tableWord (nbits w : Nat) : CmdWord := BitVec.ofNat 16 (w % 2 ^ nbits)

/-- The instruction the decoder reads from a table row's bits. -/
def decodeTableWord (nbits w : Nat) : Option Instr := (decode (tableWord nbits w)).toOption

end Sys2Proof
end

