-- ==== Sys2Proof/Machine/Operands.lean ====
section
/-! DEFINITION. Addressing: where a cell lies in a buffer (spec/20_memory.md R50 to R53), the one
addressing mode (R111), and the toroidal neighbours (spec/41_stepper.md R141, R142). -/

namespace Sys2Proof.Machine

/-- `idx(x, y) = {y[5:3], x[6:0]}` (R50). -/
def cellIndex (x : Col) (y : Row) : Index := y.extractLsb' 3 3 ++ x

/-- `bit(y) = y[2:0]` (R50). -/
def cellBit (y : Row) : BitPos := y.extractLsb' 0 3

/-- The column of the cells held by byte `i`: `i mod 128` (R51). -/
def columnOf (i : Index) : Col := i.extractLsb' 0 7

/-- The row of bit `k` of byte `i`: `(i div 128)*8 + k` (R51). -/
def rowOf (i : Index) (k : BitPos) : Row := i.extractLsb' 7 3 ++ k

/-- `X = POS[6:0]` (R24). -/
def scanCol (p : ScanPos) : Col := p.extractLsb' 0 7

/-- `Y = POS[12:7]` (R24). -/
def scanRow (p : ScanPos) : Row := p.extractLsb' 7 6

/-- `POS = {Y, X}` (R24, R81). -/
def scanPos (x : Col) (y : Row) : ScanPos := y ++ x

/-- `(byte >> k) and 1`, as one bit (R52). -/
def byteBit (v : Byte) (k : BitPos) : Bool := (v >>> k.toNat).getLsbD 0

/-- `byte xor (1 << k)` (R53). -/
def flipBit (v : Byte) (k : BitPos) : Byte := v ^^^ (1#8 <<< k.toNat)

/-- `get(B, x, y)` (R52). -/
def getCell (B : Buffer) (x : Col) (y : Row) : Bool := byteBit (B (cellIndex x y)) (cellBit y)

/-- `toggle(B, x, y)` (R53). -/
def toggleCell (B : Buffer) (x : Col) (y : Row) : Buffer := fun j =>
  if j = cellIndex x y then flipBit (B j) (cellBit y) else B j

/-- `left(x) = (x + 127) mod 128` (R141). -/
def left (x : Col) : Col := x + 127#7

/-- `right(x) = (x + 1) mod 128` (R141). -/
def right (x : Col) : Col := x + 1#7

/-- `up(y) = (y + 63) mod 64` (R141). -/
def up (y : Row) : Row := y + 63#6

/-- `down(y) = (y + 1) mod 64` (R141). -/
def down (y : Row) : Row := y + 1#6

/-- The eight neighbours in the numbering of R142. -/
def neighbours (x : Col) (y : Row) : List (Col × Row) :=
  [(left x, up y), (x, up y), (right x, up y), (left x, y), (right x, y),
   (left x, down y), (x, down y), (right x, down y)]

end Sys2Proof.Machine
end

