-- ==== Sys2Proof/Config.lean ====
section
/-! DEFINITION. What is fixed for this hardware (spec/00_scope.md R7 to R10) and what the spec leaves
open: the constants, the input ports of one step, and the two free values. -/

namespace Sys2Proof

/-- The input ports as one step samples them (R80). A payload exists only together with its valid:
`cmd` is `cmd_valid` with `cmd`, `rnd` is `rnd_valid` with `rnd` (U23). -/
structure PortIn where
  /-- `rst`, synchronous reset, active high (R240). -/
  rst : Bool
  /-- `sink_fail`, the render sink has failed (R210). -/
  sinkFail : Bool
  /-- `cmd_valid` and `cmd`: the command word the host offers, if it offers one (R94). -/
  cmd : Option CmdWord
  /-- `rnd_valid` and `rnd`: the byte the random source offers, if it offers one (R119). -/
  rnd : Option Byte
  /-- `pix_ready`: the sink takes a byte (R182). -/
  pixReady : Bool
  deriving DecidableEq, Repr, Inhabited

namespace Config

/-- WIDTH (R7, R8). -/
def width : Nat := 128
/-- HEIGHT (R7, R8). -/
def height : Nat := 64
/-- BUFSZ (R7, R8). -/
def bufSize : Nat := 1024
/-- NCELL (R8). -/
def cells : Nat := 8192
/-- NPAGE (R8). -/
def pages : Nat := 8
/-- The last byte index, 1023, the exit test of FILL, COPY and DRAW (R23, R164). -/
def lastIndex : Index := 1023#10
/-- The last scan position, 8191, the exit test of SCAN (R24, R164). -/
def lastPos : ScanPos := 8191#13

/-- `BUF_RESET` (R10, R40): the byte that buffer `b` holds at index `i` after the n-th reset and before
anything is written there. A FREE VALUE (log entry 4): it has no body, so no claim can rest on it, and it
takes the reset's number because R40 forbids assuming the same contents after two resets. -/
opaque bufReset : (n : Nat) → (b : Bool) → (i : Index) → Byte

/-- The open environment of R10 (`rnd_stream`, `sink_fail_trace`, `rnd_ready_trace`, `pix_ready_trace`,
the host's words and `rst`): what the input ports show at a step for which State lists no input.
A FREE VALUE (log entry 1). -/
opaque portIn : (tick : Nat) → PortIn

end Config
end Sys2Proof
end

