-- ==== Sys2Proof/Machine/State.lean ====
section
/-! DEFINITION. The state of GOLSTEP (spec/10_state.md R20) with the environment's side of the ports, the
reasons a step could stop, and the state right after reset (R40). -/

namespace Sys2Proof.Machine

/-- A buffer's stored bytes: (index, byte) pairs with strictly rising indices below 1024
(`Memory.wf` in Machine/Ops.lean). An unlisted index holds a byte nothing has written since reset. -/
abbrev Memory := List Host.Cell

/-- `PHASE` (R27): six values; the codes 6 and 7 are never reached and have no constructor (U16). -/
inductive Phase where
  /-- 0: no command in progress. -/
  | idle
  /-- 1: FILL in progress, position `IDX`. -/
  | fill
  /-- 2: STEP in progress, first part, position `IDX`. -/
  | copy
  /-- 3: STEP in progress, second part, position `POS`. -/
  | scan
  /-- 4: STEP in progress, last micro-step. -/
  | swap
  /-- 5: DRAW in progress, position `IDX`. -/
  | draw
  deriving DecidableEq, Repr

/-- The events a model works with (R80), as the far sides of the ports see them. -/
inductive Event where
  /-- A command word was accepted (R94). -/
  | accepted (w : CmdWord)
  /-- A response word was given (R34, R90). -/
  | response (r : RspWord)
  /-- A byte was taken from the random source (R119). -/
  | taken (v : Byte)
  /-- A byte was sent to the sink with its index: `emit(i, v)` (R182). -/
  | sent (i : Index) (v : Byte)
  /-- A sink failure was observed (R212). -/
  | sinkFailed
  /-- A reset took place (R240). -/
  | reset
  deriving DecidableEq, Repr

/-- The state. The first eight fields are the spec's tuple (R20), the last four the model's own
(log entries 1, 3, 4, 5). -/
structure State where
  /-- `BUF[0]` (R37). -/
  buf0 : Memory
  /-- `BUF[1]` (R37). -/
  buf1 : Memory
  /-- `CUR`: which buffer is current (R22). -/
  cur : Bool
  /-- `SEEDED` (R30). -/
  seeded : Bool
  /-- `HALTED` (R31). -/
  halted : Bool
  /-- `PHASE` (R27). -/
  phase : Phase
  /-- `IDX` (R23). -/
  idx : Index
  /-- `POS` (R24). -/
  pos : ScanPos
  /-- The input ports' levels at the coming steps, the next step first (R10, R80). -/
  inputs : List PortIn
  /-- How many steps took a free input, `Config.portIn`, because `inputs` was used up. -/
  freeTicks : Nat
  /-- How many resets lie behind: it picks the unspecified buffer contents, `Config.bufReset` (R40). -/
  resets : Nat
  /-- The events so far, oldest first (R80). -/
  trace : List Event
  deriving DecidableEq, Repr

/-- The reasons a step stops with a fault: none. The core has no failure modes (R202, R262), a
failed sink halts the block in a next state (R212), and reserved words and unseeded reads are answered
(R204, R205). Log entry 17. -/
inductive Fault where
  deriving DecidableEq, Repr

/-- The reasons an instruction has no meaning. -/
inductive Refusal where
  /-- Raised by an arm of `exec` whose instruction has no meaning yet; no arm raises it. Safe. -/
  | notModelled (mnemonic : String)
  deriving DecidableEq, Repr

/-- The state right after reset (R40, R241): the six registers are 0, no byte of a buffer is written, and
the environment is open (log entries 1, 4, 5). -/
def State.reset : State where
  buf0 := []
  buf1 := []
  cur := false
  seeded := false
  halted := false
  phase := .idle
  idx := 0#10
  pos := 0#13
  inputs := []
  freeTicks := 0
  resets := 0
  trace := []

end Sys2Proof.Machine
end

