-- ==== Sys2Proof/Machine/Ops.lean ====
section
/-! DEFINITION. The named operations over memory, ports and registers: `MemRead`, `MemWrite`, `respond`,
`emit`, `take_rnd` (spec/00_scope.md R11), the sampling of one step's inputs, reset (R240), and the halt
entry `raise SinkFail` (R212), which is this block's only exception. There is no return from it (R215):
reset is the only way out. -/

namespace Sys2Proof.Machine

/-- The byte stored at an index, if one was written. -/
def Memory.lookup : Memory → Nat → Option Byte
  | [], _ => none
  | (b, u) :: m, a => if a = b then some u else Memory.lookup m a

/-- Store one byte, keeping the indices strictly rising. -/
def Memory.store : Memory → Nat → Byte → Memory
  | [], a, v => [(a, v)]
  | (b, u) :: m, a, v =>
    if a < b then (a, v) :: (b, u) :: m
    else if a = b then (a, v) :: m
    else (b, u) :: Memory.store m a v

/-- The indices rise strictly, all above `lo` where one is given. -/
def Memory.risingAbove : Option Nat → Memory → Bool
  | _, [] => true
  | none, (b, _) :: m => Memory.risingAbove (some b) m
  | some lo, (b, _) :: m => decide (lo < b) && Memory.risingAbove (some b) m

/-- The canonical form: strictly rising indices, all below 1024 (R37). An unlisted index has no written
byte, so no entry can equal what an unlisted index holds. -/
def Memory.wf (m : Memory) : Bool :=
  Memory.risingAbove none m && m.all (fun c => decide (c.1 < Config.bufSize))

/-- The buffer with number `b` (R37). -/
def State.buf (s : State) (b : Bool) : Memory := if b then s.buf1 else s.buf0

/-- Replace the buffer with number `b`. -/
def State.setBuf (s : State) (b : Bool) (m : Memory) : State :=
  if b then { s with buf1 := m } else { s with buf0 := m }

/-- Something has been written at index `i` of buffer `b` since reset. -/
def State.isWritten (s : State) (b : Bool) (i : Index) : Bool :=
  ((s.buf b).lookup i.toNat).isSome

/-- `MemRead(b, i)` (R11, R58). A byte nothing has written since reset is unspecified (R40): a free
value (log entry 4). -/
def State.memRead (s : State) (b : Bool) (i : Index) : Byte :=
  ((s.buf b).lookup i.toNat).getD (Config.bufReset s.resets b i)

/-- `MemWrite(b, i, v)` (R11, R58). -/
def State.memWrite (s : State) (b : Bool) (i : Index) (v : Byte) : State :=
  s.setBuf b ((s.buf b).store i.toNat v)

/-- Buffer `b` as the array of its bytes (R52). -/
def State.bytes (s : State) (b : Bool) : Buffer := fun i => s.memRead b i

/-- The read-modify-write of one byte by which a cell of buffer `b` is toggled (R58, R68, R114, R158). -/
def State.toggleAt (s : State) (b : Bool) (x : Col) (y : Row) : State :=
  s.memWrite b (cellIndex x y) (flipBit (s.memRead b (cellIndex x y)) (cellBit y))

/-- Record an event at a port. -/
def State.log (s : State) (e : Event) : State := { s with trace := s.trace ++ [e] }

/-- Write the sequencer's position, `(PHASE, IDX, POS)` (R26). -/
def State.moveTo (s : State) (ph : Phase) (i : Index) (p : ScanPos) : State :=
  { s with phase := ph, idx := i, pos := p }

/-- `SEEDED <- 1` (R30). -/
def State.markSeeded (s : State) : State := { s with seeded := true }

/-- `HALTED <- 1` (R31). -/
def State.markHalted (s : State) : State := { s with halted := true }

/-- `CUR <- ~CUR` (R22, R160). -/
def State.flipCur (s : State) : State := { s with cur := !s.cur }

/-- The response codes that are given (R90, R200); 4 to 7 are never produced (U15). -/
inductive Code where
  /-- 0: the command was executed completely. -/
  | ok
  /-- 1: the word was reserved. -/
  | illegal
  /-- 2: GET, TGL, STEP or DRAW while `SEEDED = 0`. -/
  | unseeded
  /-- 3: a DRAW was cut short by a sink failure. -/
  | sinkFail
  deriving DecidableEq, Repr

/-- `code[2:0]` (R90). -/
def codeBits : Code → BitVec 3
  | .ok => 0#3
  | .illegal => 1#3
  | .unseeded => 2#3
  | .sinkFail => 3#3

/-- `{code[2:0], q}` (R34, R90). -/
def rspWord (c : Code) (q : Bool) : RspWord := codeBits c ++ BitVec.ofBool q

/-- `respond(code, q)` (R11, R90). -/
def State.respond (s : State) (c : Code) (q : Bool) : State := s.log (.response (rspWord c q))

/-- `emit(i, v)` (R11, R182). -/
def State.emit (s : State) (i : Index) (v : Byte) : State := s.log (.sent i v)

/-- The source's side of `take_rnd()`: the byte `v` is consumed (R11, R119). -/
def State.takeRnd (s : State) (v : Byte) : State := s.log (.taken v)

/-- The input ports as the next step samples them: the listed levels, or a free value where State lists
none (log entry 1). -/
def State.nextInput (s : State) : PortIn :=
  match s.inputs with
  | [] => Config.portIn s.freeTicks
  | p :: _ => p

/-- The state with that input used up. -/
def State.consume (s : State) : State :=
  match s.inputs with
  | [] => { s with freeTicks := s.freeTicks + 1 }
  | _ :: ps => { s with inputs := ps }

/-- Reset (R40, R240, R241, R242): every register to its reset value, both buffers unspecified afresh, a
command in progress abandoned without a response. -/
def State.doReset (s : State) : State :=
  { s with
    buf0 := [], buf1 := [], cur := false, seeded := false, halted := false,
    phase := .idle, idx := 0#10, pos := 0#13,
    resets := s.resets + 1, trace := s.trace ++ [.reset] }

/-- `raise SinkFail`, the halt entry (R212): from DRAW it also ends the command and answers it with
code 3; from IDLE it gives no response. Nothing is saved and nothing is vectored. -/
def State.raiseSinkFail (s : State) : State :=
  match s.phase with
  | .draw => (((s.moveTo .idle 0#10 s.pos).markHalted).log .sinkFailed).respond .sinkFail false
  | _ => (s.markHalted).log .sinkFailed

end Sys2Proof.Machine
end

