-- ==== Sys2Proof/Machine/Flags.lean ====
section
/-! DEFINITION. Flags and the words and wires computed from the state: the `SEEDED` check
(spec/60_exceptions.md R205), `BUSY` and the status word (spec/10_state.md R32, R33), the numeric value of
`PHASE` (R27) and the output ports (spec/30_encoding.md R80, R240). There are no arithmetic condition
codes (R32). -/

namespace Sys2Proof.Machine

/-- The check of `SEEDED` at acceptance (R205): `t` is the effect where a grid has been seeded, else the
command is answered UNSEEDED and nothing else happens. -/
def State.ifSeeded (s t : State) : State := if s.seeded then t else s.respond .unseeded false

/-- `BUSY` (R32). -/
def State.busy (s : State) : Bool := decide (s.phase ≠ .idle)

/-- `status[2:0] = {HALTED, SEEDED, BUSY}` (R33). -/
def State.status (s : State) : BitVec 3 :=
  BitVec.ofBool s.halted ++ BitVec.ofBool s.seeded ++ BitVec.ofBool s.busy

/-- The 3-bit value of `PHASE` (R27); no port shows it. -/
def phaseCode : Phase → BitVec 3
  | .idle => 0#3
  | .fill => 1#3
  | .copy => 2#3
  | .scan => 3#3
  | .swap => 4#3
  | .draw => 5#3

/-- `cmd_ready` (R80): `PHASE = IDLE and HALTED = 0 and rst = 0`. -/
def State.cmdReady (s : State) (p : PortIn) : Bool := decide (s.phase = .idle) && !s.halted && !p.rst

/-- `rnd_ready` (R80, R240): `PHASE = FILL`, and 0 while `rst = 1`. -/
def State.rndReady (s : State) (p : PortIn) : Bool := decide (s.phase = .fill) && !p.rst

/-- `pix_valid` (R80, R240): `PHASE = DRAW`, and 0 while `rst = 1`. -/
def State.pixValid (s : State) (p : PortIn) : Bool := decide (s.phase = .draw) && !p.rst

/-- `pix` with `pix_idx` (R80): `IDX` and `BUF[CUR][IDX]`, which carry meaning only while `pix_valid`
is 1 (U23). -/
def State.pixPort (s : State) (p : PortIn) : Option (Index × Byte) :=
  if s.pixValid p then some (s.idx, s.memRead s.cur s.idx) else none

/-- The responses among some events, in order. -/
def responsesOf (es : List Event) : List RspWord :=
  es.filterMap (fun e => match e with | .response r => some r | _ => none)

/-- The bytes sent to the sink among some events, in order, each with its index. -/
def sentOf (es : List Event) : List (Index × Byte) :=
  es.filterMap (fun e => match e with | .sent i v => some (i, v) | _ => none)

/-- The bytes taken from the random source among some events, in order. -/
def takenOf (es : List Event) : List Byte :=
  es.filterMap (fun e => match e with | .taken v => some v | _ => none)

/-- The command words accepted among some events, in order. -/
def acceptedOf (es : List Event) : List CmdWord :=
  es.filterMap (fun e => match e with | .accepted w => some w | _ => none)

end Sys2Proof.Machine
end

