-- ==== Sys2Proof/Machine/BitGrid.lean ====
section
/-! DEFINITION. The Bit-Grid commands GET, TGL and FILL (spec/40_bitgrid_ops.md). -/

namespace Sys2Proof.Machine

/-- GET x, y (R112). -/
def execGet (x : Col) (y : Row) (s : State) : Host.Outcome State Fault Refusal :=
  .next (s.ifSeeded (s.respond .ok (byteBit (s.memRead s.cur (cellIndex x y)) (cellBit y))))

/-- TGL x, y (R114). -/
def execTgl (x : Col) (y : Row) (s : State) : Host.Outcome State Fault Refusal :=
  .next (s.ifSeeded ((s.toggleAt s.cur x y).respond .ok false))

/-- FILL, acceptance micro-step (R118): `IDX` is already 0 (R28), no byte is taken, no response yet. The
bytes follow in phase FILL (`fillByte`). -/
def execFill (s : State) : Host.Outcome State Fault Refusal :=
  .next (s.moveTo .fill s.idx s.pos)

/-- FILL byte micro-step (R119), with the byte `v` the source offers. -/
def fillByte (v : Byte) (s : State) : State :=
  let t := (s.takeRnd v).memWrite s.cur s.idx v
  if s.idx < Config.lastIndex then t.moveTo .fill (s.idx + 1#10) s.pos
  else ((t.moveTo .idle 0#10 s.pos).markSeeded).respond .ok false

end Sys2Proof.Machine
end

