-- ==== Sys2Proof/Machine/Render.lean ====
section
/-! DEFINITION. The render hand-over DRAW and the command NOP (spec/42_render_and_control.md). -/

namespace Sys2Proof.Machine

/-- NOP (R186). -/
def execNop (s : State) : Host.Outcome State Fault Refusal :=
  .next (s.respond .ok false)

/-- DRAW, acceptance micro-step (R181): `IDX` is already 0 (R28), no byte sent yet, no response yet. The
bytes follow in phase DRAW (`drawByte`). -/
def execDraw (s : State) : Host.Outcome State Fault Refusal :=
  .next (s.ifSeeded (s.moveTo .draw s.idx s.pos))

/-- DRAW byte micro-step in which the sink takes the byte and has not failed (R182). -/
def drawByte (s : State) : State :=
  let t := s.emit s.idx (s.memRead s.cur s.idx)
  if s.idx < Config.lastIndex then t.moveTo .draw (s.idx + 1#10) s.pos
  else (t.moveTo .idle 0#10 s.pos).respond .ok false

end Sys2Proof.Machine
end

