-- ==== Sys2Proof/Machine/Stepper.lean ====
section
/-! DEFINITION. The generation stepper (spec/41_stepper.md): the neighbour count, the rule, the next
generation as a function, and the command STEP with its micro-steps. -/

namespace Sys2Proof.Machine

/-- One cell as a term of the count: 0 or 1, zero-extended to 4 bits (R145). -/
def cellTerm (B : Buffer) (x : Col) (y : Row) : Count := (BitVec.ofBool (getCell B x y)).setWidth 4

/-- `count(B, x, y)` (R145). -/
def liveCount (B : Buffer) (x : Col) (y : Row) : Count :=
  let l := left x
  let r := right x
  let u := up y
  let d := down y
  cellTerm B l u + cellTerm B x u + cellTerm B r u
    + cellTerm B l y + cellTerm B r y
    + cellTerm B l d + cellTerm B x d + cellTerm B r d

/-- `rule(cell, cnt)` (R147); counts 9 to 15 never occur and take the same comparisons (U17). -/
def lifeRule (cell : Bool) (cnt : Count) : Bool :=
  if cell = true ∧ (cnt < 2#4 ∨ cnt > 3#4) then false
  else if cell = false ∧ cnt = 3#4 then true
  else cell

/-- `chg(cell, cnt) = cell xor rule(cell, cnt)` (R149). -/
def lifeChg (cell : Bool) (cnt : Count) : Bool := cell ^^ lifeRule cell cnt

/-- The next state of one cell (R150). -/
def nextCell (B : Buffer) (x : Col) (y : Row) : Bool := lifeRule (getCell B x y) (liveCount B x y)

/-- Eight cells packed into a byte, bit `k` from `f k` (R54, R71). -/
def packByte (f : BitPos → Bool) : Byte :=
  BitVec.ofBool (f 7#3) ++ BitVec.ofBool (f 6#3) ++ BitVec.ofBool (f 5#3) ++ BitVec.ofBool (f 4#3)
    ++ BitVec.ofBool (f 3#3) ++ BitVec.ofBool (f 2#3) ++ BitVec.ofBool (f 1#3) ++ BitVec.ofBool (f 0#3)

/-- `NextGen(B)` (R150), byte by byte: bit `k` of byte `i` is the next state of the cell it holds (R51). -/
def nextGen (B : Buffer) : Buffer := fun i =>
  packByte (fun k => nextCell B (columnOf i) (rowOf i k))

/-- STEP, acceptance micro-step (R156): `IDX` is already 0 (R28), no response yet. The generation is
computed in the phases COPY, SCAN and SWAP. -/
def execStep (s : State) : Host.Outcome State Fault Refusal :=
  .next (s.ifSeeded (s.moveTo .copy s.idx s.pos))

/-- COPY micro-step (R157). -/
def copyByte (s : State) : State :=
  let t := s.memWrite (!s.cur) s.idx (s.memRead s.cur s.idx)
  if s.idx < Config.lastIndex then t.moveTo .copy (s.idx + 1#10) s.pos
  else t.moveTo .scan 0#10 s.pos

/-- SCAN micro-step (R158): all nine reads are of the current buffer, the only write is to the next. -/
def scanCell (s : State) : State :=
  let x := scanCol s.pos
  let y := scanRow s.pos
  let cell := getCell (s.bytes s.cur) x y
  let cnt := liveCount (s.bytes s.cur) x y
  let t := if lifeChg cell cnt then s.toggleAt (!s.cur) x y else s
  if s.pos < Config.lastPos then t.moveTo .scan s.idx (s.pos + 1#13)
  else t.moveTo .swap s.idx 0#13

/-- SWAP micro-step (R160). -/
def swapBuffers (s : State) : State :=
  ((s.flipCur).moveTo .idle s.idx s.pos).respond .ok false

end Sys2Proof.Machine
end

