-- ==== Sys2Proof/Machine/Dispatch.lean ====
section
/-! DEFINITION. One arm per command: the micro-step that executes or accepts it
(spec/40_bitgrid_ops.md, spec/41_stepper.md, spec/42_render_and_control.md). -/

namespace Sys2Proof.Machine

/-- The meaning of a command in the micro-step that accepts it (R94). -/
def exec (i : Instr) (s : State) : Host.Outcome State Fault Refusal :=
  match i with
  | .nop => Sys2Proof.Machine.execNop s
  | .get x y => Sys2Proof.Machine.execGet x y s
  | .tgl x y => Sys2Proof.Machine.execTgl x y s
  | .step => Sys2Proof.Machine.execStep s
  | .fill => Sys2Proof.Machine.execFill s
  | .draw => Sys2Proof.Machine.execDraw s

end Sys2Proof.Machine
end

