-- ==== Sys2Proof/Machine/Sequencer.lean ====
section
/-! DEFINITION. The sequencer: which micro-step is taken, from the phase and the inputs of the step
(spec/10_state.md R29), in the order of checks of spec/60_exceptions.md R214. Where no micro-step is
enabled the block does not change (R95, R119, R182, R217; log entry 2). -/

namespace Sys2Proof.Machine

/-- Acceptance of an offered word (R94, R214): decode first, a reserved word is answered ILLEGAL
whatever `SEEDED` is (R204), any other word is executed. -/
def acceptWord (w : CmdWord) (s : State) : Host.Outcome State Fault Refusal :=
  match decode w with
  | .error _ => .next ((s.log (.accepted w)).respond .illegal false)
  | .ok i => exec i (s.log (.accepted w))

/-- A micro-step in IDLE (R94, R95, R211, R214): a failed sink wins over a command offered. -/
def idleStep (p : PortIn) (s : State) : Host.Outcome State Fault Refusal :=
  if p.sinkFail then .next s.raiseSinkFail
  else
    match p.cmd with
    | none => .next s
    | some w => acceptWord w s

/-- A micro-step in FILL (R119): enabled when the source offers a byte; `sink_fail` is not looked at. -/
def fillStep (p : PortIn) (s : State) : State :=
  match p.rnd with
  | none => s
  | some v => fillByte v s

/-- A micro-step in DRAW (R182): a failed sink wins over the transfer; else it is enabled when the sink
takes the byte. -/
def drawStep (p : PortIn) (s : State) : State :=
  if p.sinkFail then s.raiseSinkFail
  else if p.pixReady then drawByte s
  else s

/-- A micro-step by the phase it is taken in (R29). -/
def phaseStep (p : PortIn) (s : State) : Host.Outcome State Fault Refusal :=
  match s.phase with
  | .idle => idleStep p s
  | .fill => .next (fillStep p s)
  | .copy => .next (copyByte s)
  | .scan => .next (scanCell s)
  | .swap => .next (swapBuffers s)
  | .draw => .next (drawStep p s)

/-- One step with the inputs `p` (R214): `rst` over everything, then `HALTED`, then the phase. -/
def clock (p : PortIn) (s : State) : Host.Outcome State Fault Refusal :=
  if p.rst then .next s.doReset
  else if s.halted then .next s
  else phaseStep p s

/-- The inputs of a step in which the host offers `w` and nothing else happens. -/
def offer (w : CmdWord) : PortIn where
  rst := false
  sinkFail := false
  cmd := some w
  rnd := none
  pixReady := false

/-- The inputs of a step in which nothing happens at the ports. -/
def quiet : PortIn where
  rst := false
  sinkFail := false
  cmd := none
  rnd := none
  pixReady := false

/-- The inputs of a step in which the random source offers `v`. -/
def sourceByte (v : Byte) : PortIn := { quiet with rnd := some v }

/-- The inputs of a step in which the sink takes a byte. -/
def sinkReady : PortIn := { quiet with pixReady := true }

/-- The block ready to accept a command (R94), with `w` offered at the next step (log entry 6). -/
def offerNext (s : State) (w : CmdWord) : State :=
  { s with halted := false, phase := .idle, idx := 0#10, pos := 0#13, inputs := offer w :: s.inputs }

end Sys2Proof.Machine
end

