-- ==== Sys2Proof/Machine/Step.lean ====
section
/-! DEFINITION. One step of the machine: sample the inputs of the step, then take the micro-step they
enable (spec/70_reset_and_hazards.md R262). -/

namespace Sys2Proof.Machine

/-- One step. -/
def step (s : State) : Host.Outcome State Fault Refusal := clock s.nextInput s.consume

/-- `s` with the table word offered on the command port at the next step, and the block in the one
condition in which a word is accepted (R94). GOLSTEP fetches nothing (R26, R69): a program is the host's
sequence of offered words (log entry 6). -/
def State.withFetchWord (s : State) (nbits w : Nat) : State := offerNext s (tableWord nbits w)

end Sys2Proof.Machine
end

