-- ==== Sys2Proof/WellFormed.lean ====
section
/-! DEFINITION. Well-formedness. Every `Instr` is well formed by its type (R57: every 7-bit value is a
legal column, every 6-bit value a legal row). What can be ill formed is a source command: an assembler
must reject x > 127 or y > 63, which have no encoding (R96). -/

namespace Sys2Proof

/-- The coordinate check of an assembler (R96). -/
def coordsInRange (x y : Nat) : Bool := decide (x < Config.width) && decide (y < Config.height)

/-- A source command has an encoding (R96). -/
def AsmCmd.wellFormed : AsmCmd → Bool
  | .nop => true
  | .get x y => coordsInRange x y
  | .tgl x y => coordsInRange x y
  | .step => true
  | .fill => true
  | .draw => true

end Sys2Proof
end

