-- ==== Sys2Proof/Machine/Assembler.lean ====
section
/-! DEFINITION. The host's side of the command port: assembler lines and listings (spec/30_encoding.md R96)
and the macros SET, CLR, SEED, FRAME and RUN (R97). None of it is part of the block. Spacing and letter
case that R96 leaves open are log entry 16. -/

namespace Sys2Proof.Machine

/-- Why an assembler rejects a line (R96). -/
inductive AsmError where
  /-- The line does not begin with one of the six mnemonics in capitals. -/
  | mnemonic
  /-- The operands are missing, too many, or not numbers. -/
  | operands
  /-- x > 127 or y > 63: the command has no encoding. -/
  | range
  deriving DecidableEq, Repr

/-- The command a source command stands for, where it has an encoding (R96). -/
def assembleCmd (c : AsmCmd) : Option Instr :=
  if c.wellFormed then
    match c with
    | .nop => some .nop
    | .get x y => some (.get (BitVec.ofNat 7 x) (BitVec.ofNat 6 y))
    | .tgl x y => some (.tgl (BitVec.ofNat 7 x) (BitVec.ofNat 6 y))
    | .step => some .step
    | .fill => some .fill
    | .draw => some .draw
  else none

/-- A blank between the parts of a line. -/
def isBlank (c : Char) : Bool := c == ' ' || c == '\t'

/-- The line up to its comment: `;` starts a comment (R96). -/
def stripComment (cs : List Char) : List Char := cs.takeWhile (fun c => c != ';')

/-- The text without the blanks around it. -/
def trim (cs : List Char) : List Char := ((cs.dropWhile isBlank).reverse.dropWhile isBlank).reverse

/-- The value of a digit, decimal or hexadecimal. -/
def digitValue (c : Char) : Option Nat :=
  if '0'.toNat ≤ c.toNat ∧ c.toNat ≤ '9'.toNat then some (c.toNat - '0'.toNat)
  else if 'A'.toNat ≤ c.toNat ∧ c.toNat ≤ 'F'.toNat then some (c.toNat - 'A'.toNat + 10)
  else if 'a'.toNat ≤ c.toNat ∧ c.toNat ≤ 'f'.toNat then some (c.toNat - 'a'.toNat + 10)
  else none

/-- The number whose digits in the given base continue `acc`. -/
def digitsValue (base acc : Nat) : List Char → Option Nat
  | [] => some acc
  | c :: cs =>
    match digitValue c with
    | none => none
    | some d => if d < base then digitsValue base (acc * base + d) cs else none

/-- An operand: decimal, or `0x` and hexadecimal digits (R96). -/
def parseNumber (cs : List Char) : Option Nat :=
  if cs.take 2 = ['0', 'x'] then
    if cs.drop 2 = [] then none else digitsValue 16 0 (cs.drop 2)
  else if cs = [] then none
  else digitsValue 10 0 cs

/-- Two operands separated by a comma, x first then y (R96). -/
def parseOperands (cs : List Char) : Option (Nat × Nat) :=
  match cs.dropWhile (fun c => c != ',') with
  | [] => none
  | _ :: rest =>
    match parseNumber (trim (cs.takeWhile (fun c => c != ','))), parseNumber (trim rest) with
    | some x, some y => some (x, y)
    | _, _ => none

/-- A command without operands. -/
def bareLine (operands : List Char) (c : AsmCmd) : Except AsmError (Option AsmCmd) :=
  if operands = [] then .ok (some c) else .error .operands

/-- A command with the operands x, y. -/
def cellLine (operands : List Char) (c : Nat → Nat → AsmCmd) : Except AsmError (Option AsmCmd) :=
  match parseOperands operands with
  | some (x, y) => .ok (some (c x y))
  | none => .error .operands

/-- One line of source: a command, or nothing but blanks and a comment (R96). -/
def parseLine (line : List Char) : Except AsmError (Option AsmCmd) :=
  let cs := trim (stripComment line)
  let m := cs.takeWhile (fun c => !isBlank c)
  let operands := trim (cs.dropWhile (fun c => !isBlank c))
  if cs = [] then .ok none
  else if m = ['N', 'O', 'P'] then bareLine operands .nop
  else if m = ['G', 'E', 'T'] then cellLine operands .get
  else if m = ['T', 'G', 'L'] then cellLine operands .tgl
  else if m = ['S', 'T', 'E', 'P'] then bareLine operands .step
  else if m = ['F', 'I', 'L', 'L'] then bareLine operands .fill
  else if m = ['D', 'R', 'A', 'W'] then bareLine operands .draw
  else .error .mnemonic

/-- One line of source to its command word (R96). -/
def assembleLine (line : List Char) : Except AsmError (Option CmdWord) :=
  match parseLine line with
  | .error e => .error e
  | .ok none => .ok none
  | .ok (some c) =>
    match assembleCmd c with
    | none => .error .range
    | some i => .ok (some (encode i))

/-- A source text, one command per line, to its command words (R96). -/
def assemble : List (List Char) → Except AsmError (List CmdWord)
  | [] => .ok []
  | line :: ls =>
    match assembleLine line, assemble ls with
    | .error e, _ => .error e
    | _, .error e => .error e
    | .ok none, .ok ws => .ok ws
    | .ok (some w), .ok ws => .ok (w :: ws)

/-- A digit as a character, hexadecimal digits in capitals. -/
def digitChar (n : Nat) : Char := if n < 10 then Char.ofNat (48 + n) else Char.ofNat (55 + n)

/-- A number below 1000 in decimal. -/
def decimal (n : Nat) : List Char :=
  if n < 10 then [digitChar n]
  else if n < 100 then [digitChar (n / 10), digitChar (n % 10)]
  else [digitChar (n / 100), digitChar (n / 10 % 10), digitChar (n % 10)]

/-- The operands of a line: x, then y (R96). -/
def operandText (x : Col) (y : Row) : List Char := decimal x.toNat ++ [',', ' '] ++ decimal y.toNat

/-- A command as a line of source (R96). -/
def asmText : Instr → List Char
  | .nop => ['N', 'O', 'P']
  | .get x y => ['G', 'E', 'T', ' '] ++ operandText x y
  | .tgl x y => ['T', 'G', 'L', ' '] ++ operandText x y
  | .step => ['S', 'T', 'E', 'P']
  | .fill => ['F', 'I', 'L', 'L']
  | .draw => ['D', 'R', 'A', 'W']

/-- The lowest `n` hexadecimal digits of a number. -/
def hexDigits : Nat → Nat → List Char
  | 0, _ => []
  | n + 1, v => hexDigits n (v / 16) ++ [digitChar (v % 16)]

/-- A line of a listing: the command, its word in hexadecimal and, after `->`, the expected response
word (R96). -/
def listingLine (i : Instr) (r : RspWord) : List Char :=
  asmText i ++ [' ', ' ', '0', 'x'] ++ hexDigits 4 (encode i).toNat ++ [' ', '-', '>', ' ', '0', 'x']
    ++ hexDigits 1 r.toNat

/-- The macros (R97). -/
inductive Macro where
  | set (x : Col) (y : Row)
  | clr (x : Col) (y : Row)
  | seed
  | frame
  | run (n : Nat)
  deriving DecidableEq, Repr

/-- What the host does in one line of a macro's expansion (R97). -/
inductive HostAct where
  /-- Send the command. -/
  | send (i : Instr)
  /-- Send the command if the last response has this `q`. -/
  | sendIf (q : Bool) (i : Instr)
  /-- Wait the host's fixed interval; the block does nothing meanwhile (R95, R188). -/
  | wait
  deriving DecidableEq, Repr

/-- FRAME: `STEP`, `DRAW`, then the wait (R97). -/
def frameActs : List HostAct := [.send .step, .send .draw, .wait]

/-- The expansions (R97). -/
def expandMacro : Macro → List HostAct
  | .set x y => [.send (.get x y), .sendIf false (.tgl x y)]
  | .clr x y => [.send (.get x y), .sendIf true (.tgl x y)]
  | .seed => [.send .fill, .send .draw]
  | .frame => frameActs
  | .run n => (List.replicate n frameActs).flatten

/-- The `q` of the last response the host has seen. -/
def lastQ (s : State) : Option Bool := (responsesOf s.trace).getLast?.map (fun r => r.getLsbD 0)

/-- What the host's next act puts on the command port (R97). -/
def hostInput (a : HostAct) (s : State) : PortIn :=
  match a with
  | .send i => offer (encode i)
  | .sendIf q i => if lastQ s = some q then offer (encode i) else quiet
  | .wait => quiet

/-- One step in which the host carries out the act. -/
def hostStep (a : HostAct) (s : State) : Host.Outcome State Fault Refusal := clock (hostInput a s) s

/-- The acts one after the other, each in one step: for expansions whose commands finish in the micro-step
that accepts them (SET and CLR). -/
def hostSteps : List HostAct → State → Host.Outcome State Fault Refusal
  | [], s => .next s
  | a :: as, s =>
    match hostStep a s with
    | .next t => hostSteps as t
    | .fault f => .fault f
    | .refused r => .refused r

end Sys2Proof.Machine
end

