-- ==== Sys2Proof/Safety.lean ====
section
/-! DEFINITION. The terms the claims use: the invariants of a run that starts at reset, the order of the
port events, the inputs of the coming steps, and what an observer at the ports cannot tell apart. -/

namespace Sys2Proof.Machine

/-- The sequencer invariant (R28). -/
structure State.Sequenced (s : State) : Prop where
  /-- In IDLE and SWAP both position registers are 0. -/
  resting : s.phase = .idle ∨ s.phase = .swap → s.idx = 0#10 ∧ s.pos = 0#13
  /-- In FILL, COPY and DRAW the scan position is 0. -/
  indexed : s.phase = .fill ∨ s.phase = .copy ∨ s.phase = .draw → s.pos = 0#13
  /-- In SCAN the byte index is 0. -/
  scanning : s.phase = .scan → s.idx = 0#10
  /-- The halted block is in IDLE. -/
  halted : s.halted = true → s.phase = .idle

/-- What has been written since reset (R30, R40): wherever a command may read, a byte has been written,
so no unspecified byte is ever used. -/
structure State.Written (s : State) : Prop where
  /-- `SEEDED` says that every byte of the current buffer has been written. -/
  seeded : s.seeded = true → ∀ i : Index, s.isWritten s.cur i = true
  /-- A STEP or DRAW in progress was accepted with `SEEDED = 1`. -/
  working : s.phase = .copy ∨ s.phase = .scan ∨ s.phase = .swap ∨ s.phase = .draw → s.seeded = true
  /-- A FILL in progress has written the bytes below `IDX`. -/
  filled : s.phase = .fill → ∀ i : Index, i < s.idx → s.isWritten s.cur i = true
  /-- The COPY phase has written the bytes of the next buffer below `IDX`. -/
  copied : s.phase = .copy → ∀ i : Index, i < s.idx → s.isWritten (!s.cur) i = true
  /-- After the COPY phase every byte of the next buffer has been written. -/
  replaced : s.phase = .scan ∨ s.phase = .swap → ∀ i : Index, s.isWritten (!s.cur) i = true

/-- The order of events at the ports, from "no command in progress": `some b` says that a response is owed
(`b`), `none` that an event came where it may not. A word is accepted only when none is in progress (R94),
each is answered exactly once (R90), bytes move only while a command is in progress (R119, R182, R222),
and a reset abandons the command (R242). -/
def portOrder : Option Bool → List Event → Option Bool
  | b, [] => b
  | some false, .accepted _ :: es => portOrder (some true) es
  | some true, .response _ :: es => portOrder (some false) es
  | some true, .taken _ :: es => portOrder (some true) es
  | some true, .sent _ _ :: es => portOrder (some true) es
  | some b, .sinkFailed :: es => portOrder (some b) es
  | some _, .reset :: es => portOrder (some false) es
  | _, _ :: _ => none

/-- The invariant of every run from reset: the sequencer's (R28), canonical memories, written bytes, and
the order of events, with a response owed exactly while the block is busy. -/
structure State.Inv (s : State) : Prop where
  sequenced : s.Sequenced
  written : s.Written
  canonical0 : s.buf0.wf = true
  canonical1 : s.buf1.wf = true
  ordered : portOrder (some false) s.trace = some s.busy

/-- `n` steps, stopping at a fault or refusal: `Host.Core.run` of the machine in the model's own types. -/
def run : Nat → State → Host.Outcome State Fault Refusal
  | 0, s => .next s
  | n + 1, s =>
    match step s with
    | .next t => run n t
    | .fault f => .fault f
    | .refused r => .refused r

/-- The inputs of the next `n` steps. -/
def State.comingInputs (s : State) : Nat → List PortIn
  | 0 => []
  | n + 1 => s.nextInput :: s.consume.comingInputs n

/-- No reset at the next `n` steps. -/
def State.noReset (s : State) (n : Nat) : Prop := ∀ p ∈ s.comingInputs n, p.rst = false

/-- `s` after `n` inputs have been used up, and nothing else. -/
def State.consumeN (s : State) : Nat → State
  | 0 => s
  | n + 1 => s.consume.consumeN n

/-- The word `w` is accepted at the next step (R94): no reset, not halted, IDLE, the sink has not failed,
and the host offers `w`. -/
structure State.Accepting (s : State) (w : CmdWord) : Prop where
  rst : s.nextInput.rst = false
  running : s.halted = false
  idle : s.phase = .idle
  sink : s.nextInput.sinkFail = false
  offered : s.nextInput.cmd = some w

/-- A micro-step of a command in progress in phase `ph` is due at the next step: no reset, not halted. -/
structure State.Working (s : State) (ph : Phase) : Prop where
  rst : s.nextInput.rst = false
  running : s.halted = false
  phase : s.phase = ph

/-- The block at rest, ready for a command (R94): idle and not halted, with both positions 0 as the
invariant R28 has them. -/
structure State.Resting (s : State) : Prop where
  idle : s.phase = .idle
  running : s.halted = false
  idx : s.idx = 0#10
  pos : s.pos = 0#13

/-- The sequencer's position (R26). -/
def State.At (s : State) (ph : Phase) (i : Index) (p : ScanPos) : Prop :=
  s.phase = ph ∧ s.idx = i ∧ s.pos = p

/-- The registers other than the sequencer's position are the same, and so is the number of resets. -/
structure State.SameFlags (s t : State) : Prop where
  cur : t.cur = s.cur
  seeded : t.seeded = s.seeded
  halted : t.halted = s.halted
  resets : t.resets = s.resets

/-- `t` has used up the next input of `s`, and no more. -/
def State.UsedInput (s t : State) : Prop :=
  t.inputs = s.consume.inputs ∧ t.freeTicks = s.consume.freeTicks

/-- What no observer at the ports can tell apart (R40, R41, R66): which buffer is current, the contents of
the next buffer where no phase has just written it, and every byte that nothing has written since reset. -/
structure State.ObsEq (s t : State) : Prop where
  seeded : t.seeded = s.seeded
  halted : t.halted = s.halted
  phase : t.phase = s.phase
  idx : t.idx = s.idx
  pos : t.pos = s.pos
  inputs : t.inputs = s.inputs
  freeTicks : t.freeTicks = s.freeTicks
  trace : t.trace = s.trace
  working : s.phase = .copy ∨ s.phase = .scan ∨ s.phase = .swap ∨ s.phase = .draw → s.seeded = true
  current : s.seeded = true → ∀ i : Index, t.bytes t.cur i = s.bytes s.cur i
  filled : s.phase = .fill → ∀ i : Index, i < s.idx → t.bytes t.cur i = s.bytes s.cur i
  copied : s.phase = .copy → ∀ i : Index, i < s.idx → t.bytes (!t.cur) i = s.bytes (!s.cur) i
  replaced : s.phase = .scan ∨ s.phase = .swap → ∀ i : Index, t.bytes (!t.cur) i = s.bytes (!s.cur) i

/-- The index of the k-th byte of a buffer in stream order (R55). -/
def nthIndex (k : Nat) : Index := BitVec.ofNat 10 k

/-- A grid as one frame: the 1024 (index, byte) pairs in the order in which DRAW sends them (R180). -/
def frameOf (B : Buffer) : List (Index × Byte) :=
  (List.range Config.bufSize).map (fun k => (nthIndex k, B (nthIndex k)))

/-- The grid that FILL loads from a list of source bytes: the k-th byte at index k (R55, R117). -/
def gridOf (bs : List Byte) : Buffer := fun i => bs.getD i.toNat 0#8

/-- The buffer whose live cells are exactly those listed. -/
def gridWithCells (cells : List (Col × Row)) : Buffer := fun i =>
  packByte (fun k => decide ((columnOf i, rowOf i k) ∈ cells))

/-- The grid moved by (dx, dy) on the torus (R140). -/
def shiftGrid (dx : Col) (dy : Row) (B : Buffer) : Buffer := fun i =>
  packByte (fun k => getCell B (columnOf i - dx) (rowOf i k - dy))

/-- `n` generations later (R163). -/
def generations (n : Nat) (B : Buffer) : Buffer := nextGen^[n] B

/-- The inputs of a FILL from offer to response, with a source that never waits. -/
def fillInputs (bs : List Byte) : List PortIn := offer (encode .fill) :: bs.map sourceByte

/-- The inputs of a DRAW from offer to response, with a sink that never waits. -/
def drawInputs : List PortIn := offer (encode .draw) :: List.replicate 1024 sinkReady

/-- The inputs of a STEP from offer to response (R162). -/
def stepInputs : List PortIn := offer (encode .step) :: List.replicate 9217 quiet

/-- The frames of a grid and of its first `n` next generations, in order. -/
def framesFrom (n : Nat) (B : Buffer) : List (Index × Byte) :=
  ((List.range (n + 1)).map (fun k => frameOf (generations k B))).flatten

end Sys2Proof.Machine
end

