-- ==== Sys2Proof/Certificates/Slice0/Obligations.lean ====
section
/-! DEFINITION. The statements about the model, for the provers. Each docstring names the rules of spec/
or the sections it rests on. Four kinds of clause are about the model's own fields and claim no rule:
`consume`, `comingInputs`, `inputs` and `freeTicks` (the inputs a step uses up, log entry 1), `trace` (the
record of the port events, log entry 3), `resets` (which unspecified bytes a buffer holds, log entry 4), and
that a step in which nothing is enabled changes nothing but the inputs (log entry 2). -/

open Sys2Proof Sys2Proof.Machine

/-! ### Encoding -/

/-- Command words written out from the opcode map decode to their commands, and reserved words to none
(spec/30_encoding.md section 4 and 5, spec/95_test_vectors.md VE). -/
def Obligations.WordsOfTheMapDecode : Prop :=
  decode 0b0000000000000000#16 = .ok .nop ∧
  decode 0b0010101000000101#16 = .ok (.get 5#7 20#6) ∧
  decode 0b0011111111111111#16 = .ok (.get 127#7 63#6) ∧
  decode 0b0101000011000000#16 = .ok (.tgl 64#7 33#6) ∧
  decode 0b0101111110000000#16 = .ok (.tgl 0#7 63#6) ∧
  decode 0b0110000000000000#16 = .ok .step ∧
  decode 0b1000000000000000#16 = .ok .fill ∧
  decode 0b1010000000000000#16 = .ok .draw ∧
  decode 0x0080#16 = .error (.operandBits 0#3) ∧
  decode 0x7FFF#16 = .error (.operandBits 3#3) ∧
  decode 0xA080#16 = .error (.operandBits 5#3) ∧
  decode 0xC000#16 = .error (.opcode 6#3) ∧
  decode 0xFFFF#16 = .error (.opcode 7#3)

/-- Decoding and encoding (R84), with the fields read as numbers: op = w[15:13], y = w[12:7],
x = w[6:0], low = w[12:0]. -/
def Obligations.DecodeFollowsTheFieldsAndInvertsEncode : Prop :=
  (∀ w : CmdWord,
    (w.toNat / 8192 = 0 → w.toNat % 8192 = 0 → decode w = .ok .nop) ∧
    (w.toNat / 8192 = 1 →
      decode w = .ok (.get (BitVec.ofNat 7 (w.toNat % 128)) (BitVec.ofNat 6 (w.toNat / 128 % 64)))) ∧
    (w.toNat / 8192 = 2 →
      decode w = .ok (.tgl (BitVec.ofNat 7 (w.toNat % 128)) (BitVec.ofNat 6 (w.toNat / 128 % 64)))) ∧
    (w.toNat / 8192 = 3 → w.toNat % 8192 = 0 → decode w = .ok .step) ∧
    (w.toNat / 8192 = 4 → w.toNat % 8192 = 0 → decode w = .ok .fill) ∧
    (w.toNat / 8192 = 5 → w.toNat % 8192 = 0 → decode w = .ok .draw) ∧
    (w.toNat / 8192 ∈ [0, 3, 4, 5] → w.toNat % 8192 ≠ 0 → ∃ r, decode w = .error r) ∧
    (w.toNat / 8192 = 6 ∨ w.toNat / 8192 = 7 → ∃ r, decode w = .error r)) ∧
  (encode .nop).toNat = 0x0000 ∧
  (∀ x y, (encode (.get x y)).toNat = 0x2000 + y.toNat * 128 + x.toNat) ∧
  (∀ x y, (encode (.tgl x y)).toNat = 0x4000 + y.toNat * 128 + x.toNat) ∧
  (encode .step).toNat = 0x6000 ∧
  (encode .fill).toNat = 0x8000 ∧
  (encode .draw).toNat = 0xA000 ∧
  (∀ i : Instr, decode (encode i) = .ok i) ∧
  Function.Injective encode

/-- No word but a command's own decodes to it: every legal word is the encoding of what it decodes to
(spec/30_encoding.md section 4). -/
def Obligations.EncodeInvertsDecode : Prop :=
  ∀ (w : CmdWord) (i : Instr), decode w = .ok i → encode i = w

/-- An assembler gives the text of every command its word, and rejects exactly the coordinates that have
no encoding (spec/30_encoding.md section 9). -/
def Obligations.AssemblerGivesEachCommandItsWord : Prop :=
  (∀ i : Instr, assembleLine (asmText i) = .ok (some (encode i))) ∧
  (∀ x y : Nat,
    (x ≤ 127 ∧ y ≤ 63 →
      assembleCmd (.get x y) = some (.get (BitVec.ofNat 7 x) (BitVec.ofNat 6 y)) ∧
      assembleCmd (.tgl x y) = some (.tgl (BitVec.ofNat 7 x) (BitVec.ofNat 6 y))) ∧
    (127 < x ∨ 63 < y → assembleCmd (.get x y) = none ∧ assembleCmd (.tgl x y) = none))

/-! ### Layout and the pure functions of the stepper -/

/-- Where a cell lies, and which cell a bit is (R50, R51). -/
def Obligations.CellLayoutIsABijection : Prop :=
  (∀ (x : Col) (y : Row),
    (cellIndex x y).toNat = x.toNat + y.toNat / 8 * 128 ∧
    (cellBit y).toNat = y.toNat % 8 ∧
    cellIndex x y = y.extractLsb' 3 3 ++ x.extractLsb' 0 7 ∧
    cellBit y = y.extractLsb' 0 3 ∧
    (cellIndex x y).toNat ≤ 1023) ∧
  cellIndex 127#7 63#6 = 1023#10 ∧
  Function.Bijective (fun c : Col × Row => (cellIndex c.1 c.2, cellBit c.2)) ∧
  (∀ (i : Index) (k : BitPos),
    cellIndex (columnOf i) (rowOf i k) = i ∧ cellBit (rowOf i k) = k ∧
    (columnOf i).toNat = i.toNat % 128 ∧ (rowOf i k).toNat = i.toNat / 128 * 8 + k.toNat) ∧
  (∀ (B : Buffer) (x : Col) (y : Row), getCell B x y = (B (cellIndex x y)).getLsbD (y.toNat % 8))

/-- `get` and `toggle` on a buffer, with the laws of toggling (R52, R53). -/
def Obligations.GetAndToggleOfABuffer : Prop :=
  ∀ (B : Buffer) (x x' : Col) (y y' : Row),
    (B (cellIndex x y) >>> (y.toNat % 8)) &&& 1#8 = (BitVec.ofBool (getCell B x y)).setWidth 8 ∧
    toggleCell B x y (cellIndex x y) = B (cellIndex x y) ^^^ (1#8 <<< (y.toNat % 8)) ∧
    (∀ j : Index, j ≠ cellIndex x y → toggleCell B x y j = B j) ∧
    getCell (toggleCell B x y) x y = !(getCell B x y) ∧
    ((x', y') ≠ (x, y) → getCell (toggleCell B x y) x' y' = getCell B x' y') ∧
    toggleCell (toggleCell B x y) x y = B ∧
    toggleCell (toggleCell B x y) x' y' = toggleCell (toggleCell B x' y') x y

/-- The four neighbour coordinates on the torus (R141). -/
def Obligations.NeighbourCoordinatesWrap : Prop :=
  (∀ x : Col,
    (left x).toNat = (x.toNat + 127) % 128 ∧ (right x).toNat = (x.toNat + 1) % 128 ∧
    (x ≠ 0#7 → (left x).toNat = x.toNat - 1) ∧ (x ≠ 127#7 → (right x).toNat = x.toNat + 1) ∧
    left x = x - 1#7 ∧ right x = x + 1#7) ∧
  (∀ y : Row,
    (up y).toNat = (y.toNat + 63) % 64 ∧ (down y).toNat = (y.toNat + 1) % 64 ∧
    (y ≠ 0#6 → (up y).toNat = y.toNat - 1) ∧ (y ≠ 63#6 → (down y).toNat = y.toNat + 1) ∧
    up y = y - 1#6 ∧ down y = y + 1#6) ∧
  left 0#7 = 127#7 ∧ right 127#7 = 0#7 ∧ up 0#6 = 63#6 ∧ down 63#6 = 0#6

/-- The eight neighbours are the combinations of three columns and three rows less the cell itself, in the
numbering of R142, pairwise distinct and none the cell itself (R142, R143). -/
def Obligations.NeighboursAreEightDistinctCells : Prop :=
  ∀ (x : Col) (y : Row),
    neighbours x y =
      [(left x, up y), (x, up y), (right x, up y), (left x, y), (right x, y),
       (left x, down y), (x, down y), (right x, down y)] ∧
    (neighbours x y).Nodup ∧ (x, y) ∉ neighbours x y ∧
    (∀ a b, (a, b) ∈ neighbours x y ↔
      a ∈ [left x, x, right x] ∧ b ∈ [up y, y, down y] ∧ (a, b) ≠ (x, y))

/-- The live-neighbour count: a sum of eight bits that cannot overflow, in which the cell itself has no
part (R145). -/
def Obligations.LiveCountSumsTheEightNeighbours : Prop :=
  ∀ (B : Buffer) (x : Col) (y : Row),
    (liveCount B x y).toNat =
      (getCell B (left x) (up y)).toNat + (getCell B x (up y)).toNat + (getCell B (right x) (up y)).toNat
      + (getCell B (left x) y).toNat + (getCell B (right x) y).toNat
      + (getCell B (left x) (down y)).toNat + (getCell B x (down y)).toNat
      + (getCell B (right x) (down y)).toNat ∧
    (liveCount B x y).toNat = ((neighbours x y).filter (fun c => getCell B c.1 c.2)).length ∧
    (liveCount B x y).toNat ≤ 8 ∧
    liveCount (toggleCell B x y) x y = liveCount B x y

/-- Neighbourhood is symmetric, across the corners too (R146). -/
def Obligations.NeighbourhoodIsSymmetric : Prop :=
  (∀ (x a : Col) (y b : Row), (a, b) ∈ neighbours x y ↔ (x, y) ∈ neighbours a b) ∧
  (0#7, 0#6) ∈ neighbours 127#7 0#6 ∧
  (0#7, 0#6) ∈ neighbours 0#7 63#6 ∧
  (0#7, 0#6) ∈ neighbours 127#7 63#6

/-- The rule, its table of 18 cases, and the change bit (R147, R148, R149). For counts 9 to 15, which never
occur, the same comparisons are the model's choice (log entry 18). -/
def Obligations.RuleAgreesWithItsTable : Prop :=
  (∀ (cell : Bool) (cnt : Count),
    (cell = true → cnt.toNat < 2 ∨ cnt.toNat > 3 → lifeRule cell cnt = false) ∧
    (cell = false → cnt.toNat = 3 → lifeRule cell cnt = true) ∧
    (cell = true → cnt.toNat = 2 ∨ cnt.toNat = 3 → lifeRule cell cnt = true) ∧
    (cell = false → cnt.toNat ≠ 3 → lifeRule cell cnt = false) ∧
    (lifeRule cell cnt = true ↔ cnt.toNat = 3 ∨ (cell = true ∧ cnt.toNat = 2)) ∧
    lifeChg cell cnt = (cell ^^ lifeRule cell cnt) ∧
    (lifeChg cell cnt = true ↔
      (cell = false ∧ cnt.toNat = 3) ∨ (cell = true ∧ cnt.toNat ≠ 2 ∧ cnt.toNat ≠ 3))) ∧
  (List.range 9).map (fun n => lifeRule false (BitVec.ofNat 4 n)) =
    [false, false, false, true, false, false, false, false, false] ∧
  (List.range 9).map (fun n => lifeChg false (BitVec.ofNat 4 n)) =
    [false, false, false, true, false, false, false, false, false] ∧
  (List.range 9).map (fun n => lifeRule true (BitVec.ofNat 4 n)) =
    [false, false, true, true, false, false, false, false, false] ∧
  (List.range 9).map (fun n => lifeChg true (BitVec.ofNat 4 n)) =
    [true, true, false, false, true, true, true, true, true]

/-- The next generation, cell by cell from the old grid only, and determined by its cells (R150). -/
def Obligations.NextGenIsTheRuleAtEveryCell : Prop :=
  ∀ B : Buffer,
    (∀ x y, getCell (nextGen B) x y = lifeRule (getCell B x y) (liveCount B x y)) ∧
    (∀ N : Buffer, (∀ x y, getCell N x y = lifeRule (getCell B x y) (liveCount B x y)) → N = nextGen B)

/-- Copy, then toggle each changed cell once, in any order of the cells (R151). -/
def Obligations.CopyThenToggleInAnyOrderIsNextGen : Prop :=
  ∀ (B : Buffer) (order : List (Col × Row)), order.Nodup → (∀ c, c ∈ order) →
    order.foldl
      (fun N c => if lifeChg (getCell B c.1 c.2) (liveCount B c.1 c.2) then toggleCell N c.1 c.2 else N) B
      = nextGen B

/-- The torus has no preferred cell: a generation commutes with every translation of the grid
(spec/41_stepper.md sections 1 and 4). -/
def Obligations.NextGenCommutesWithTranslation : Prop :=
  ∀ (dx : Col) (dy : Row) (B : Buffer), nextGen (shiftGrid dx dy B) = shiftGrid dx dy (nextGen B)

/-- The properties the source states: still life, oscillator, empty grid, wrap-around (R166), wherever on
the torus the pattern lies. -/
def Obligations.SourcePatternsBehaveAsStated : Prop :=
  (∀ (x : Col) (y : Row),
    nextGen (gridWithCells [(x, y), (right x, y), (x, down y), (right x, down y)])
      = gridWithCells [(x, y), (right x, y), (x, down y), (right x, down y)]) ∧
  (∀ (x : Col) (y : Row),
    nextGen (gridWithCells [(left x, y), (x, y), (right x, y)])
      = gridWithCells [(x, up y), (x, y), (x, down y)] ∧
    nextGen (gridWithCells [(x, up y), (x, y), (x, down y)])
      = gridWithCells [(left x, y), (x, y), (right x, y)]) ∧
  (∀ n : Nat, generations n (gridWithCells []) = gridWithCells []) ∧
  (∀ (x : Col) (y : Row),
    liveCount (gridWithCells []) x y = 0#4 ∧
    liveCount (gridWithCells [(0#7, 0#6)]) x y =
      if (x, y) ∈ [(127#7, 0#6), (0#7, 63#6), (127#7, 63#6), (1#7, 0#6), (0#7, 1#6), (1#7, 1#6),
                   (127#7, 1#6), (1#7, 63#6)]
      then 1#4 else 0#4)

/-! ### The step runs the decoded command -/

/-- A step in which a legal word is accepted is the meaning of the command it decodes to, at the state
that has used up the step's input and recorded the acceptance (spec/30_encoding.md sections 4 and 8). The
record of the acceptance is the model's (log entry 3). -/
def Obligations.StepRunsTheDecodedCommand : Prop :=
  ∀ (s : State) (w : CmdWord) (i : Instr), s.Accepting w → decode w = .ok i →
    step s = exec i { s.consume with trace := s.trace ++ [.accepted w] }

/-- NOP does nothing but answer OK, whatever `SEEDED` is, in one micro-step (R186). -/
def Obligations.NopAnswersOkAndChangesNothing : Prop :=
  encode .nop = 0x0000#16 ∧
  (∀ s : State, exec .nop s = .next { s with trace := s.trace ++ [.response 0x0#4] }) ∧
  (∀ s : State, s.Accepting 0x0000#16 →
    step s = .next { s.consume with trace := s.trace ++ [.accepted 0x0000#16, .response 0x0#4] })

/-- GET answers the cell of the current grid in `q` and changes nothing (R113). -/
def Obligations.GetAnswersTheCellOfTheCurrentGrid : Prop :=
  ∀ (s : State) (x : Col) (y : Row), s.seeded = true →
    exec (.get x y) s = .next { s with
      trace := s.trace ++ [.response (if getCell (s.bytes s.cur) x y then 0x1#4 else 0x0#4)] }

/-- TGL toggles its cell in the current buffer, leaves every other byte of both buffers and every register
alone, and answers OK with q = 0 (spec/40_bitgrid_ops.md section 3). -/
def Obligations.TglTogglesItsCellOnly : Prop :=
  ∀ (s : State) (x : Col) (y : Row), s.seeded = true →
    ∃ t, exec (.tgl x y) s = .next t ∧
      t.bytes s.cur = toggleCell (s.bytes s.cur) x y ∧
      t.bytes (!s.cur) = s.bytes (!s.cur) ∧
      (∀ (b : Bool) (i : Index), ¬ (b = s.cur ∧ i = cellIndex x y) → t.memRead b i = s.memRead b i) ∧
      (∀ (x' : Col) (y' : Row), getCell (t.bytes t.cur) x' y' =
        if x' = x ∧ y' = y then !(getCell (s.bytes s.cur) x y) else getCell (s.bytes s.cur) x' y') ∧
      s.SameFlags t ∧ t.At s.phase s.idx s.pos ∧ t.inputs = s.inputs ∧ t.freeTicks = s.freeTicks ∧
      t.trace = s.trace ++ [.response 0x0#4]

/-- The packing round trip: toggle, read back, toggle, read back (R116). -/
def Obligations.TogglingAndReadingBackRoundTrips : Prop :=
  ∀ (s : State) (x : Col) (y : Row) (b : Bool), s.seeded = true → getCell (s.bytes s.cur) x y = !b →
    ∃ t u v w, exec (.tgl x y) s = .next t ∧
      exec (.get x y) t = .next u ∧ u.trace = t.trace ++ [.response (if b then 0x1#4 else 0x0#4)] ∧
      exec (.tgl x y) u = .next v ∧ v.bytes v.cur = s.bytes s.cur ∧
      exec (.get x y) v = .next w ∧ w.trace = v.trace ++ [.response (if b then 0x0#4 else 0x1#4)]

/-- The host's macros SET and CLR leave their cell alive or dead and every other cell as it was
(spec/30_encoding.md section 9, spec/40_bitgrid_ops.md section 3). -/
def Obligations.SetAndClrMakeTheCellAsWanted : Prop :=
  ∀ (s : State) (x : Col) (y : Row), s.Resting → s.seeded = true →
    (∃ t, hostSteps (expandMacro (.set x y)) s = .next t ∧ getCell (t.bytes t.cur) x y = true ∧
      ∀ x' y', (x', y') ≠ (x, y) → getCell (t.bytes t.cur) x' y' = getCell (s.bytes s.cur) x' y') ∧
    (∃ t, hostSteps (expandMacro (.clr x y)) s = .next t ∧ getCell (t.bytes t.cur) x y = false ∧
      ∀ x' y', (x', y') ≠ (x, y) → getCell (t.bytes t.cur) x' y' = getCell (s.bytes s.cur) x' y')

/-- UNSEEDED: GET, TGL, STEP and DRAW are answered code 2 with no effect while `SEEDED = 0`; NOP and FILL
never are; once `SEEDED` is 1 it stays 1 until a reset (R205). -/
def Obligations.UnseededCommandsAreAnsweredUnseeded : Prop :=
  (∀ (s : State) (i : Instr), s.seeded = false → i ≠ .nop → i ≠ .fill →
    exec i s = .next { s with trace := s.trace ++ [.response 0x4#4] }) ∧
  (∀ (s : State) (w : CmdWord) (i : Instr), s.Accepting w → decode w = .ok i → s.seeded = false →
    i ≠ .nop → i ≠ .fill →
    step s = .next { s.consume with trace := s.trace ++ [.accepted w, .response 0x4#4] }) ∧
  (∀ (s t : State) (w : CmdWord) (i : Instr), s.Accepting w → decode w = .ok i →
    i = .nop ∨ i = .fill → step s = .next t → Event.response 0x4#4 ∉ t.trace.drop s.trace.length) ∧
  (∀ s t : State, s.seeded = true → s.nextInput.rst = false → step s = .next t →
    t.seeded = true ∧ Event.response 0x4#4 ∉ t.trace.drop s.trace.length)

/-- ILLEGAL: a reserved word that is accepted is answered code 1 and has no other effect, whatever
`SEEDED` is (R204). -/
def Obligations.ReservedWordsAreAnsweredIllegal : Prop :=
  ∀ (s : State) (w : CmdWord) (r : Reserved), decode w = .error r → s.Accepting w →
    step s = .next { s.consume with trace := s.trace ++ [.accepted w, .response 0x2#4] }

/-! ### FILL -/

/-- FILL, acceptance micro-step: only the phase changes; from the next step on `rnd_ready = 1` (R118). -/
def Obligations.FillAcceptanceEntersPhaseFill : Prop :=
  ∀ s : State,
    exec .fill s = .next { s with phase := .fill } ∧
    (s.Sequenced → s.phase = .idle → s.idx = 0#10) ∧
    (∀ p : PortIn, p.rst = false → State.rndReady { s with phase := .fill } p = true)

/-- FILL, byte micro-step: the byte offered lands at `IDX` of the current buffer, no other byte changes,
and the last one sets `SEEDED` and answers OK; with no byte offered nothing changes; `sink_fail` is not
looked at (R119). -/
def Obligations.FillByteLandsAtTheIndex : Prop :=
  ∀ s : State, s.Working .fill →
    (s.nextInput.rnd = none → step s = .next s.consume) ∧
    (∀ v : Byte, s.nextInput.rnd = some v →
      ∃ t, step s = .next t ∧
        (∀ (b : Bool) (i : Index),
          t.memRead b i = if b = s.cur ∧ i = s.idx then v else s.memRead b i) ∧
        t.cur = s.cur ∧ t.halted = s.halted ∧ t.resets = s.resets ∧ s.UsedInput t ∧
        (s.idx.toNat < 1023 → t.At .fill (s.idx + 1#10) s.pos ∧ t.seeded = s.seeded ∧
          t.trace = s.trace ++ [.taken v]) ∧
        (s.idx.toNat = 1023 → t.At .idle 0#10 s.pos ∧ t.seeded = true ∧
          t.trace = s.trace ++ [.taken v, .response 0x0#4]))

/-- FILL as a whole, however long the source waits between its bytes: the k-th of the 1024 bytes taken
lands at index k of the current buffer, the next buffer is not touched, `SEEDED` is 1, and the one response
is OK (spec/40_bitgrid_ops.md section 4, spec/20_memory.md section 2). -/
def Obligations.FillLoadsTheBytesOfTheSource : Prop :=
  ∀ s : State, s.Resting →
    ∃ t, exec .fill s = .next t ∧
      ∀ n : Nat, t.noReset n →
        ((t.comingInputs n).filterMap (·.rnd)).length = 1024 →
        ((t.comingInputs n).getLast?.bind (·.rnd)).isSome →
        ∃ u : State, run n t = .next u ∧
          u.bytes s.cur = gridOf ((t.comingInputs n).filterMap (·.rnd)) ∧
          u.bytes (!s.cur) = s.bytes (!s.cur) ∧
          u.cur = s.cur ∧ u.seeded = true ∧ u.Resting ∧ u.resets = s.resets ∧
          takenOf u.trace = takenOf s.trace ++ (t.comingInputs n).filterMap (·.rnd) ∧
          responsesOf u.trace = responsesOf s.trace ++ [0x0#4]

/-! ### STEP -/

/-- STEP, acceptance micro-step: with `SEEDED = 0` it is answered UNSEEDED and nothing else changes; else
the phase becomes COPY, with `IDX = 0` already and no response yet (R156). -/
def Obligations.StepAcceptanceEntersPhaseCopy : Prop :=
  ∀ s : State,
    (s.seeded = false → exec .step s = .next { s with trace := s.trace ++ [.response 0x4#4] }) ∧
    (s.seeded = true → exec .step s = .next { s with phase := .copy }) ∧
    (s.Sequenced → s.phase = .idle → s.idx = 0#10)

/-- COPY: each micro-step copies the byte at `IDX` from the current to the next buffer; after the 1024 of
them the next buffer equals the current one byte for byte; the order does not matter (R157). -/
def Obligations.CopyPhaseCopiesTheGrid : Prop :=
  (∀ s : State, s.Working .copy →
    ∃ t, step s = .next t ∧
      (∀ (b : Bool) (i : Index),
        t.memRead b i = if b = !s.cur ∧ i = s.idx then s.memRead s.cur s.idx else s.memRead b i) ∧
      s.SameFlags t ∧ s.UsedInput t ∧ t.trace = s.trace ∧
      (s.idx.toNat < 1023 → t.At .copy (s.idx + 1#10) s.pos) ∧
      (s.idx.toNat = 1023 → t.At .scan 0#10 s.pos)) ∧
  (∀ s : State, s.phase = .copy → s.idx = 0#10 → s.halted = false → s.noReset 1024 →
    ∃ u : State, run 1024 s = .next u ∧ u.At .scan 0#10 s.pos ∧ s.SameFlags u ∧
      u.bytes (!s.cur) = s.bytes s.cur ∧ u.bytes s.cur = s.bytes s.cur ∧ u.trace = s.trace) ∧
  (∀ (s : State) (c : Bool) (order : List Index), (∀ i, i ∈ order) →
    (order.foldl (fun t i => t.memWrite (!c) i (t.memRead c i)) s).bytes (!c) = s.bytes c)

/-- SCAN, micro-step: one cell of the current grid is evaluated; if it changes, its bit is toggled in the
next buffer; nothing else is written; the position moves in raster order (R158). -/
def Obligations.ScanEvaluatesOneCell : Prop :=
  ∀ s : State, s.Working .scan →
    ∀ (x : Col) (y : Row), x = BitVec.ofNat 7 (s.pos.toNat % 128) → y = BitVec.ofNat 6 (s.pos.toNat / 128) →
    ∃ t, step s = .next t ∧
      t.bytes s.cur = s.bytes s.cur ∧
      t.bytes (!s.cur) =
        (if lifeRule (getCell (s.bytes s.cur) x y) (liveCount (s.bytes s.cur) x y)
              ≠ getCell (s.bytes s.cur) x y
         then toggleCell (s.bytes (!s.cur)) x y else s.bytes (!s.cur)) ∧
      s.SameFlags t ∧ s.UsedInput t ∧ t.trace = s.trace ∧
      (s.pos.toNat < 8191 → t.At .scan s.idx (s.pos + 1#13)) ∧
      (s.pos.toNat = 8191 → t.At .swap s.idx 0#13)

/-- SWAP, micro-step: `CUR` is complemented, no byte moves, and the STEP is answered OK (R160). -/
def Obligations.SwapHandsTheNextGridOver : Prop :=
  ∀ s : State, s.Working .swap →
    step s = .next { s.consume with cur := !s.cur, phase := .idle,
                                    trace := s.trace ++ [.response 0x0#4] }

/-- STEP as a whole: with the acceptance it takes exactly 9218 micro-steps whatever the environment does
short of a reset, gives its one response in the last of them, and leaves the next generation in the current
buffer and the old grid in the other one (R162; the effect is spec/41_stepper.md section 6). -/
def Obligations.StepComputesTheNextGeneration : Prop :=
  ∀ s : State, s.Resting → s.seeded = true →
    ∃ t, exec .step s = .next t ∧
      (∀ k < 9217, t.noReset k →
        ∃ v : State, run k t = .next v ∧ v.busy = true ∧ v.trace = s.trace) ∧
      (t.noReset 9217 →
        ∃ u : State, run 9217 t = .next u ∧
          u.bytes (!s.cur) = nextGen (s.bytes s.cur) ∧ u.bytes s.cur = s.bytes s.cur ∧
          u.cur = !s.cur ∧ u.seeded = true ∧ u.Resting ∧ u.resets = s.resets ∧
          u.trace = s.trace ++ [.response 0x0#4])

/-- Any number of STEPs may follow one another: after k of them the current grid is `NextGen` applied k
times and `CUR` has flipped k times (R163). -/
def Obligations.RepeatedStepsIterateNextGen : Prop :=
  ∀ (s : State) (k : Nat) (rest : List PortIn), s.Resting → s.seeded = true →
    s.inputs = (List.replicate k stepInputs).flatten ++ rest →
    ∃ u : State, run (k * 9218) s = .next u ∧
      u.bytes u.cur = nextGen^[k] (s.bytes s.cur) ∧
      u.cur = (if k % 2 = 0 then s.cur else !s.cur) ∧
      u.seeded = true ∧ u.Resting ∧ u.inputs = rest

/-! ### DRAW -/

/-- DRAW, acceptance micro-step: with `SEEDED = 0` it is answered UNSEEDED and nothing else changes; else
the phase becomes DRAW, with `IDX = 0` already, no response and no byte yet, and from the next step on the
port offers the byte at `IDX` (R181). -/
def Obligations.DrawAcceptanceEntersPhaseDraw : Prop :=
  ∀ s : State,
    (s.seeded = false → exec .draw s = .next { s with trace := s.trace ++ [.response 0x4#4] }) ∧
    (s.seeded = true → exec .draw s = .next { s with phase := .draw }) ∧
    (s.Sequenced → s.phase = .idle → s.idx = 0#10) ∧
    (∀ p : PortIn, p.rst = false →
      State.pixValid { s with phase := .draw } p = true ∧
      State.pixPort { s with phase := .draw } p = some (s.idx, s.memRead s.cur s.idx))

/-- DRAW, byte micro-step: a failed sink halts the block and wins over the transfer; else the byte at
`IDX` is sent if the sink takes it; else nothing changes. A failure seen at `IDX = k` has sent exactly the
bytes of indices 0..k-1 (R182). -/
def Obligations.DrawSendsTheByteAtTheIndex : Prop :=
  (∀ s : State, s.Working .draw →
    (s.nextInput.sinkFail = true →
      step s = .next { s.consume with idx := 0#10, phase := .idle, halted := true,
                                      trace := s.trace ++ [.sinkFailed, .response 0x6#4] }) ∧
    (s.nextInput.sinkFail = false → s.nextInput.pixReady = true → s.idx.toNat < 1023 →
      step s = .next { s.consume with idx := s.idx + 1#10,
                                      trace := s.trace ++ [.sent s.idx (s.memRead s.cur s.idx)] }) ∧
    (s.nextInput.sinkFail = false → s.nextInput.pixReady = true → s.idx.toNat = 1023 →
      step s = .next { s.consume with idx := 0#10, phase := .idle,
                                      trace := s.trace ++ [.sent s.idx (s.memRead s.cur s.idx),
                                                           .response 0x0#4] }) ∧
    (s.nextInput.sinkFail = false → s.nextInput.pixReady = false → step s = .next s.consume)) ∧
  (∀ (s : State) (n k : Nat), s.phase = .draw → s.halted = false → s.idx = 0#10 → s.noReset (n + 1) →
    (∀ p ∈ s.comingInputs n, p.sinkFail = false) →
    ((s.comingInputs n).filter (·.pixReady)).length = k → k < 1024 →
    ((s.comingInputs (n + 1)).getLast?.map (·.sinkFail)) = some true →
    ∃ u : State, run (n + 1) s = .next u ∧ u.halted = true ∧
      sentOf u.trace = sentOf s.trace ++ (frameOf (s.bytes s.cur)).take k)

/-- DRAW as a whole, however long the sink waits between its bytes: the 1024 bytes of the current buffer
are sent in index order with their indices, no buffer and no flag changes, and the one response is OK
(spec/42_render_and_control.md section 1). -/
def Obligations.DrawSendsTheWholeFrame : Prop :=
  ∀ s : State, s.Resting → s.seeded = true →
    ∃ t, exec .draw s = .next t ∧
      ∀ n : Nat, t.noReset n → (∀ p ∈ t.comingInputs n, p.sinkFail = false) →
        ((t.comingInputs n).filter (·.pixReady)).length = 1024 →
        ((t.comingInputs n).getLast?.map (·.pixReady)) = some true →
        ∃ u : State, run n t = .next u ∧
          sentOf u.trace = sentOf s.trace ++ frameOf (s.bytes s.cur) ∧
          responsesOf u.trace = responsesOf s.trace ++ [0x0#4] ∧
          (∀ b, u.bytes b = s.bytes b) ∧ s.SameFlags u ∧ u.Resting

/-- The source's loop: seed, render, then step and render n times; the frames sent are the grid that FILL
loaded and its next n generations, in order (spec/42_render_and_control.md section 3). -/
def Obligations.LoopSendsSuccessiveGenerations : Prop :=
  ∀ (s : State) (bs : List Byte) (n : Nat) (rest : List PortIn), s.Resting → bs.length = 1024 →
    s.inputs = fillInputs bs ++ drawInputs ++ (List.replicate n (stepInputs ++ drawInputs)).flatten ++ rest →
    ∃ u : State, run (2050 + n * 10243) s = .next u ∧
      sentOf u.trace = sentOf s.trace ++ framesFrom n (gridOf bs) ∧
      u.bytes u.cur = generations n (gridOf bs) ∧ u.Resting ∧ u.inputs = rest

/-! ### Waiting, halting, reset -/

/-- With no command offered and no sink failure the idle block does nothing, for as long as that lasts
(R95). -/
def Obligations.IdleWithoutACommandChangesNothing : Prop :=
  ∀ (s : State) (n : Nat), s.phase = .idle → s.halted = false → s.noReset n →
    (∀ p ∈ s.comingInputs n, p.sinkFail = false ∧ p.cmd = none) →
    run n s = .next (s.consumeN n)

/-- FILL and DRAW wait for ever on a far side that is never ready (spec/70_reset_and_hazards.md
section 3). -/
def Obligations.SilentSourceOrSinkIsAWait : Prop :=
  ∀ (s : State) (n : Nat), s.halted = false → s.noReset n →
    (s.phase = .fill → (∀ p ∈ s.comingInputs n, p.rnd = none) → run n s = .next (s.consumeN n)) ∧
    (s.phase = .draw → (∀ p ∈ s.comingInputs n, p.sinkFail = false ∧ p.pixReady = false) →
      run n s = .next (s.consumeN n))

/-- The halt entry: from IDLE it sets `HALTED` and gives no response, from DRAW it also ends the command
and answers code 3; everything else keeps its value, and the ports fall silent (R212). -/
def Obligations.SinkFailureHaltsTheBlock : Prop :=
  ∀ s : State, s.halted = false → s.nextInput.rst = false → s.nextInput.sinkFail = true →
    (s.phase = .idle →
      step s = .next { s.consume with halted := true, trace := s.trace ++ [.sinkFailed] }) ∧
    (s.phase = .draw →
      step s = .next { s.consume with idx := 0#10, phase := .idle, halted := true,
                                      trace := s.trace ++ [.sinkFailed, .response 0x6#4] }) ∧
    (s.phase = .idle ∨ s.phase = .draw → ∃ t, step s = .next t ∧
      t.status = 0b100#3 ||| (if s.seeded then 0b010#3 else 0b000#3) ∧
      (∀ b, t.bytes b = s.bytes b) ∧
      ∀ p : PortIn, t.cmdReady p = false ∧ t.rndReady p = false ∧ t.pixValid p = false)

/-- The halted state: without a reset nothing ever changes, whatever is offered and whatever `sink_fail`
does, and every port stays silent (R217). -/
def Obligations.HaltedBlockStaysAsItIs : Prop :=
  ∀ (s : State) (n : Nat), s.Sequenced → s.halted = true → s.noReset n →
    run n s = .next (s.consumeN n) ∧ (s.consumeN n).trace = s.trace ∧
    s.status.getLsbD 2 = true ∧
    ∀ p : PortIn, s.cmdReady p = false ∧ s.rndReady p = false ∧ s.pixValid p = false

/-- The order of the checks (R214): reset, halted, sink failure, ILLEGAL, UNSEEDED, execution. -/
def Obligations.ChecksAreTakenInOrder : Prop :=
  ∀ s : State,
    (s.nextInput.rst = true →
      ∃ t, step s = .next t ∧ t.At .idle 0#10 0#13 ∧ t.halted = false ∧ t.seeded = false ∧
        t.trace = s.trace ++ [.reset]) ∧
    (s.nextInput.rst = false → s.halted = true → step s = .next s.consume) ∧
    (s.nextInput.rst = false → s.halted = false → s.nextInput.sinkFail = true →
      s.phase = .idle ∨ s.phase = .draw →
      ∃ t, step s = .next t ∧ t.halted = true ∧ acceptedOf t.trace = acceptedOf s.trace ∧
        sentOf t.trace = sentOf s.trace ∧
        (s.phase = .idle → responsesOf t.trace = responsesOf s.trace)) ∧
    (∀ (w : CmdWord) (r : Reserved), s.Accepting w → decode w = .error r →
      step s = .next { s.consume with trace := s.trace ++ [.accepted w, .response 0x2#4] }) ∧
    (∀ (w : CmdWord) (i : Instr), s.Accepting w → decode w = .ok i → i ≠ .nop → i ≠ .fill →
      s.seeded = false →
      step s = .next { s.consume with trace := s.trace ++ [.accepted w, .response 0x4#4] }) ∧
    (∀ (w : CmdWord) (i : Instr), s.Accepting w → decode w = .ok i →
      i = .nop ∨ i = .fill ∨ s.seeded = true →
      step s = exec i { s.consume with trace := s.trace ++ [.accepted w] } ∧
      ∃ t, step s = .next t ∧ Event.response 0x2#4 ∉ t.trace.drop s.trace.length ∧
        Event.response 0x4#4 ∉ t.trace.drop s.trace.length)

/-- `sink_fail` is looked at in IDLE and at a DRAW byte micro-step of a block that is not halted, and
nowhere else (R211). -/
def Obligations.SinkFailIsSampledOnlyInIdleAndDraw : Prop :=
  (∀ (s : State) (p : PortIn) (b : Bool),
    s.halted = true ∨ s.phase = .fill ∨ s.phase = .copy ∨ s.phase = .scan ∨ s.phase = .swap →
    clock { p with sinkFail := b } s = clock p s) ∧
  (∀ (s : State) (p : PortIn), p.rst = false → p.sinkFail = true → s.halted = false →
    s.phase = .idle ∨ s.phase = .draw → ∃ t, clock p s = .next t ∧ t.halted = true)

/-- The state after reset, at the start of a run and after any step with `rst = 1`, in whatever state it
falls: registers 0, no byte of a buffer written, nothing owed (R241). -/
def Obligations.ResetGivesTheResetState : Prop :=
  (State.reset.cur = false ∧ State.reset.seeded = false ∧ State.reset.halted = false ∧
    State.reset.At .idle 0#10 0#13 ∧ State.reset.status = 0b000#3 ∧
    ∀ b i, State.reset.isWritten b i = false) ∧
  (∀ s : State, s.nextInput.rst = true →
    ∃ t, step s = .next t ∧ t.cur = false ∧ t.seeded = false ∧ t.halted = false ∧
      t.At .idle 0#10 0#13 ∧ t.status = 0b000#3 ∧ (∀ b i, t.isWritten b i = false) ∧
      t.trace = s.trace ++ [.reset]) ∧
  (∀ (s : State) (p : PortIn), p.rst = true →
    s.cmdReady p = false ∧ s.rndReady p = false ∧ s.pixValid p = false)

/-! ### Invariants and whole-machine rules -/

/-- The sequencer invariant holds after reset and after every micro-step (R28). -/
def Obligations.SequencerInvariantHolds : Prop :=
  State.reset.Sequenced ∧
  ∀ s t : State, s.Sequenced → step s = .next t → t.Sequenced

/-- The machine's invariant holds at reset (spec/10_state.md sections 3 to 8). -/
def Obligations.InvariantHoldsAtReset : Prop := State.reset.Inv

/-- Every step keeps the machine's invariant: the sequencer's positions, canonical memories, every byte a
command may read written since reset, and one response for each accepted word in order
(spec/10_state.md sections 3, 4 and 8, spec/30_encoding.md sections 7 and 8). -/
def Obligations.EveryStepKeepsTheInvariant : Prop :=
  ∀ s t : State, s.Inv → step s = .next t → t.Inv

/-- Every step, in every state and with every input, answers a next state: the core has no failure modes
(spec/60_exceptions.md section 1). -/
def Obligations.EveryStepAnswersANextState : Prop :=
  ∀ s : State, (∃ t, step s = .next t) ∧ ∀ i : Instr, ∃ t, exec i s = .next t

/-- All transitions of the sequencer's position (R29). -/
def Obligations.SequencerTransitionsAreTheTable : Prop :=
  (∀ s t : State, s.Sequenced → s.nextInput.rst = false → step s = .next t →
    (s.halted = true → t.At s.phase s.idx s.pos ∧ t.halted = true) ∧
    (s.halted = false → s.phase = .idle → s.nextInput.sinkFail = true →
      t.At .idle 0#10 0#13 ∧ t.halted = true) ∧
    (s.halted = false → s.phase = .idle → s.nextInput.sinkFail = false → s.nextInput.cmd = none →
      t.At .idle 0#10 0#13 ∧ t.halted = false) ∧
    (∀ w, s.Accepting w → decode w = .ok .fill → t.At .fill 0#10 0#13) ∧
    (∀ w, s.Accepting w → decode w = .ok .step → s.seeded = true → t.At .copy 0#10 0#13) ∧
    (∀ w, s.Accepting w → decode w = .ok .draw → s.seeded = true → t.At .draw 0#10 0#13) ∧
    (∀ w, s.Accepting w → decode w ≠ .ok .fill → (s.seeded = true → decode w ≠ .ok .step) →
      (s.seeded = true → decode w ≠ .ok .draw) → t.At .idle 0#10 0#13) ∧
    (s.phase = .fill → s.nextInput.rnd = none → t.At .fill s.idx 0#13) ∧
    (s.phase = .fill → s.nextInput.rnd.isSome → s.idx.toNat < 1023 → t.At .fill (s.idx + 1#10) 0#13) ∧
    (s.phase = .fill → s.nextInput.rnd.isSome → s.idx.toNat = 1023 → t.At .idle 0#10 0#13) ∧
    (s.phase = .copy → s.idx.toNat < 1023 → t.At .copy (s.idx + 1#10) 0#13) ∧
    (s.phase = .copy → s.idx.toNat = 1023 → t.At .scan 0#10 0#13) ∧
    (s.phase = .scan → s.pos.toNat < 8191 → t.At .scan 0#10 (s.pos + 1#13)) ∧
    (s.phase = .scan → s.pos.toNat = 8191 → t.At .swap 0#10 0#13) ∧
    (s.phase = .swap → t.At .idle 0#10 0#13) ∧
    (s.phase = .draw → s.nextInput.sinkFail = false → s.nextInput.pixReady = false →
      t.At .draw s.idx 0#13) ∧
    (s.phase = .draw → s.nextInput.sinkFail = false → s.nextInput.pixReady = true →
      s.idx.toNat < 1023 → t.At .draw (s.idx + 1#10) 0#13) ∧
    (s.phase = .draw → s.nextInput.sinkFail = false → s.nextInput.pixReady = true →
      s.idx.toNat = 1023 → t.At .idle 0#10 0#13) ∧
    (s.phase = .draw → s.nextInput.sinkFail = true → t.At .idle 0#10 0#13 ∧ t.halted = true)) ∧
  (∀ p : ScanPos, p.toNat < 8191 →
    scanCol (p + 1#13) = scanCol p + 1#7 ∧
    scanRow (p + 1#13) = (if scanCol p = 127#7 then scanRow p + 1#6 else scanRow p))

/-- The status word is a function of the state, 0 after reset, and never busy and halted at once (R33). -/
def Obligations.StatusWordShowsBusySeededHalted : Prop :=
  (∀ s : State, s.status.getLsbD 0 = decide (s.phase ≠ .idle) ∧ s.status.getLsbD 1 = s.seeded ∧
    s.status.getLsbD 2 = s.halted) ∧
  State.reset.status = 0b000#3 ∧
  (∀ s : State, s.Sequenced → ¬ (s.status.getLsbD 0 = true ∧ s.status.getLsbD 2 = true))

/-- When the response is given (R91): at once by NOP, GET, TGL and every word answered with an error, by
FILL with the byte of index 1023, by STEP in SWAP, by DRAW with the byte of index 1023 or at the failure. -/
def Obligations.ResponsesComeWhenStated : Prop :=
  ∀ s t : State, s.nextInput.rst = false → s.halted = false → step s = .next t →
    ∃ es, t.trace = s.trace ++ es ∧
      (∀ w, s.Accepting w → decode w ≠ .ok .fill → (s.seeded = true → decode w ≠ .ok .step) →
        (s.seeded = true → decode w ≠ .ok .draw) → (responsesOf es).length = 1) ∧
      (∀ w, s.Accepting w → decode w = .ok .fill → responsesOf es = []) ∧
      (∀ w, s.Accepting w → s.seeded = true → decode w = .ok .step ∨ decode w = .ok .draw →
        responsesOf es = []) ∧
      (s.phase = .idle → s.nextInput.sinkFail = true ∨ s.nextInput.cmd = none → responsesOf es = []) ∧
      (s.phase = .fill → responsesOf es =
        if s.nextInput.rnd.isSome ∧ s.idx.toNat = 1023 then [0x0#4] else []) ∧
      (s.phase = .copy ∨ s.phase = .scan → responsesOf es = []) ∧
      (s.phase = .swap → responsesOf es = [0x0#4]) ∧
      (s.phase = .draw → responsesOf es =
        if s.nextInput.sinkFail = true then [0x6#4]
        else if s.nextInput.pixReady = true ∧ s.idx.toNat = 1023 then [0x0#4] else [])

/-- Nothing but the last byte of a FILL sets `SEEDED`, nothing but a sink failure sets `HALTED`, nothing
but SWAP changes `CUR`, and nothing but a reset clears a flag (spec/10_state.md sections 2 and 4). -/
def Obligations.FlagsChangeOnlyWhereStated : Prop :=
  ∀ s t : State, step s = .next t → s.nextInput.rst = false →
    (t.seeded ≠ s.seeded → t.seeded = true ∧ s.phase = .fill ∧ s.idx = 1023#10 ∧
      s.nextInput.rnd.isSome) ∧
    (t.halted ≠ s.halted → t.halted = true ∧ s.nextInput.sinkFail = true ∧
      (s.phase = .idle ∨ s.phase = .draw)) ∧
    (t.cur ≠ s.cur → s.phase = .swap) ∧
    t.resets = s.resets

/-- Which step writes which byte: of the current buffer only a byte micro-step of FILL, at `IDX`, and a
TGL, at its cell; of the next buffer only COPY, at `IDX`, and SCAN, at its cell. So a STEP never writes the
grid it reads, and no command of the host reaches the next buffer (spec/10_state.md section 7,
spec/70_reset_and_hazards.md section 3). -/
def Obligations.OnlyTheStatedStepsWriteABuffer : Prop :=
  ∀ s t : State, step s = .next t → s.nextInput.rst = false →
    (∀ i : Index, t.memRead s.cur i ≠ s.memRead s.cur i →
      (s.phase = .fill ∧ i = s.idx) ∨
      (∃ w x y, s.Accepting w ∧ decode w = .ok (.tgl x y) ∧ i = cellIndex x y)) ∧
    (∀ i : Index, t.memRead (!s.cur) i ≠ s.memRead (!s.cur) i →
      (s.phase = .copy ∧ i = s.idx) ∨
      (s.phase = .scan ∧ i = cellIndex (scanCol s.pos) (scanRow s.pos)))

/-- What cannot be observed never shows: two runs that differ only in which buffer is current, in the
contents of the next buffer, and in the bytes nothing has written since reset, give the same events and the
same status for ever, whatever the environment does (spec/10_state.md sections 8 and 9,
spec/20_memory.md section 6). -/
def Obligations.UnobservableStateNeverShows : Prop :=
  ∀ (s t : State) (n : Nat), s.Sequenced → s.ObsEq t →
    ∃ s' t' : State, run n s = .next s' ∧ run n t = .next t' ∧ s'.ObsEq t' ∧
      t'.trace = s'.trace ∧ t'.status = s'.status
end

