-- ==== Sys2Proof/Laws/Encoding.lean ====
section
/-! SUPPORT. The fields of a command word (spec/30_encoding.md R81): packing them and reading them back. -/

namespace Sys2Proof

theorem packWord_getLsbD (op : BitVec 3) (y : Row) (x : Col) (j : Nat) :
    (packWord op y x).getLsbD j =
      if j < 7 then x.getLsbD j
      else if j - 7 < 6 then y.getLsbD (j - 7) else op.getLsbD (j - 7 - 6) := by
  have h : (packWord op y x).getLsbD j =
      if j < 7 then x.getLsbD j else ((op ++ y : BitVec 9)).getLsbD (j - 7) := BitVec.getLsbD_append
  have h' : ((op ++ y : BitVec 9)).getLsbD (j - 7) =
      if j - 7 < 6 then y.getLsbD (j - 7) else op.getLsbD (j - 7 - 6) := BitVec.getLsbD_append
  rw [h, h']

@[simp] theorem xField_packWord (op : BitVec 3) (y : Row) (x : Col) : xField (packWord op y x) = x := by
  refine BitVec.eq_of_getLsbD_eq fun j hj => ?_
  simp [xField, packWord_getLsbD, hj]

@[simp] theorem yField_packWord (op : BitVec 3) (y : Row) (x : Col) : yField (packWord op y x) = y := by
  refine BitVec.eq_of_getLsbD_eq fun j hj => ?_
  simp [yField, packWord_getLsbD, hj]

@[simp] theorem opField_packWord (op : BitVec 3) (y : Row) (x : Col) : opField (packWord op y x) = op := by
  refine BitVec.eq_of_getLsbD_eq fun j hj => ?_
  have h1 : ¬ (13 + j < 7) := by omega
  have h2 : ¬ (13 + j - 7 < 6) := by omega
  have h3 : 13 + j - 7 - 6 = j := by omega
  simp [opField, packWord_getLsbD, hj, h1, h2, h3]

/-- A word is its three fields put together. -/
@[simp] theorem packWord_fields (w : CmdWord) : packWord (opField w) (yField w) (xField w) = w := by
  refine BitVec.eq_of_getLsbD_eq fun j hj => ?_
  by_cases h : j < 7
  · simp [packWord_getLsbD, xField, h]
  · by_cases h' : j - 7 < 6
    · have : 7 + (j - 7) = j := by omega
      simp [packWord_getLsbD, yField, h, h', this]
    · have h3 : 13 + (j - 7 - 6) = j := by omega
      have h4 : j - 7 - 6 < 3 := by omega
      simp [packWord_getLsbD, opField, h, h', h3, h4]

/-- Masking with the operand bits cleared leaves the opcode. -/
theorem packWord_mask (op : BitVec 3) (y : Row) (x : Col) :
    packWord op y x &&& 0xE000#16 = packWord op 0#6 0#7 := by
  have hm : (0xE000#16 : CmdWord) = packWord 0b111#3 0#6 0#7 := by decide
  refine BitVec.eq_of_getLsbD_eq fun j hj => ?_
  rw [hm, BitVec.getLsbD_and, packWord_getLsbD, packWord_getLsbD, packWord_getLsbD]
  by_cases h : j < 7
  · simp [h]
  · by_cases h' : j - 7 < 6
    · simp [h, h']
    · have : j - 7 - 6 = 0 ∨ j - 7 - 6 = 1 ∨ j - 7 - 6 = 2 := by omega
      rcases this with e | e | e <;> simp [h, h', e]

end Sys2Proof
end

