-- ==== Sys2Proof/Laws/State.lean ====
section
/-! SUPPORT. One lemma per field per update of the state, so that no proof unfolds a record update. -/

namespace Sys2Proof.Machine

/-! ### `log` -/

@[simp] theorem log_buf0 (s : State) (e : Event) : (s.log e).buf0 = s.buf0 := rfl
@[simp] theorem log_buf1 (s : State) (e : Event) : (s.log e).buf1 = s.buf1 := rfl
@[simp] theorem log_cur (s : State) (e : Event) : (s.log e).cur = s.cur := rfl
@[simp] theorem log_seeded (s : State) (e : Event) : (s.log e).seeded = s.seeded := rfl
@[simp] theorem log_halted (s : State) (e : Event) : (s.log e).halted = s.halted := rfl
@[simp] theorem log_phase (s : State) (e : Event) : (s.log e).phase = s.phase := rfl
@[simp] theorem log_idx (s : State) (e : Event) : (s.log e).idx = s.idx := rfl
@[simp] theorem log_pos (s : State) (e : Event) : (s.log e).pos = s.pos := rfl
@[simp] theorem log_inputs (s : State) (e : Event) : (s.log e).inputs = s.inputs := rfl
@[simp] theorem log_freeTicks (s : State) (e : Event) : (s.log e).freeTicks = s.freeTicks := rfl
@[simp] theorem log_resets (s : State) (e : Event) : (s.log e).resets = s.resets := rfl
@[simp] theorem log_trace (s : State) (e : Event) : (s.log e).trace = s.trace ++ [e] := rfl

/-! ### `respond` -/

@[simp] theorem respond_buf0 (s : State) (c : Code) (q : Bool) : (s.respond c q).buf0 = s.buf0 := rfl
@[simp] theorem respond_buf1 (s : State) (c : Code) (q : Bool) : (s.respond c q).buf1 = s.buf1 := rfl
@[simp] theorem respond_cur (s : State) (c : Code) (q : Bool) : (s.respond c q).cur = s.cur := rfl
@[simp] theorem respond_seeded (s : State) (c : Code) (q : Bool) : (s.respond c q).seeded = s.seeded := rfl
@[simp] theorem respond_halted (s : State) (c : Code) (q : Bool) : (s.respond c q).halted = s.halted := rfl
@[simp] theorem respond_phase (s : State) (c : Code) (q : Bool) : (s.respond c q).phase = s.phase := rfl
@[simp] theorem respond_idx (s : State) (c : Code) (q : Bool) : (s.respond c q).idx = s.idx := rfl
@[simp] theorem respond_pos (s : State) (c : Code) (q : Bool) : (s.respond c q).pos = s.pos := rfl
@[simp] theorem respond_inputs (s : State) (c : Code) (q : Bool) : (s.respond c q).inputs = s.inputs := rfl
@[simp] theorem respond_freeTicks (s : State) (c : Code) (q : Bool) : (s.respond c q).freeTicks = s.freeTicks := rfl
@[simp] theorem respond_resets (s : State) (c : Code) (q : Bool) : (s.respond c q).resets = s.resets := rfl
@[simp] theorem respond_trace (s : State) (c : Code) (q : Bool) :
    (s.respond c q).trace = s.trace ++ [.response (rspWord c q)] := rfl

/-! ### `emit` -/

@[simp] theorem emit_buf0 (s : State) (i : Index) (v : Byte) : (s.emit i v).buf0 = s.buf0 := rfl
@[simp] theorem emit_buf1 (s : State) (i : Index) (v : Byte) : (s.emit i v).buf1 = s.buf1 := rfl
@[simp] theorem emit_cur (s : State) (i : Index) (v : Byte) : (s.emit i v).cur = s.cur := rfl
@[simp] theorem emit_seeded (s : State) (i : Index) (v : Byte) : (s.emit i v).seeded = s.seeded := rfl
@[simp] theorem emit_halted (s : State) (i : Index) (v : Byte) : (s.emit i v).halted = s.halted := rfl
@[simp] theorem emit_phase (s : State) (i : Index) (v : Byte) : (s.emit i v).phase = s.phase := rfl
@[simp] theorem emit_idx (s : State) (i : Index) (v : Byte) : (s.emit i v).idx = s.idx := rfl
@[simp] theorem emit_pos (s : State) (i : Index) (v : Byte) : (s.emit i v).pos = s.pos := rfl
@[simp] theorem emit_inputs (s : State) (i : Index) (v : Byte) : (s.emit i v).inputs = s.inputs := rfl
@[simp] theorem emit_freeTicks (s : State) (i : Index) (v : Byte) : (s.emit i v).freeTicks = s.freeTicks := rfl
@[simp] theorem emit_resets (s : State) (i : Index) (v : Byte) : (s.emit i v).resets = s.resets := rfl
@[simp] theorem emit_trace (s : State) (i : Index) (v : Byte) :
    (s.emit i v).trace = s.trace ++ [.sent i v] := rfl

/-! ### `takeRnd` -/

@[simp] theorem takeRnd_buf0 (s : State) (v : Byte) : (s.takeRnd v).buf0 = s.buf0 := rfl
@[simp] theorem takeRnd_buf1 (s : State) (v : Byte) : (s.takeRnd v).buf1 = s.buf1 := rfl
@[simp] theorem takeRnd_cur (s : State) (v : Byte) : (s.takeRnd v).cur = s.cur := rfl
@[simp] theorem takeRnd_seeded (s : State) (v : Byte) : (s.takeRnd v).seeded = s.seeded := rfl
@[simp] theorem takeRnd_halted (s : State) (v : Byte) : (s.takeRnd v).halted = s.halted := rfl
@[simp] theorem takeRnd_phase (s : State) (v : Byte) : (s.takeRnd v).phase = s.phase := rfl
@[simp] theorem takeRnd_idx (s : State) (v : Byte) : (s.takeRnd v).idx = s.idx := rfl
@[simp] theorem takeRnd_pos (s : State) (v : Byte) : (s.takeRnd v).pos = s.pos := rfl
@[simp] theorem takeRnd_inputs (s : State) (v : Byte) : (s.takeRnd v).inputs = s.inputs := rfl
@[simp] theorem takeRnd_freeTicks (s : State) (v : Byte) : (s.takeRnd v).freeTicks = s.freeTicks := rfl
@[simp] theorem takeRnd_resets (s : State) (v : Byte) : (s.takeRnd v).resets = s.resets := rfl
@[simp] theorem takeRnd_trace (s : State) (v : Byte) :
    (s.takeRnd v).trace = s.trace ++ [.taken v] := rfl

/-! ### `setBuf` -/

@[simp] theorem setBuf_cur (s : State) (b : Bool) (m : Memory) : (s.setBuf b m).cur = s.cur := by
  cases b <;> rfl
@[simp] theorem setBuf_seeded (s : State) (b : Bool) (m : Memory) : (s.setBuf b m).seeded = s.seeded := by
  cases b <;> rfl
@[simp] theorem setBuf_halted (s : State) (b : Bool) (m : Memory) : (s.setBuf b m).halted = s.halted := by
  cases b <;> rfl
@[simp] theorem setBuf_phase (s : State) (b : Bool) (m : Memory) : (s.setBuf b m).phase = s.phase := by
  cases b <;> rfl
@[simp] theorem setBuf_idx (s : State) (b : Bool) (m : Memory) : (s.setBuf b m).idx = s.idx := by
  cases b <;> rfl
@[simp] theorem setBuf_pos (s : State) (b : Bool) (m : Memory) : (s.setBuf b m).pos = s.pos := by
  cases b <;> rfl
@[simp] theorem setBuf_inputs (s : State) (b : Bool) (m : Memory) : (s.setBuf b m).inputs = s.inputs := by
  cases b <;> rfl
@[simp] theorem setBuf_freeTicks (s : State) (b : Bool) (m : Memory) : (s.setBuf b m).freeTicks = s.freeTicks := by
  cases b <;> rfl
@[simp] theorem setBuf_resets (s : State) (b : Bool) (m : Memory) : (s.setBuf b m).resets = s.resets := by
  cases b <;> rfl
@[simp] theorem setBuf_trace (s : State) (b : Bool) (m : Memory) : (s.setBuf b m).trace = s.trace := by
  cases b <;> rfl

/-! ### `memWrite` -/

@[simp] theorem memWrite_cur (s : State) (b : Bool) (i : Index) (v : Byte) :
    (s.memWrite b i v).cur = s.cur := setBuf_cur s b _
@[simp] theorem memWrite_seeded (s : State) (b : Bool) (i : Index) (v : Byte) :
    (s.memWrite b i v).seeded = s.seeded := setBuf_seeded s b _
@[simp] theorem memWrite_halted (s : State) (b : Bool) (i : Index) (v : Byte) :
    (s.memWrite b i v).halted = s.halted := setBuf_halted s b _
@[simp] theorem memWrite_phase (s : State) (b : Bool) (i : Index) (v : Byte) :
    (s.memWrite b i v).phase = s.phase := setBuf_phase s b _
@[simp] theorem memWrite_idx (s : State) (b : Bool) (i : Index) (v : Byte) :
    (s.memWrite b i v).idx = s.idx := setBuf_idx s b _
@[simp] theorem memWrite_pos (s : State) (b : Bool) (i : Index) (v : Byte) :
    (s.memWrite b i v).pos = s.pos := setBuf_pos s b _
@[simp] theorem memWrite_inputs (s : State) (b : Bool) (i : Index) (v : Byte) :
    (s.memWrite b i v).inputs = s.inputs := setBuf_inputs s b _
@[simp] theorem memWrite_freeTicks (s : State) (b : Bool) (i : Index) (v : Byte) :
    (s.memWrite b i v).freeTicks = s.freeTicks := setBuf_freeTicks s b _
@[simp] theorem memWrite_resets (s : State) (b : Bool) (i : Index) (v : Byte) :
    (s.memWrite b i v).resets = s.resets := setBuf_resets s b _
@[simp] theorem memWrite_trace (s : State) (b : Bool) (i : Index) (v : Byte) :
    (s.memWrite b i v).trace = s.trace := setBuf_trace s b _

/-! ### `toggleAt` -/

@[simp] theorem toggleAt_cur (s : State) (b : Bool) (x : Col) (y : Row) :
    (s.toggleAt b x y).cur = s.cur := memWrite_cur s b _ _
@[simp] theorem toggleAt_seeded (s : State) (b : Bool) (x : Col) (y : Row) :
    (s.toggleAt b x y).seeded = s.seeded := memWrite_seeded s b _ _
@[simp] theorem toggleAt_halted (s : State) (b : Bool) (x : Col) (y : Row) :
    (s.toggleAt b x y).halted = s.halted := memWrite_halted s b _ _
@[simp] theorem toggleAt_phase (s : State) (b : Bool) (x : Col) (y : Row) :
    (s.toggleAt b x y).phase = s.phase := memWrite_phase s b _ _
@[simp] theorem toggleAt_idx (s : State) (b : Bool) (x : Col) (y : Row) :
    (s.toggleAt b x y).idx = s.idx := memWrite_idx s b _ _
@[simp] theorem toggleAt_pos (s : State) (b : Bool) (x : Col) (y : Row) :
    (s.toggleAt b x y).pos = s.pos := memWrite_pos s b _ _
@[simp] theorem toggleAt_inputs (s : State) (b : Bool) (x : Col) (y : Row) :
    (s.toggleAt b x y).inputs = s.inputs := memWrite_inputs s b _ _
@[simp] theorem toggleAt_freeTicks (s : State) (b : Bool) (x : Col) (y : Row) :
    (s.toggleAt b x y).freeTicks = s.freeTicks := memWrite_freeTicks s b _ _
@[simp] theorem toggleAt_resets (s : State) (b : Bool) (x : Col) (y : Row) :
    (s.toggleAt b x y).resets = s.resets := memWrite_resets s b _ _
@[simp] theorem toggleAt_trace (s : State) (b : Bool) (x : Col) (y : Row) :
    (s.toggleAt b x y).trace = s.trace := memWrite_trace s b _ _

/-! ### `consume` -/

@[simp] theorem consume_buf0 (s : State) : s.consume.buf0 = s.buf0 := by
  unfold State.consume; split <;> rfl
@[simp] theorem consume_buf1 (s : State) : s.consume.buf1 = s.buf1 := by
  unfold State.consume; split <;> rfl
@[simp] theorem consume_cur (s : State) : s.consume.cur = s.cur := by
  unfold State.consume; split <;> rfl
@[simp] theorem consume_seeded (s : State) : s.consume.seeded = s.seeded := by
  unfold State.consume; split <;> rfl
@[simp] theorem consume_halted (s : State) : s.consume.halted = s.halted := by
  unfold State.consume; split <;> rfl
@[simp] theorem consume_phase (s : State) : s.consume.phase = s.phase := by
  unfold State.consume; split <;> rfl
@[simp] theorem consume_idx (s : State) : s.consume.idx = s.idx := by
  unfold State.consume; split <;> rfl
@[simp] theorem consume_pos (s : State) : s.consume.pos = s.pos := by
  unfold State.consume; split <;> rfl
@[simp] theorem consume_resets (s : State) : s.consume.resets = s.resets := by
  unfold State.consume; split <;> rfl
@[simp] theorem consume_trace (s : State) : s.consume.trace = s.trace := by
  unfold State.consume; split <;> rfl

/-! ### `doReset` -/

@[simp] theorem doReset_buf0 (s : State) : s.doReset.buf0 = [] := rfl
@[simp] theorem doReset_buf1 (s : State) : s.doReset.buf1 = [] := rfl
@[simp] theorem doReset_cur (s : State) : s.doReset.cur = false := rfl
@[simp] theorem doReset_seeded (s : State) : s.doReset.seeded = false := rfl
@[simp] theorem doReset_halted (s : State) : s.doReset.halted = false := rfl
@[simp] theorem doReset_phase (s : State) : s.doReset.phase = .idle := rfl
@[simp] theorem doReset_idx (s : State) : s.doReset.idx = 0#10 := rfl
@[simp] theorem doReset_pos (s : State) : s.doReset.pos = 0#13 := rfl
@[simp] theorem doReset_inputs (s : State) : s.doReset.inputs = s.inputs := rfl
@[simp] theorem doReset_freeTicks (s : State) : s.doReset.freeTicks = s.freeTicks := rfl
@[simp] theorem doReset_resets (s : State) : s.doReset.resets = s.resets + 1 := rfl
@[simp] theorem doReset_trace (s : State) : s.doReset.trace = s.trace ++ [.reset] := rfl

/-! ### `raiseSinkFail` -/

@[simp] theorem raiseSinkFail_buf0 (s : State) : s.raiseSinkFail.buf0 = s.buf0 := by
  unfold State.raiseSinkFail; split <;> rfl
@[simp] theorem raiseSinkFail_buf1 (s : State) : s.raiseSinkFail.buf1 = s.buf1 := by
  unfold State.raiseSinkFail; split <;> rfl
@[simp] theorem raiseSinkFail_cur (s : State) : s.raiseSinkFail.cur = s.cur := by
  unfold State.raiseSinkFail; split <;> rfl
@[simp] theorem raiseSinkFail_seeded (s : State) : s.raiseSinkFail.seeded = s.seeded := by
  unfold State.raiseSinkFail; split <;> rfl
@[simp] theorem raiseSinkFail_pos (s : State) : s.raiseSinkFail.pos = s.pos := by
  unfold State.raiseSinkFail; split <;> rfl
@[simp] theorem raiseSinkFail_inputs (s : State) : s.raiseSinkFail.inputs = s.inputs := by
  unfold State.raiseSinkFail; split <;> rfl
@[simp] theorem raiseSinkFail_freeTicks (s : State) : s.raiseSinkFail.freeTicks = s.freeTicks := by
  unfold State.raiseSinkFail; split <;> rfl
@[simp] theorem raiseSinkFail_resets (s : State) : s.raiseSinkFail.resets = s.resets := by
  unfold State.raiseSinkFail; split <;> rfl
@[simp] theorem raiseSinkFail_halted (s : State) : s.raiseSinkFail.halted = true := by
  unfold State.raiseSinkFail; split <;> rfl

/-! ### `moveTo` -/

@[simp] theorem moveTo_buf0 (s : State) (ph : Phase) (i : Index) (p : ScanPos) : (s.moveTo ph i p).buf0 = s.buf0 := rfl
@[simp] theorem moveTo_buf1 (s : State) (ph : Phase) (i : Index) (p : ScanPos) : (s.moveTo ph i p).buf1 = s.buf1 := rfl
@[simp] theorem moveTo_cur (s : State) (ph : Phase) (i : Index) (p : ScanPos) : (s.moveTo ph i p).cur = s.cur := rfl
@[simp] theorem moveTo_seeded (s : State) (ph : Phase) (i : Index) (p : ScanPos) : (s.moveTo ph i p).seeded = s.seeded := rfl
@[simp] theorem moveTo_halted (s : State) (ph : Phase) (i : Index) (p : ScanPos) : (s.moveTo ph i p).halted = s.halted := rfl
@[simp] theorem moveTo_phase (s : State) (ph : Phase) (i : Index) (p : ScanPos) : (s.moveTo ph i p).phase = ph := rfl
@[simp] theorem moveTo_idx (s : State) (ph : Phase) (i : Index) (p : ScanPos) : (s.moveTo ph i p).idx = i := rfl
@[simp] theorem moveTo_pos (s : State) (ph : Phase) (i : Index) (p : ScanPos) : (s.moveTo ph i p).pos = p := rfl
@[simp] theorem moveTo_inputs (s : State) (ph : Phase) (i : Index) (p : ScanPos) : (s.moveTo ph i p).inputs = s.inputs := rfl
@[simp] theorem moveTo_freeTicks (s : State) (ph : Phase) (i : Index) (p : ScanPos) : (s.moveTo ph i p).freeTicks = s.freeTicks := rfl
@[simp] theorem moveTo_resets (s : State) (ph : Phase) (i : Index) (p : ScanPos) : (s.moveTo ph i p).resets = s.resets := rfl
@[simp] theorem moveTo_trace (s : State) (ph : Phase) (i : Index) (p : ScanPos) : (s.moveTo ph i p).trace = s.trace := rfl
@[simp] theorem moveTo_buf (s : State) (ph : Phase) (i : Index) (p : ScanPos) (b : Bool) : (s.moveTo ph i p).buf b = s.buf b := rfl

/-! ### `markSeeded` -/

@[simp] theorem markSeeded_buf0 (s : State) : (s.markSeeded).buf0 = s.buf0 := rfl
@[simp] theorem markSeeded_buf1 (s : State) : (s.markSeeded).buf1 = s.buf1 := rfl
@[simp] theorem markSeeded_cur (s : State) : (s.markSeeded).cur = s.cur := rfl
@[simp] theorem markSeeded_seeded (s : State) : (s.markSeeded).seeded = true := rfl
@[simp] theorem markSeeded_halted (s : State) : (s.markSeeded).halted = s.halted := rfl
@[simp] theorem markSeeded_phase (s : State) : (s.markSeeded).phase = s.phase := rfl
@[simp] theorem markSeeded_idx (s : State) : (s.markSeeded).idx = s.idx := rfl
@[simp] theorem markSeeded_pos (s : State) : (s.markSeeded).pos = s.pos := rfl
@[simp] theorem markSeeded_inputs (s : State) : (s.markSeeded).inputs = s.inputs := rfl
@[simp] theorem markSeeded_freeTicks (s : State) : (s.markSeeded).freeTicks = s.freeTicks := rfl
@[simp] theorem markSeeded_resets (s : State) : (s.markSeeded).resets = s.resets := rfl
@[simp] theorem markSeeded_trace (s : State) : (s.markSeeded).trace = s.trace := rfl
@[simp] theorem markSeeded_buf (s : State) (b : Bool) : (s.markSeeded).buf b = s.buf b := rfl

/-! ### `markHalted` -/

@[simp] theorem markHalted_buf0 (s : State) : (s.markHalted).buf0 = s.buf0 := rfl
@[simp] theorem markHalted_buf1 (s : State) : (s.markHalted).buf1 = s.buf1 := rfl
@[simp] theorem markHalted_cur (s : State) : (s.markHalted).cur = s.cur := rfl
@[simp] theorem markHalted_seeded (s : State) : (s.markHalted).seeded = s.seeded := rfl
@[simp] theorem markHalted_halted (s : State) : (s.markHalted).halted = true := rfl
@[simp] theorem markHalted_phase (s : State) : (s.markHalted).phase = s.phase := rfl
@[simp] theorem markHalted_idx (s : State) : (s.markHalted).idx = s.idx := rfl
@[simp] theorem markHalted_pos (s : State) : (s.markHalted).pos = s.pos := rfl
@[simp] theorem markHalted_inputs (s : State) : (s.markHalted).inputs = s.inputs := rfl
@[simp] theorem markHalted_freeTicks (s : State) : (s.markHalted).freeTicks = s.freeTicks := rfl
@[simp] theorem markHalted_resets (s : State) : (s.markHalted).resets = s.resets := rfl
@[simp] theorem markHalted_trace (s : State) : (s.markHalted).trace = s.trace := rfl
@[simp] theorem markHalted_buf (s : State) (b : Bool) : (s.markHalted).buf b = s.buf b := rfl

/-! ### `flipCur` -/

@[simp] theorem flipCur_buf0 (s : State) : (s.flipCur).buf0 = s.buf0 := rfl
@[simp] theorem flipCur_buf1 (s : State) : (s.flipCur).buf1 = s.buf1 := rfl
@[simp] theorem flipCur_cur (s : State) : (s.flipCur).cur = (!s.cur) := rfl
@[simp] theorem flipCur_seeded (s : State) : (s.flipCur).seeded = s.seeded := rfl
@[simp] theorem flipCur_halted (s : State) : (s.flipCur).halted = s.halted := rfl
@[simp] theorem flipCur_phase (s : State) : (s.flipCur).phase = s.phase := rfl
@[simp] theorem flipCur_idx (s : State) : (s.flipCur).idx = s.idx := rfl
@[simp] theorem flipCur_pos (s : State) : (s.flipCur).pos = s.pos := rfl
@[simp] theorem flipCur_inputs (s : State) : (s.flipCur).inputs = s.inputs := rfl
@[simp] theorem flipCur_freeTicks (s : State) : (s.flipCur).freeTicks = s.freeTicks := rfl
@[simp] theorem flipCur_resets (s : State) : (s.flipCur).resets = s.resets := rfl
@[simp] theorem flipCur_trace (s : State) : (s.flipCur).trace = s.trace := rfl
@[simp] theorem flipCur_buf (s : State) (b : Bool) : (s.flipCur).buf b = s.buf b := rfl

/-! ### The buffers by number -/

@[simp] theorem log_buf (s : State) (e : Event) (b : Bool) : (s.log e).buf b = s.buf b := rfl
@[simp] theorem respond_buf (s : State) (c : Code) (q : Bool) (b : Bool) : (s.respond c q).buf b = s.buf b := rfl
@[simp] theorem emit_buf (s : State) (i : Index) (v : Byte) (b : Bool) : (s.emit i v).buf b = s.buf b := rfl
@[simp] theorem takeRnd_buf (s : State) (v : Byte) (b : Bool) : (s.takeRnd v).buf b = s.buf b := rfl
@[simp] theorem setBuf_buf_same (s : State) (b : Bool) (m : Memory) : (s.setBuf b m).buf b = m := by
  cases b <;> rfl
@[simp] theorem setBuf_buf_other (s : State) (b : Bool) (m : Memory) : (s.setBuf b m).buf (!b) = s.buf (!b) := by
  cases b <;> rfl
@[simp] theorem doReset_buf (s : State) (b : Bool) : s.doReset.buf b = [] := by
  cases b <;> rfl
@[simp] theorem consume_buf (s : State) (b : Bool) : s.consume.buf b = s.buf b := by
  simp [State.buf]
@[simp] theorem raiseSinkFail_buf (s : State) (b : Bool) : s.raiseSinkFail.buf b = s.buf b := by
  simp [State.buf]

end Sys2Proof.Machine
end

