-- ==== Sys2Proof/Laws/Memory.lean ====
section
/-! SUPPORT. The laws of the memory list: a read after a write, and the canonical form, which every memory
operation keeps. -/

namespace Sys2Proof.Machine

@[simp] theorem lookup_store_same (m : Memory) (a : Nat) (v : Byte) :
    (m.store a v).lookup a = some v := by
  induction m with
  | nil => simp [Memory.store, Memory.lookup]
  | cons c m ih =>
    obtain ⟨b, u⟩ := c
    simp only [Memory.store]
    split
    · simp [Memory.lookup]
    · split
      · simp [Memory.lookup]
      · simp [Memory.lookup, *]

theorem lookup_store_other (m : Memory) {a a' : Nat} (v : Byte) (h : a' ≠ a) :
    (m.store a v).lookup a' = m.lookup a' := by
  induction m with
  | nil => simp [Memory.store, Memory.lookup, h]
  | cons c m ih =>
    obtain ⟨b, u⟩ := c
    simp only [Memory.store]
    split
    · simp [Memory.lookup, h]
    · split
      · next hab => subst hab; simp [Memory.lookup, h]
      · simp [Memory.lookup, ih]

/-- Storing keeps every index of the list below a bound that the new index meets. -/
theorem store_all_lt (m : Memory) (a n : Nat) (v : Byte) (ha : a < n)
    (h : m.all (fun c => decide (c.1 < n)) = true) :
    (m.store a v).all (fun c => decide (c.1 < n)) = true := by
  induction m with
  | nil => simpa [Memory.store] using ha
  | cons c m ih =>
    obtain ⟨b, u⟩ := c
    simp only [List.all_cons, Bool.and_eq_true, decide_eq_true_eq] at h
    simp only [Memory.store]
    split
    · simp only [List.all_cons, Bool.and_eq_true, decide_eq_true_eq]; exact ⟨ha, h.1, h.2⟩
    · split
      · simp only [List.all_cons, Bool.and_eq_true, decide_eq_true_eq]; exact ⟨ha, h.2⟩
      · simp only [List.all_cons, Bool.and_eq_true, decide_eq_true_eq]; exact ⟨h.1, ih h.2⟩

/-- Storing above a bound keeps the indices rising above it. -/
theorem store_risingAbove (m : Memory) (lo : Option Nat) (a : Nat) (v : Byte)
    (hlo : ∀ l, lo = some l → l < a) (h : Memory.risingAbove lo m = true) :
    Memory.risingAbove lo (m.store a v) = true := by
  induction m generalizing lo with
  | nil => cases lo <;> simp_all [Memory.store, Memory.risingAbove]
  | cons c m ih =>
    obtain ⟨b, u⟩ := c
    have hm : Memory.risingAbove (some b) m = true := by
      cases lo <;> simp_all [Memory.risingAbove]
    have hb : ∀ l, lo = some l → l < b := by
      intro l hl; subst hl; simp_all [Memory.risingAbove]
    have cons_of : ∀ (k : Nat) (w : Byte) (m' : Memory), (∀ l, lo = some l → l < k) →
        Memory.risingAbove (some k) m' = true → Memory.risingAbove lo ((k, w) :: m') = true := by
      intro k w m' hk hm'
      cases lo <;> simp_all [Memory.risingAbove]
    simp only [Memory.store]
    split
    · next hab =>
      exact cons_of a v _ hlo (by simp [Memory.risingAbove, hab, hm])
    · split
      · next hab => subst hab; exact cons_of a v _ hlo hm
      · exact cons_of b u _ hb (ih (some b) (by intro l hl; cases hl; omega) hm)

/-- Every memory operation keeps the canonical form. -/
theorem store_wf (m : Memory) (i : Index) (v : Byte) (h : m.wf = true) :
    (m.store i.toNat v).wf = true := by
  simp only [Memory.wf, Bool.and_eq_true] at h ⊢
  exact ⟨store_risingAbove m none _ v (by simp) h.1, store_all_lt m _ _ v i.isLt h.2⟩

theorem nil_wf : Memory.wf [] = true := rfl

/-! ### Bytes of the state -/

@[simp] theorem memRead_memWrite_same (s : State) (b : Bool) (i : Index) (v : Byte) :
    (s.memWrite b i v).memRead b i = v := by
  simp [State.memRead, State.memWrite]

theorem memRead_memWrite_index (s : State) (b : Bool) {i j : Index} (v : Byte) (h : j ≠ i) :
    (s.memWrite b i v).memRead b j = s.memRead b j := by
  have hn : j.toNat ≠ i.toNat := fun e => h (BitVec.eq_of_toNat_eq e)
  simp [State.memRead, State.memWrite, lookup_store_other _ v hn]

@[simp] theorem memRead_memWrite_buffer (s : State) (b : Bool) (i j : Index) (v : Byte) :
    (s.memWrite b i v).memRead (!b) j = s.memRead (!b) j := by
  simp [State.memRead, State.memWrite]

theorem memRead_memWrite (s : State) (b b' : Bool) (i j : Index) (v : Byte) :
    (s.memWrite b i v).memRead b' j = if b' = b ∧ j = i then v else s.memRead b' j := by
  by_cases hb : b' = b
  · subst hb
    by_cases hj : j = i
    · subst hj; simp
    · simp [hj, memRead_memWrite_index]
  · have : b' = !b := by cases b <;> cases b' <;> simp_all
    subst this; simp

theorem isWritten_memWrite (s : State) (b b' : Bool) (i j : Index) (v : Byte) :
    (s.memWrite b i v).isWritten b' j = if b' = b ∧ j = i then true else s.isWritten b' j := by
  by_cases hb : b' = b
  · subst hb
    by_cases hj : j = i
    · subst hj; simp [State.isWritten, State.memWrite]
    · have hn : j.toNat ≠ i.toNat := fun e => hj (BitVec.eq_of_toNat_eq e)
      simp [State.isWritten, State.memWrite, lookup_store_other _ v hn, hj]
  · have : b' = !b := by cases b <;> cases b' <;> simp_all
    subst this; simp [State.isWritten, State.memWrite]

theorem memWrite_canonical (s : State) (b b' : Bool) (i : Index) (v : Byte)
    (h : (s.buf b').wf = true) : ((s.memWrite b i v).buf b').wf = true := by
  by_cases hb : b' = b
  · subst hb; simpa [State.memWrite] using store_wf _ i v h
  · have : b' = !b := by cases b <;> cases b' <;> simp_all
    subst this; simpa [State.memWrite] using h

end Sys2Proof.Machine
end

