-- ==== Sys2Proof/Laws/Operands.lean ====
section
/-! SUPPORT. The laws of addressing: index and bit determine the cell (R51), one bit of a byte (R52, R53),
and the toroidal neighbours (R141). -/

namespace Sys2Proof.Machine

theorem cellIndex_getLsbD (x : Col) (y : Row) (i : Nat) : (cellIndex x y).getLsbD i =
    if i < 7 then x.getLsbD i else (y.extractLsb' 3 3).getLsbD (i - 7) :=
  BitVec.getLsbD_append

theorem rowOf_getLsbD (i : Index) (k : BitPos) (j : Nat) : (rowOf i k).getLsbD j =
    if j < 3 then k.getLsbD j else (i.extractLsb' 7 3).getLsbD (j - 3) :=
  BitVec.getLsbD_append

theorem scanPos_getLsbD (x : Col) (y : Row) (i : Nat) : (scanPos x y).getLsbD i =
    if i < 7 then x.getLsbD i else y.getLsbD (i - 7) :=
  BitVec.getLsbD_append

@[simp] theorem columnOf_cellIndex (x : Col) (y : Row) : columnOf (cellIndex x y) = x := by
  refine BitVec.eq_of_getLsbD_eq fun i hi => ?_
  simp [columnOf, cellIndex_getLsbD, hi]

@[simp] theorem rowOf_cellIndex (x : Col) (y : Row) : rowOf (cellIndex x y) (cellBit y) = y := by
  refine BitVec.eq_of_getLsbD_eq fun i hi => ?_
  by_cases h : i < 3
  · simp [rowOf_getLsbD, cellBit, h]
  · have h3 : i - 3 < 3 := by omega
    have : 3 + (i - 3) = i := by omega
    simp [rowOf_getLsbD, cellIndex_getLsbD, h, h3, this]

@[simp] theorem cellIndex_of (i : Index) (k : BitPos) : cellIndex (columnOf i) (rowOf i k) = i := by
  refine BitVec.eq_of_getLsbD_eq fun j hj => ?_
  by_cases h : j < 7
  · simp [cellIndex_getLsbD, columnOf, h]
  · have h3 : j - 7 < 3 := by omega
    have : 7 + (j - 7) = j := by omega
    simp [cellIndex_getLsbD, rowOf_getLsbD, h, h3, this]

@[simp] theorem cellBit_rowOf (i : Index) (k : BitPos) : cellBit (rowOf i k) = k := by
  refine BitVec.eq_of_getLsbD_eq fun j hj => ?_
  simp [cellBit, rowOf_getLsbD, hj]

@[simp] theorem scanCol_scanPos (x : Col) (y : Row) : scanCol (scanPos x y) = x := by
  refine BitVec.eq_of_getLsbD_eq fun i hi => ?_
  simp [scanCol, scanPos_getLsbD, hi]

@[simp] theorem scanRow_scanPos (x : Col) (y : Row) : scanRow (scanPos x y) = y := by
  refine BitVec.eq_of_getLsbD_eq fun i hi => ?_
  simp [scanRow, scanPos_getLsbD, hi]

@[simp] theorem scanPos_of (p : ScanPos) : scanPos (scanCol p) (scanRow p) = p := by
  refine BitVec.eq_of_getLsbD_eq fun i hi => ?_
  by_cases h : i < 7
  · simp [scanPos_getLsbD, scanCol, h]
  · have h6 : i - 7 < 6 := by omega
    have : 7 + (i - 7) = i := by omega
    simp [scanPos_getLsbD, scanRow, h, h6, this]

theorem byteBit_eq_getLsbD (v : Byte) (k : BitPos) : byteBit v k = v.getLsbD k.toNat := by
  simp [byteBit]

theorem flipBit_getLsbD (v : Byte) (k : BitPos) (j : Nat) (hj : j < 8) :
    (flipBit v k).getLsbD j = if j = k.toNat then !(v.getLsbD j) else v.getLsbD j := by
  have hk := k.isLt
  by_cases h : j = k.toNat
  · subst h
    simp [flipBit, hj]
  · by_cases hlt : j < k.toNat
    · simp [flipBit, h, hlt]
    · have : ¬ (j - k.toNat = 0) := by omega
      simp [flipBit, h, hj, this]

theorem byteBit_flipBit (v : Byte) (k j : BitPos) :
    byteBit (flipBit v k) j = if j = k then !(byteBit v k) else byteBit v j := by
  have hj : j.toNat < 8 := j.isLt
  rw [byteBit_eq_getLsbD, byteBit_eq_getLsbD, byteBit_eq_getLsbD, flipBit_getLsbD v k _ hj]
  by_cases h : j = k
  · simp [h]
  · have hn : j.toNat ≠ k.toNat := fun e => h (BitVec.eq_of_toNat_eq e)
    simp [h, hn]

/-- A byte is determined by its eight bits. -/
theorem byte_ext {u v : Byte} (h : ∀ k : BitPos, byteBit u k = byteBit v k) : u = v := by
  refine BitVec.eq_of_getLsbD_eq fun i hi => ?_
  have := h (BitVec.ofNat 3 i)
  simpa [byteBit_eq_getLsbD, Nat.mod_eq_of_lt hi] using this

@[simp] theorem left_right (x : Col) : left (right x) = x := by
  simp [left, right, BitVec.add_assoc]

@[simp] theorem right_left (x : Col) : right (left x) = x := by
  simp [left, right, BitVec.add_assoc]

@[simp] theorem up_down (y : Row) : up (down y) = y := by
  simp [up, down, BitVec.add_assoc]

@[simp] theorem down_up (y : Row) : down (up y) = y := by
  simp [up, down, BitVec.add_assoc]

/-- A grid is determined by its cells (R51). -/
theorem buffer_ext {A B : Buffer} (h : ∀ x y, getCell A x y = getCell B x y) : A = B := by
  funext i
  refine byte_ext fun k => ?_
  have := h (columnOf i) (rowOf i k)
  simpa [getCell] using this

/-- What a toggle does to each cell (R53). -/
theorem getCell_toggleCell (B : Buffer) (x x' : Col) (y y' : Row) :
    getCell (toggleCell B x y) x' y' =
      if x' = x ∧ y' = y then !(getCell B x y) else getCell B x' y' := by
  unfold getCell toggleCell
  by_cases hi : cellIndex x' y' = cellIndex x y
  · have hx : x' = x := by
      have := congrArg columnOf hi
      simpa using this
    subst hx
    by_cases hy : y' = y
    · subst hy; simp [byteBit_flipBit]
    · have hb : cellBit y' ≠ cellBit y := fun hb => hy (by
        rw [← rowOf_cellIndex x' y', ← rowOf_cellIndex x' y, hi, hb])
      simp [hi, byteBit_flipBit, hb, hy]
  · have : ¬ (x' = x ∧ y' = y) := fun ⟨hx, hy⟩ => hi (by rw [hx, hy])
    simp [hi, this]

end Sys2Proof.Machine
end

