-- ==== Sys2Proof/Laws/Ops.lean ====
section
/-! SUPPORT. One lemma per shared operation: what it does to the bytes of the buffers and to the inputs of
the coming steps, and what the flags' operations answer. -/

namespace Sys2Proof.Machine

/-! ### Reads do not depend on the registers -/

theorem memRead_congr {s t : State} (h : ∀ b, t.buf b = s.buf b) (hr : t.resets = s.resets)
    (b : Bool) (i : Index) : t.memRead b i = s.memRead b i := by
  simp [State.memRead, h, hr]

theorem bytes_congr {s t : State} (h : ∀ b, t.buf b = s.buf b) (hr : t.resets = s.resets) (b : Bool) :
    t.bytes b = s.bytes b := funext fun i => memRead_congr h hr b i

theorem isWritten_congr {s t : State} (h : ∀ b, t.buf b = s.buf b) (b : Bool) (i : Index) :
    t.isWritten b i = s.isWritten b i := by
  simp [State.isWritten, h]

@[simp] theorem log_bytes (s : State) (e : Event) (b : Bool) : (s.log e).bytes b = s.bytes b := rfl
@[simp] theorem respond_bytes (s : State) (c : Code) (q b : Bool) : (s.respond c q).bytes b = s.bytes b := rfl
@[simp] theorem emit_bytes (s : State) (i : Index) (v : Byte) (b : Bool) :
    (s.emit i v).bytes b = s.bytes b := rfl
@[simp] theorem takeRnd_bytes (s : State) (v : Byte) (b : Bool) : (s.takeRnd v).bytes b = s.bytes b := rfl
@[simp] theorem consume_bytes (s : State) (b : Bool) : s.consume.bytes b = s.bytes b :=
  bytes_congr (by simp) (by simp) b
@[simp] theorem raiseSinkFail_bytes (s : State) (b : Bool) : s.raiseSinkFail.bytes b = s.bytes b :=
  bytes_congr (by simp) (by simp) b

@[simp] theorem log_isWritten (s : State) (e : Event) (b : Bool) (i : Index) :
    (s.log e).isWritten b i = s.isWritten b i := rfl
@[simp] theorem respond_isWritten (s : State) (c : Code) (q b : Bool) (i : Index) :
    (s.respond c q).isWritten b i = s.isWritten b i := rfl
@[simp] theorem emit_isWritten (s : State) (j : Index) (v : Byte) (b : Bool) (i : Index) :
    (s.emit j v).isWritten b i = s.isWritten b i := rfl
@[simp] theorem takeRnd_isWritten (s : State) (v : Byte) (b : Bool) (i : Index) :
    (s.takeRnd v).isWritten b i = s.isWritten b i := rfl
@[simp] theorem consume_isWritten (s : State) (b : Bool) (i : Index) :
    s.consume.isWritten b i = s.isWritten b i := isWritten_congr (by simp) b i
@[simp] theorem raiseSinkFail_isWritten (s : State) (b : Bool) (i : Index) :
    s.raiseSinkFail.isWritten b i = s.isWritten b i := isWritten_congr (by simp) b i
@[simp] theorem doReset_isWritten (s : State) (b : Bool) (i : Index) : s.doReset.isWritten b i = false := by
  simp [State.isWritten, Memory.lookup]

@[simp] theorem moveTo_bytes (s : State) (ph : Phase) (i : Index) (p : ScanPos) (b : Bool) :
    (s.moveTo ph i p).bytes b = s.bytes b := rfl
@[simp] theorem moveTo_isWritten (s : State) (ph : Phase) (i : Index) (p : ScanPos) (b : Bool) (j : Index) :
    (s.moveTo ph i p).isWritten b j = s.isWritten b j := rfl
@[simp] theorem moveTo_memRead (s : State) (ph : Phase) (i : Index) (p : ScanPos) (b : Bool) (j : Index) :
    (s.moveTo ph i p).memRead b j = s.memRead b j := rfl
@[simp] theorem markSeeded_bytes (s : State) (b : Bool) :
    (s.markSeeded).bytes b = s.bytes b := rfl
@[simp] theorem markSeeded_isWritten (s : State) (b : Bool) (j : Index) :
    (s.markSeeded).isWritten b j = s.isWritten b j := rfl
@[simp] theorem markSeeded_memRead (s : State) (b : Bool) (j : Index) :
    (s.markSeeded).memRead b j = s.memRead b j := rfl
@[simp] theorem markHalted_bytes (s : State) (b : Bool) :
    (s.markHalted).bytes b = s.bytes b := rfl
@[simp] theorem markHalted_isWritten (s : State) (b : Bool) (j : Index) :
    (s.markHalted).isWritten b j = s.isWritten b j := rfl
@[simp] theorem markHalted_memRead (s : State) (b : Bool) (j : Index) :
    (s.markHalted).memRead b j = s.memRead b j := rfl
@[simp] theorem flipCur_bytes (s : State) (b : Bool) :
    (s.flipCur).bytes b = s.bytes b := rfl
@[simp] theorem flipCur_isWritten (s : State) (b : Bool) (j : Index) :
    (s.flipCur).isWritten b j = s.isWritten b j := rfl
@[simp] theorem flipCur_memRead (s : State) (b : Bool) (j : Index) :
    (s.flipCur).memRead b j = s.memRead b j := rfl
@[simp] theorem log_memRead (s : State) (e : Event) (b : Bool) (j : Index) :
    (s.log e).memRead b j = s.memRead b j := rfl
@[simp] theorem respond_memRead (s : State) (c : Code) (q : Bool) (b : Bool) (j : Index) :
    (s.respond c q).memRead b j = s.memRead b j := rfl
@[simp] theorem emit_memRead (s : State) (j' : Index) (v : Byte) (b : Bool) (j : Index) :
    (s.emit j' v).memRead b j = s.memRead b j := rfl
@[simp] theorem takeRnd_memRead (s : State) (v : Byte) (b : Bool) (j : Index) :
    (s.takeRnd v).memRead b j = s.memRead b j := rfl
@[simp] theorem consume_memRead (s : State) (b : Bool) (j : Index) : s.consume.memRead b j = s.memRead b j :=
  memRead_congr (by simp) (by simp) b j
@[simp] theorem raiseSinkFail_memRead (s : State) (b : Bool) (j : Index) :
    s.raiseSinkFail.memRead b j = s.memRead b j := memRead_congr (by simp) (by simp) b j

/-- `MemWrite` as an update of the array of bytes (R11). -/
theorem memWrite_bytes (s : State) (b b' : Bool) (i : Index) (v : Byte) :
    (s.memWrite b i v).bytes b' = fun j => if b' = b ∧ j = i then v else s.bytes b' j :=
  funext fun j => memRead_memWrite s b b' i j v

/-- The read-modify-write is the toggle of R53 on its own buffer. -/
theorem toggleAt_bytes_same (s : State) (b : Bool) (x : Col) (y : Row) :
    (s.toggleAt b x y).bytes b = toggleCell (s.bytes b) x y := by
  funext j
  simp only [State.toggleAt, memWrite_bytes, toggleCell, true_and]
  by_cases h : j = cellIndex x y <;> simp [h, State.bytes]

/-- The read-modify-write leaves the other buffer alone. -/
@[simp] theorem toggleAt_bytes_other (s : State) (b : Bool) (x : Col) (y : Row) :
    (s.toggleAt b x y).bytes (!b) = s.bytes (!b) := by
  funext j
  simp [State.toggleAt, memWrite_bytes]

/-! ### The inputs of the coming steps -/

theorem nextInput_congr {s t : State} (hi : t.inputs = s.inputs) (hf : t.freeTicks = s.freeTicks) :
    t.nextInput = s.nextInput := by
  simp [State.nextInput, hi, hf]

theorem consume_inputs_congr {s t : State} (hi : t.inputs = s.inputs) (hf : t.freeTicks = s.freeTicks) :
    t.consume.inputs = s.consume.inputs ∧ t.consume.freeTicks = s.consume.freeTicks := by
  unfold State.consume
  rw [hi]
  split <;> simp [hf]

theorem nextInput_cons (s : State) (p : PortIn) (ps : List PortIn) (h : s.inputs = p :: ps) :
    s.nextInput = p := by
  simp [State.nextInput, h]

theorem consume_cons (s : State) (p : PortIn) (ps : List PortIn) (h : s.inputs = p :: ps) :
    s.consume = { s with inputs := ps } := by
  simp [State.consume, h]

/-! ### The flags' operations -/

@[simp] theorem ifSeeded_true {s : State} (t : State) (h : s.seeded = true) : s.ifSeeded t = t := by
  simp [State.ifSeeded, h]

@[simp] theorem ifSeeded_false {s : State} (t : State) (h : s.seeded = false) :
    s.ifSeeded t = s.respond .unseeded false := by
  simp [State.ifSeeded, h]

/-! ### Response words (R90) -/

theorem rspWord_ok (q : Bool) : rspWord .ok q = if q then 0x1#4 else 0x0#4 := by cases q <;> rfl
@[simp] theorem rspWord_ok_false : rspWord .ok false = 0x0#4 := rfl
@[simp] theorem rspWord_ok_true : rspWord .ok true = 0x1#4 := rfl
@[simp] theorem rspWord_illegal : rspWord .illegal false = 0x2#4 := rfl
@[simp] theorem rspWord_unseeded : rspWord .unseeded false = 0x4#4 := rfl
@[simp] theorem rspWord_sinkFail : rspWord .sinkFail false = 0x6#4 := rfl

/-! ### The halt entry -/

/-- The halt entry from IDLE (R212). -/
theorem raiseSinkFail_idle {s : State} (h : s.phase ≠ .draw) :
    s.raiseSinkFail = s.markHalted.log .sinkFailed := by
  unfold State.raiseSinkFail
  split
  · contradiction
  · rfl

/-- The halt entry from DRAW (R212). -/
theorem raiseSinkFail_draw {s : State} (h : s.phase = .draw) :
    s.raiseSinkFail =
      ((s.moveTo .idle 0#10 s.pos).markHalted.log .sinkFailed).respond .sinkFail false := by
  unfold State.raiseSinkFail
  split
  · rfl
  · contradiction

end Sys2Proof.Machine
end

