-- ==== Sys2Proof/Laws/PerInstr.lean ====
section
/-! SUPPORT. Per instruction: its word carries the match and mask of its row of the opcode map
(spec/30_encoding.md R83). -/

namespace Sys2Proof.Laws.TableWord

/-- The encoded word, masked, is the row's match (R83). -/
def Statement (i : Instr) : Prop := encode i &&& tableMask i = tableMatch i

theorem nop : Statement .nop := by unfold Statement; decide

theorem get (x : Col) (y : Row) : Statement (.get x y) := packWord_mask 0b001#3 y x

theorem tgl (x : Col) (y : Row) : Statement (.tgl x y) := packWord_mask 0b010#3 y x

theorem step : Statement .step := by unfold Statement; decide

theorem fill : Statement .fill := by unfold Statement; decide

theorem draw : Statement .draw := by unfold Statement; decide

end Sys2Proof.Laws.TableWord
end

