-- ==== Sys2Proof/Laws/Step.lean ====
section
/-! SUPPORT. What a step can do, said once: the inversion of `clock`, and the equations of its cases. Later
proofs cite these and do not unfold the step. -/

namespace Sys2Proof.Machine

/-- A command accepted in IDLE, by its instruction: what `exec` answers. -/
theorem exec_cases {i : Instr} {s t : State} (h : exec i s = .next t) :
    (i = .nop ∧ t = s.respond .ok false) ∨
    (∃ x y, i = .get x y ∧ s.seeded = true ∧
      t = s.respond .ok (byteBit (s.memRead s.cur (cellIndex x y)) (cellBit y))) ∨
    (∃ x y, i = .tgl x y ∧ s.seeded = true ∧ t = (s.toggleAt s.cur x y).respond .ok false) ∨
    (i = .step ∧ s.seeded = true ∧ t = s.moveTo .copy s.idx s.pos) ∨
    (i = .fill ∧ t = s.moveTo .fill s.idx s.pos) ∨
    (i = .draw ∧ s.seeded = true ∧ t = s.moveTo .draw s.idx s.pos) ∨
    (i ≠ .nop ∧ i ≠ .fill ∧ s.seeded = false ∧ t = s.respond .unseeded false) := by
  cases i <;> simp only [exec, execNop, execGet, execTgl, execStep, execFill, execDraw,
    Host.Outcome.next.injEq] at h <;> subst h <;> cases hs : s.seeded <;> simp [hs]

/-- What one step with the inputs `p` can do (R29, R214). -/
theorem clock_cases {p : PortIn} {s t : State} (h : clock p s = .next t) :
    (p.rst = true ∧ t = s.doReset) ∨
    (p.rst = false ∧ s.halted = true ∧ t = s) ∨
    (p.rst = false ∧ s.halted = false ∧
      ((s.phase = .idle ∧ p.sinkFail = true ∧ t = s.raiseSinkFail) ∨
       (s.phase = .idle ∧ p.sinkFail = false ∧ p.cmd = none ∧ t = s) ∨
       (∃ w r, s.phase = .idle ∧ p.sinkFail = false ∧ p.cmd = some w ∧ decode w = .error r ∧
          t = (s.log (.accepted w)).respond .illegal false) ∨
       (∃ w i, s.phase = .idle ∧ p.sinkFail = false ∧ p.cmd = some w ∧ decode w = .ok i ∧
          exec i (s.log (.accepted w)) = .next t) ∨
       (s.phase = .fill ∧ p.rnd = none ∧ t = s) ∨
       (∃ v, s.phase = .fill ∧ p.rnd = some v ∧ t = fillByte v s) ∨
       (s.phase = .copy ∧ t = copyByte s) ∨
       (s.phase = .scan ∧ t = scanCell s) ∨
       (s.phase = .swap ∧ t = swapBuffers s) ∨
       (s.phase = .draw ∧ p.sinkFail = true ∧ t = s.raiseSinkFail) ∨
       (s.phase = .draw ∧ p.sinkFail = false ∧ p.pixReady = true ∧ t = drawByte s) ∨
       (s.phase = .draw ∧ p.sinkFail = false ∧ p.pixReady = false ∧ t = s))) := by
  unfold clock at h
  split at h
  · next hr => cases h; exact .inl ⟨hr, rfl⟩
  · next hr =>
    have hr' : p.rst = false := by simpa using hr
    split at h
    · next hh => cases h; exact .inr (.inl ⟨hr', hh, rfl⟩)
    · next hh =>
      have hh' : s.halted = false := by simpa using hh
      refine .inr (.inr ⟨hr', hh', ?_⟩)
      unfold phaseStep at h
      cases hp : s.phase with
      | idle =>
        rw [hp] at h
        simp only [idleStep] at h
        cases hf : p.sinkFail <;> cases hc : p.cmd <;> simp only [hf, hc, acceptWord] at h
        · cases h; simp
        · next w =>
          cases hd : decode w with
          | error r => rw [hd] at h; cases h; simp [hd]
          | ok i => rw [hd] at h; simpa [hd] using h
        · cases h; simp
        · cases h; simp
      | fill =>
        rw [hp] at h
        cases hv : p.rnd <;> simp only [fillStep, hv] at h <;> cases h <;> simp
      | copy => rw [hp] at h; cases h; simp
      | scan => rw [hp] at h; cases h; simp
      | swap => rw [hp] at h; cases h; simp
      | draw =>
        rw [hp] at h
        cases hf : p.sinkFail <;> cases hc : p.pixReady <;>
          simp [drawStep, hf, hc] at h <;> subst h <;> simp

/-! ### The cases as equations -/

theorem clock_rst {p : PortIn} {s : State} (h : p.rst = true) : clock p s = .next s.doReset := by
  simp [clock, h]

theorem clock_halted {p : PortIn} {s : State} (hr : p.rst = false) (hh : s.halted = true) :
    clock p s = .next s := by
  simp [clock, hr, hh]

theorem clock_command {p : PortIn} {s : State} {w : CmdWord} {i : Instr} (hr : p.rst = false)
    (hh : s.halted = false) (hp : s.phase = .idle) (hf : p.sinkFail = false) (hc : p.cmd = some w)
    (hd : decode w = .ok i) : clock p s = exec i (s.log (.accepted w)) := by
  simp [clock, hr, hh, phaseStep, hp, idleStep, hf, hc, acceptWord, hd]

theorem clock_reserved {p : PortIn} {s : State} {w : CmdWord} {r : Reserved} (hr : p.rst = false)
    (hh : s.halted = false) (hp : s.phase = .idle) (hf : p.sinkFail = false) (hc : p.cmd = some w)
    (hd : decode w = .error r) :
    clock p s = .next ((s.log (.accepted w)).respond .illegal false) := by
  simp [clock, hr, hh, phaseStep, hp, idleStep, hf, hc, acceptWord, hd]

theorem clock_fill {p : PortIn} {s : State} (hr : p.rst = false) (hh : s.halted = false)
    (hp : s.phase = .fill) : clock p s = .next (fillStep p s) := by
  simp [clock, hr, hh, phaseStep, hp]

theorem clock_copy {p : PortIn} {s : State} (hr : p.rst = false) (hh : s.halted = false)
    (hp : s.phase = .copy) : clock p s = .next (copyByte s) := by
  simp [clock, hr, hh, phaseStep, hp]

theorem clock_scan {p : PortIn} {s : State} (hr : p.rst = false) (hh : s.halted = false)
    (hp : s.phase = .scan) : clock p s = .next (scanCell s) := by
  simp [clock, hr, hh, phaseStep, hp]

theorem clock_swap {p : PortIn} {s : State} (hr : p.rst = false) (hh : s.halted = false)
    (hp : s.phase = .swap) : clock p s = .next (swapBuffers s) := by
  simp [clock, hr, hh, phaseStep, hp]

theorem clock_draw {p : PortIn} {s : State} (hr : p.rst = false) (hh : s.halted = false)
    (hp : s.phase = .draw) : clock p s = .next (drawStep p s) := by
  simp [clock, hr, hh, phaseStep, hp]

/-- The next step after `withFetchWord` runs the instruction the table word decodes to (log entry 6). -/
theorem step_withFetchWord (s : State) (nbits w : Nat) (i : Instr)
    (h : decodeTableWord nbits w = some i) :
    step (s.withFetchWord nbits w) =
      exec i ({ s with halted := false, phase := .idle, idx := 0#10, pos := 0#13 }.log
        (.accepted (tableWord nbits w))) := by
  have hd : decode (tableWord nbits w) = .ok i := by
    unfold decodeTableWord at h
    cases hd : decode (tableWord nbits w) with
    | error r => rw [hd] at h; cases h
    | ok j => rw [hd] at h; cases h; rfl
  exact clock_command rfl rfl rfl rfl rfl hd

end Sys2Proof.Machine
end

