-- ==== Sys2Proof/Laws/Run.lean ====
section
/-! SUPPORT. Runs of many steps and the inputs they use up: the induction over a run, packaged once. -/

namespace Sys2Proof.Machine

@[simp] theorem run_zero (s : State) : run 0 s = .next s := rfl

theorem run_succ {s t : State} (n : Nat) (h : step s = .next t) : run (n + 1) s = run n t := by
  simp only [run, h]

/-- A run goes on where the shorter one ended. -/
theorem run_add {s t : State} (n m : Nat) (h : run n s = .next t) : run (n + m) s = run m t := by
  induction n generalizing s with
  | zero => cases h; simp
  | succ n ih =>
    rw [Nat.add_right_comm]
    simp only [run] at h ⊢
    cases hs : step s with
    | next s' => rw [hs] at h; exact ih h
    | fault f => rw [hs] at h; cases h
    | refused r => rw [hs] at h; cases h

/-- The model's `run` is the host's run of the machine. -/
theorem run_eq_core_run (n : Nat) (s : State) : run n s = Host.Core.run core n s := by
  induction n generalizing s with
  | zero => rfl
  | succ n ih =>
    have hc : core.step s = step s := rfl
    simp only [run, Host.Core.run, hc]
    cases step s with
    | next t => exact ih t
    | fault f => rfl
    | refused r => rfl

/-- A property that every step from it keeps holds after every run: the induction over a run. -/
theorem run_induction {P : State → Prop} (hP : ∀ s t, P s → step s = .next t → P t) (n : Nat) {s t : State}
    (hs : P s) (h : run n s = .next t) : P t := by
  induction n generalizing s with
  | zero => cases h; exact hs
  | succ n ih =>
    simp only [run] at h
    cases hst : step s with
    | next u => rw [hst] at h; exact ih (hP s u hs hst) h
    | fault f => rw [hst] at h; cases h
    | refused r => rw [hst] at h; cases h

/-! ### Coming inputs -/

/-- The coming inputs depend on the environment's fields only. -/
theorem comingInputs_congr {s t : State} (hi : t.inputs = s.inputs) (hf : t.freeTicks = s.freeTicks) (n : Nat) :
    t.comingInputs n = s.comingInputs n := by
  induction n generalizing s t with
  | zero => rfl
  | succ n ih =>
    have hc := consume_inputs_congr hi hf
    simp only [State.comingInputs, nextInput_congr hi hf, ih hc.1 hc.2]

theorem consumeN_congr {s t : State} (n : Nat) (hi : t.inputs = s.inputs) (hf : t.freeTicks = s.freeTicks) :
    (t.consumeN n).inputs = (s.consumeN n).inputs ∧ (t.consumeN n).freeTicks = (s.consumeN n).freeTicks := by
  induction n generalizing s t with
  | zero => exact ⟨hi, hf⟩
  | succ n ih =>
    have hc := consume_inputs_congr hi hf
    exact ih hc.1 hc.2

/-- Where State lists the inputs of the coming steps, they are the coming inputs. -/
theorem comingInputs_listed (s : State) (ps qs : List PortIn) (h : s.inputs = ps ++ qs) :
    s.comingInputs ps.length = ps := by
  induction ps generalizing s with
  | nil => rfl
  | cons p ps ih =>
    have hs : s.inputs = p :: (ps ++ qs) := h
    simp only [List.length_cons, State.comingInputs, nextInput_cons s p _ hs]
    rw [ih s.consume (by rw [consume_cons s p _ hs])]

theorem consumeN_listed (s : State) (ps qs : List PortIn) (h : s.inputs = ps ++ qs) :
    s.consumeN ps.length = { s with inputs := qs } := by
  induction ps generalizing s with
  | nil => cases s; cases h; rfl
  | cons p ps ih =>
    have hs : s.inputs = p :: (ps ++ qs) := h
    simp only [List.length_cons, State.consumeN]
    rw [ih s.consume (by rw [consume_cons s p _ hs]), consume_cons s p _ hs]

/-! ### Runs without a reset -/

/-- Listed inputs without a reset. -/
theorem noReset_listed (s : State) (ps qs : List PortIn) (h : s.inputs = ps ++ qs)
    (hp : ∀ p ∈ ps, p.rst = false) : s.noReset ps.length := by
  unfold State.noReset
  rw [comingInputs_listed s ps qs h]
  exact hp

theorem noReset_succ {s : State} {n : Nat} (h : s.noReset (n + 1)) :
    s.nextInput.rst = false ∧ s.consume.noReset n :=
  ⟨h _ (by simp [State.comingInputs]), fun p hp => h p (by simp [State.comingInputs, hp])⟩

theorem noReset_congr {s t : State} {n : Nat} (hi : t.inputs = s.inputs) (hf : t.freeTicks = s.freeTicks)
    (h : s.noReset n) : t.noReset n := by
  unfold State.noReset
  rw [comingInputs_congr hi hf]
  exact h

theorem noReset_le {s : State} {n m : Nat} (h : s.noReset n) (hm : m ≤ n) : s.noReset m := by
  induction m generalizing s n with
  | zero => intro p hp; simp [State.comingInputs] at hp
  | succ m ih =>
    cases n with
    | zero => omega
    | succ n =>
      have hs := noReset_succ h
      intro p hp
      simp only [State.comingInputs, List.mem_cons] at hp
      rcases hp with rfl | hp
      · exact hs.1
      · exact ih hs.2 (by omega) p hp

end Sys2Proof.Machine
end

