-- ==== Sys2Proof/Laws/Stepper.lean ====
section
/-! SUPPORT. Packing eight cells into a byte and a grid into a buffer (spec/20_memory.md R51, R71). -/

namespace Sys2Proof.Machine

/-- Bit `k` of a packed byte is the k-th cell. -/
theorem packByte_getLsbD (f : BitPos → Bool) (j : Nat) (hj : j < 8) :
    (packByte f).getLsbD j = f (BitVec.ofNat 3 j) := by
  have h : j = 0 ∨ j = 1 ∨ j = 2 ∨ j = 3 ∨ j = 4 ∨ j = 5 ∨ j = 6 ∨ j = 7 := by omega
  unfold packByte
  rcases h with rfl | rfl | rfl | rfl | rfl | rfl | rfl | rfl <;>
    generalize f 0#3 = a0 <;> generalize f 1#3 = a1 <;> generalize f 2#3 = a2 <;>
    generalize f 3#3 = a3 <;> generalize f 4#3 = a4 <;> generalize f 5#3 = a5 <;>
    generalize f 6#3 = a6 <;> generalize f 7#3 = a7 <;>
    revert a0 a1 a2 a3 a4 a5 a6 a7 <;> decide

@[simp] theorem byteBit_packByte (f : BitPos → Bool) (k : BitPos) : byteBit (packByte f) k = f k := by
  rw [byteBit_eq_getLsbD, packByte_getLsbD f _ k.isLt]
  simp

/-- A cell of a grid that is packed from its cells. -/
theorem getCell_packed (f : Col → Row → Bool) (x : Col) (y : Row) :
    getCell (fun i => packByte (fun k => f (columnOf i) (rowOf i k))) x y = f x y := by
  simp [getCell]

end Sys2Proof.Machine
end

