-- ==== Sys2Proof/Tests/Slice0.lean ====
section
/-! SUPPORT. Tests on fixed values, their expected results from the spec's tables and vectors
(spec/95_test_vectors.md unless another file is named), and a witness for the hypotheses of each
obligation that has any. -/

namespace Sys2Proof.Tests

open Sys2Proof Sys2Proof.Machine

/-! ### Well-formedness: the coordinates an assembler must reject (spec/30_encoding.md R96) -/

theorem test_wf_get_x : (AsmCmd.get 128 0).wellFormed = false ∧ (AsmCmd.get 127 0).wellFormed = true := by decide
theorem test_wf_get_y : (AsmCmd.get 0 64).wellFormed = false ∧ (AsmCmd.get 0 63).wellFormed = true := by decide
theorem test_wf_tgl_x : (AsmCmd.tgl 128 0).wellFormed = false ∧ (AsmCmd.tgl 127 0).wellFormed = true := by decide
theorem test_wf_tgl_y : (AsmCmd.tgl 0 64).wellFormed = false ∧ (AsmCmd.tgl 0 63).wellFormed = true := by decide
theorem test_wf_bare :
    ∀ c ∈ [AsmCmd.nop, AsmCmd.step, AsmCmd.fill, AsmCmd.draw], c.wellFormed = true := by decide

/-! ### Decoding: words written out bit by bit, op, y, x (VE) -/

theorem test_decode_nop : decode 0b000_000000_0000000#16 = .ok .nop := by decide
theorem test_decode_get : decode 0b001_010100_0000101#16 = .ok (.get 5#7 20#6) := by decide
theorem test_decode_get_fields :
    decode 0x2001#16 = .ok (.get 1#7 0#6) ∧ decode 0x2080#16 = .ok (.get 0#7 1#6) ∧
    decode 0x3F80#16 = .ok (.get 0#7 63#6) ∧ decode 0x207F#16 = .ok (.get 127#7 0#6) := by decide
theorem test_decode_tgl : decode 0b010_100001_1000000#16 = .ok (.tgl 64#7 33#6) := by decide
theorem test_decode_tgl_fields :
    decode 0x4001#16 = .ok (.tgl 1#7 0#6) ∧ decode 0x5F80#16 = .ok (.tgl 0#7 63#6) ∧
    decode 0x5FFF#16 = .ok (.tgl 127#7 63#6) := by decide
theorem test_decode_step : decode 0b011_000000_0000000#16 = .ok .step := by decide
theorem test_decode_fill : decode 0b100_000000_0000000#16 = .ok .fill := by decide
theorem test_decode_draw : decode 0b101_000000_0000000#16 = .ok .draw := by decide
theorem test_decode_reserved_operand :
    decode 0x0001#16 = .error (.operandBits 0#3) ∧ decode 0x1FFF#16 = .error (.operandBits 0#3) ∧
    decode 0x6001#16 = .error (.operandBits 3#3) ∧ decode 0x8001#16 = .error (.operandBits 4#3) ∧
    decode 0xA080#16 = .error (.operandBits 5#3) := by decide
theorem test_decode_reserved_op :
    decode 0xC000#16 = .error (.opcode 6#3) ∧ decode 0xDFFF#16 = .error (.opcode 6#3) ∧
    decode 0xE000#16 = .error (.opcode 7#3) ∧ decode 0xFFFF#16 = .error (.opcode 7#3) := by decide
theorem test_encode :
    encode (.get 64#7 33#6) = 0x30C0#16 ∧ encode (.get 127#7 63#6) = 0x3FFF#16 ∧
    encode (.tgl 64#7 33#6) = 0x50C0#16 ∧ encode .step = 0x6000#16 := by decide
theorem test_table_word : decodeTableWord 16 0x2A05 = some (.get 5#7 20#6) ∧ decodeTableWord 16 0xC000 = none := by
  decide

/-! ### Assembler (spec/30_encoding.md R96, the lines of Part 3) -/

theorem test_assemble_get :
    assembleLine ['G', 'E', 'T', ' ', '6', '4', ',', ' ', '3', '3', ' ', ';', ' ', 'q'] = .ok (some 0x30C0#16) := by
  decide
theorem test_assemble_hex :
    assembleLine ['T', 'G', 'L', ' ', '0', 'x', '7', 'F', ',', '0', 'x', '3', 'f'] = .ok (some 0x5FFF#16) := by
  decide
theorem test_assemble_range :
    assembleLine ['G', 'E', 'T', ' ', '1', '2', '8', ',', '0'] = .error .range := by decide
theorem test_assemble_case : assembleLine ['n', 'o', 'p'] = .error .mnemonic := by decide
theorem test_listing :
    listingLine (.get 64#7 33#6) 0x1#4 =
      ['G', 'E', 'T', ' ', '6', '4', ',', ' ', '3', '3', ' ', ' ', '0', 'x', '3', '0', 'C', '0',
       ' ', '-', '>', ' ', '0', 'x', '1'] := by decide

/-! ### Layout, neighbours, counts, rule, generations -/

/-- The buffer that holds these bytes and 0x00 everywhere else. -/
def grid (m : Memory) : Buffer := fun i => (m.lookup i.toNat).getD 0x00#8

/-- VL. -/
theorem test_layout :
    cellIndex 64#7 33#6 = 576#10 ∧ cellBit 33#6 = 1#3 ∧ cellIndex 1#7 63#6 = 897#10 ∧ cellBit 63#6 = 7#3 ∧
    cellIndex 127#7 63#6 = 1023#10 ∧ columnOf 576#10 = 64#7 ∧ rowOf 576#10 1#3 = 33#6 := by decide
/-- VN: the neighbours of (0,0). -/
theorem test_neighbours :
    neighbours 0#7 0#6 = [(127#7, 63#6), (0#7, 63#6), (1#7, 63#6), (127#7, 0#6), (1#7, 0#6), (127#7, 1#6),
      (0#7, 1#6), (1#7, 1#6)] := by decide
/-- S3. -/
theorem test_count_corners :
    (let B := grid [(0, 0x01#8)]
     [(127#7, 0#6), (0#7, 63#6), (127#7, 63#6), (0#7, 0#6), (2#7, 0#6)].map (fun c => liveCount B c.1 c.2))
      = [1#4, 1#4, 1#4, 0#4, 0#4] := by decide
/-- VC13, every byte 0x0F. -/
theorem test_count_pages :
    (let B : Buffer := fun _ => 0x0F#8
     [0#6, 1#6, 2#6, 3#6, 4#6, 5#6, 6#6, 7#6].map (fun y => liveCount B 5#7 y))
      = [5#4, 8#4, 8#4, 5#4, 3#4, 0#4, 0#4, 3#4] := by decide
/-- VR. -/
theorem test_rule :
    [0#4, 1#4, 2#4, 3#4, 4#4, 5#4, 6#4, 7#4, 8#4].map (lifeRule true)
      = [false, false, true, true, false, false, false, false, false] ∧
    [0#4, 1#4, 2#4, 3#4, 4#4, 5#4, 6#4, 7#4, 8#4].map (lifeRule false)
      = [false, false, false, true, false, false, false, false, false] := by decide
/-- VS7: a block is born across both wraps. -/
theorem test_generation_wrap :
    (let B := nextGen (grid [(0, 0x01#8), (127, 0x01#8), (896, 0x80#8)])
     [0#10, 127#10, 896#10, 1023#10, 1#10, 897#10].map B)
      = [0x01#8, 0x01#8, 0x80#8, 0x80#8, 0x00#8, 0x00#8] := by decide +kernel
/-- The glider, generation 0 to 1, byte 1 by byte. -/
theorem test_generation_glider :
    (let B := nextGen (grid [(0, 0x04#8), (1, 0x05#8), (2, 0x06#8)])
     [127#10, 0#10, 1#10, 2#10, 3#10].map B) = [0x00#8, 0x02#8, 0x0C#8, 0x06#8, 0x00#8] := by decide +kernel

/-! ### Single steps -/

/-- The block at rest after reset but for the flag and the bytes of `BUF[0]` given. -/
def rest (seeded : Bool) (m : Memory) (ps : List PortIn) : State :=
  { State.reset with buf0 := m, seeded := seeded, inputs := ps }

/-- The block busy in a phase, with a seeded grid. -/
def work (ph : Phase) (i : Index) (p : ScanPos) (m n : Memory) (ps : List PortIn) : State :=
  { State.reset with buf0 := m, buf1 := n, seeded := true, phase := ph, idx := i, pos := p, inputs := ps }

/-- A check of the state an outcome leaves. -/
def after (o : Host.Outcome State Fault Refusal) (P : State → Bool) : Bool :=
  match o with
  | .next t => P t
  | _ => false

/-- Two steps. -/
def twoSteps (s : State) : Host.Outcome State Fault Refusal := run 2 s

/-- VX1. -/
theorem test_nop : step (State.reset.withFetchWord 16 0x0000) =
    .next { State.reset with trace := [.accepted 0x0000#16, .response 0x0#4] } := by rfl

/-- VG1. -/
theorem test_get_live : after (step (rest true [(261, 0x10#8)] [offer 0x2A05#16]))
    (fun t => t.trace == [.accepted 0x2A05#16, .response 0x1#4] && t.buf0 == [(261, 0x10#8)]) = true := by decide
/-- VG3 and VG9. -/
theorem test_get_dead : after (step (rest true [(261, 0x10#8)] [offer 0x2985#16]))
      (fun t => t.trace == [.accepted 0x2985#16, .response 0x0#4]) = true ∧
    after (step (rest false [] [offer 0x2000#16]))
      (fun t => t.trace == [.accepted 0x2000#16, .response 0x4#4]) = true := by decide

/-- VG5. -/
theorem test_tgl : after (step (rest true [(0, 0x00#8), (1, 0x07#8)] [offer 0x4081#16]))
    (fun t => t.buf0 == [(0, 0x00#8), (1, 0x05#8)] && t.buf1 == [] &&
      t.trace == [.accepted 0x4081#16, .response 0x0#4]) = true := by decide
/-- VG7: the last cell, into the current buffer 1. -/
theorem test_tgl_last :
    after (step { rest true [(1023, 0x11#8)] [offer 0x5FFF#16] with buf1 := [(1023, 0xFF#8)], cur := true })
      (fun t => t.buf1 == [(1023, 0x7F#8)] && t.buf0 == [(1023, 0x11#8)]) = true := by decide

/-- VX4 and VX3: reserved wins over unseeded. -/
theorem test_illegal :
    after (step (State.reset.withFetchWord 16 0x6001))
      (fun t => t.trace == [.accepted 0x6001#16, .response 0x2#4] && t.status == 0b000#3) = true ∧
    after (step (State.reset.withFetchWord 16 0xFFFF))
      (fun t => t.trace == [.accepted 0xFFFF#16, .response 0x2#4]) = true := by decide

/-- VM and VF4: acceptance of a FILL and its first byte micro-step. -/
theorem test_fill_first : after (twoSteps (rest false [] [offer 0x8000#16, sourceByte 0x04#8]))
    (fun t => t.buf0 == [(0, 0x04#8)] && t.phase == .fill && t.idx == 1#10 && t.status == 0b001#3 &&
      responsesOf t.trace == []) = true := by decide
/-- VF1: the last byte. -/
theorem test_fill_last :
    after (step { work .fill 1023#10 0#13 [] [] [sourceByte 0xFF#8] with seeded := false })
      (fun t => t.buf0 == [(1023, 0xFF#8)] && t.phase == .idle && t.idx == 0#10 && t.status == 0b010#3 &&
        responsesOf t.trace == [0x0#4]) = true := by decide

/-- VM: the accepted STEP copies byte 0. -/
theorem test_step_copy : after (twoSteps (rest true [(0, 0x5A#8)] [offer 0x6000#16, quiet]))
    (fun t => t.buf1 == [(0, 0x5A#8)] && t.phase == .copy && t.idx == 1#10 && !t.cur) = true := by decide
/-- VM: SCAN of the last cell, born in VS7, then SWAP. -/
theorem test_step_scan_swap :
    (let ms := [(0, 0x01#8), (126, 0x00#8), (127, 0x01#8), (896, 0x80#8), (1022, 0x00#8), (1023, 0x00#8)]
     after (twoSteps (work .scan 0#10 8191#13 ms ms [quiet, quiet]))
      (fun t => (t.buf1.lookup 1023 == some 0x80#8) && t.buf0 == ms && t.cur && t.phase == .idle && t.pos == 0#13 &&
        t.trace == [.response 0x0#4])) = true := by decide +kernel

/-- VD4: the byte at IDX is sent; the failed sink halts the block and wins over the transfer. -/
theorem test_draw_byte : after (step (work .draw 2#10 0#13 [(2, 0xFF#8)] [] [sinkReady]))
    (fun t => t.trace == [.sent 2#10 0xFF#8] && t.idx == 3#10 && t.phase == .draw) = true := by decide
theorem test_draw_fails :
    after (step (work .draw 1023#10 0#13 [(1023, 0xFF#8)] [] [{ sinkReady with sinkFail := true }]))
      (fun t => sentOf t.trace == [] && responsesOf t.trace == [0x6#4] && t.idx == 0#10 &&
        t.status == 0b110#3) = true := by decide

/-- VX7: the command offered with the failure is not accepted. -/
theorem test_idle_fails :
    after (step (rest true [] [{ offer 0x2000#16 with sinkFail := true }]))
      (fun t => acceptedOf t.trace == [] && responsesOf t.trace == [] && t.status == 0b110#3) = true := by decide
/-- VX9 and VX10. -/
theorem test_reset :
    after (step { work .scan 0#10 4000#13 [(0, 0x01#8)] [(1, 0x02#8)] [{ quiet with rst := true }] with cur := true })
      (fun t => t.status == 0b000#3 && !t.cur && t.pos == 0#13 && t.buf0 == [] && t.buf1 == [] &&
        responsesOf t.trace == []) = true := by decide

/-- P5: SET of a dead cell, then CLR of it. -/
theorem test_macros :
    after (hostSteps (expandMacro (.set 10#7 10#6) ++ expandMacro (.clr 10#7 10#6)) (rest true [(138, 0x00#8)] []))
      (fun t => t.buf0 == [(138, 0x00#8)] &&
        acceptedOf t.trace == [0x250A#16, 0x450A#16, 0x250A#16, 0x450A#16] &&
        responsesOf t.trace == [0x0#4, 0x0#4, 0x1#4, 0x0#4]) = true := by decide

/-! ### Witnesses: for each obligation with hypotheses, inputs that meet them, each clause at the ends of
its range -/

theorem witness_DecodeFollowsTheFieldsAndInvertsEncode :
    (0x0000#16).toNat / 8192 = 0 ∧ (0x0000#16).toNat % 8192 = 0 ∧
    (0x2000#16).toNat / 8192 = 1 ∧ (0x3FFF#16).toNat / 8192 = 1 ∧
    (0x4000#16).toNat / 8192 = 2 ∧ (0x5FFF#16).toNat / 8192 = 2 ∧
    (0x6000#16).toNat / 8192 = 3 ∧ (0x6000#16).toNat % 8192 = 0 ∧
    (0x8000#16).toNat / 8192 = 4 ∧ (0x8000#16).toNat % 8192 = 0 ∧
    (0xA000#16).toNat / 8192 = 5 ∧ (0xA000#16).toNat % 8192 = 0 ∧
    (0xA001#16).toNat / 8192 ∈ [0, 3, 4, 5] ∧ (0xA001#16).toNat % 8192 ≠ 0 ∧
    (0x1FFF#16).toNat / 8192 ∈ [0, 3, 4, 5] ∧ (0x1FFF#16).toNat % 8192 ≠ 0 ∧
    (0xC000#16).toNat / 8192 = 6 ∧ (0xFFFF#16).toNat / 8192 = 7 := by decide

theorem witness_EncodeInvertsDecode : decode 0x3FFF#16 = .ok (.get 127#7 63#6) := by decide

theorem witness_AssemblerGivesEachCommandItsWord :
    (127 ≤ 127 ∧ 63 ≤ 63) ∧ (127 < 128 ∨ 63 < 0) ∧ (127 < 0 ∨ 63 < 64) := by decide

theorem witness_GetAndToggleOfABuffer :
    (127#7, 63#6) ≠ ((0#7, 63#6) : Col × Row) ∧ 1023#10 ≠ cellIndex 0#7 63#6 := by decide

theorem witness_NeighbourCoordinatesWrap :
    1#7 ≠ (0#7 : Col) ∧ 127#7 ≠ (0#7 : Col) ∧ 0#7 ≠ (127#7 : Col) ∧ 126#7 ≠ (127#7 : Col) ∧
    1#6 ≠ (0#6 : Row) ∧ 63#6 ≠ (0#6 : Row) ∧ 0#6 ≠ (63#6 : Row) ∧ 62#6 ≠ (63#6 : Row) := by decide

theorem witness_RuleAgreesWithItsTable :
    (1#4).toNat < 2 ∧ (4#4).toNat > 3 ∧ (15#4).toNat > 3 ∧ (3#4).toNat = 3 ∧ (2#4).toNat = 2 ∧
    (2#4).toNat ≠ 3 ∧ (4#4).toNat ≠ 3 := by decide

/-- The packed grid of the rule's cells. -/
theorem witness_NextGenIsTheRuleAtEveryCell (B : Buffer) :
    ∃ N : Buffer, ∀ x y, getCell N x y = lifeRule (getCell B x y) (liveCount B x y) :=
  ⟨_, fun x y => getCell_packed (nextCell B) x y⟩

/-- All cells, in some order. -/
theorem witness_CopyThenToggleInAnyOrderIsNextGen :
    ∃ order : List (Col × Row), order.Nodup ∧ ∀ c, c ∈ order :=
  ⟨(Finset.univ : Finset (Col × Row)).toList, Finset.nodup_toList _, by simp⟩

/-- A word is accepted by the block at rest that is offered it. -/
theorem rest_accepting (seeded : Bool) (m : Memory) (w : CmdWord) (ps : List PortIn) :
    (rest seeded m (offer w :: ps)).Accepting w := ⟨rfl, rfl, rfl, rfl, rfl⟩

theorem rest_resting (seeded : Bool) (m : Memory) (ps : List PortIn) : (rest seeded m ps).Resting :=
  ⟨rfl, rfl, rfl, rfl⟩

theorem witness_StepRunsTheDecodedCommand :
    (rest true [] [offer 0x5FFF#16]).Accepting 0x5FFF#16 ∧ decode 0x5FFF#16 = .ok (.tgl 127#7 63#6) :=
  ⟨rest_accepting _ _ _ _, by decide⟩

theorem witness_NopAnswersOkAndChangesNothing :
    (rest false [] [offer 0x0000#16]).Accepting 0x0000#16 := rest_accepting _ _ _ _

theorem witness_GetAnswersTheCellOfTheCurrentGrid : (rest true [(261, 0x10#8)] []).seeded = true := rfl

theorem witness_TglTogglesItsCellOnly :
    (rest true [(0, 0x01#8)] []).seeded = true ∧
    ¬ (false = (rest true [(0, 0x01#8)] []).cur ∧ 1023#10 = cellIndex 0#7 0#6) := by decide

theorem witness_TogglingAndReadingBackRoundTrips :
    (rest true [(576, 0xFF#8)] []).seeded = true ∧
    getCell ((rest true [(576, 0xFF#8)] []).bytes false) 64#7 33#6 = !false ∧
    getCell ((rest true [(576, 0x00#8)] []).bytes false) 64#7 33#6 = !true := by decide

theorem witness_SetAndClrMakeTheCellAsWanted :
    (rest true [(138, 0x00#8)] []).Resting ∧ (rest true [(138, 0x00#8)] []).seeded = true :=
  ⟨rest_resting _ _ _, rfl⟩

theorem witness_UnseededCommandsAreAnsweredUnseeded :
    ((rest false [] [offer 0xA000#16]).Accepting 0xA000#16 ∧ decode 0xA000#16 = .ok .draw ∧
      (rest false [] [offer 0xA000#16]).seeded = false ∧ Instr.draw ≠ .nop ∧ Instr.draw ≠ .fill) ∧
    ((rest false [] [offer 0x8000#16]).Accepting 0x8000#16 ∧ decode 0x8000#16 = .ok .fill ∧
      ∃ t, step (rest false [] [offer 0x8000#16]) = .next t) ∧
    ((rest true [] [offer 0xA000#16]).seeded = true ∧
      (rest true [] [offer 0xA000#16]).nextInput.rst = false ∧
      ∃ t, step (rest true [] [offer 0xA000#16]) = .next t) :=
  ⟨⟨rest_accepting _ _ _ _, by decide, rfl, by decide, by decide⟩,
    ⟨rest_accepting _ _ _ _, by decide, _, rfl⟩, rfl, rfl, _, rfl⟩

theorem witness_ReservedWordsAreAnsweredIllegal :
    (decode 0xC000#16 = .error (.opcode 6#3) ∧ (rest false [] [offer 0xC000#16]).Accepting 0xC000#16) ∧
    (decode 0x0001#16 = .error (.operandBits 0#3) ∧
      (rest true [] [offer 0x0001#16]).Accepting 0x0001#16) :=
  ⟨⟨by decide, rest_accepting _ _ _ _⟩, by decide, rest_accepting _ _ _ _⟩

/-- The block at rest after reset is sequenced. -/
theorem rest_sequenced (seeded : Bool) (m : Memory) (ps : List PortIn) : (rest seeded m ps).Sequenced :=
  ⟨fun _ => ⟨rfl, rfl⟩, fun _ => rfl, fun _ => rfl, fun h => by cases h⟩

theorem witness_FillAcceptanceEntersPhaseFill :
    (rest false [] []).Sequenced ∧ (rest false [] []).phase = .idle ∧ quiet.rst = false :=
  ⟨rest_sequenced _ _ _, rfl, rfl⟩

theorem work_working (ph : Phase) (i : Index) (p : ScanPos) (m n : Memory) (q : PortIn) (qs : List PortIn)
    (hq : q.rst = false) : (work ph i p m n (q :: qs)).Working ph := ⟨hq, rfl, rfl⟩

theorem witness_FillByteLandsAtTheIndex :
    ((work .fill 5#10 0#13 [] [] [quiet]).Working .fill ∧
      (work .fill 5#10 0#13 [] [] [quiet]).nextInput.rnd = none) ∧
    (∀ i ∈ [0#10, 1022#10, 1023#10],
      (work .fill i 0#13 [] [] [sourceByte 0xFF#8]).Working .fill ∧
      (work .fill i 0#13 [] [] [sourceByte 0xFF#8]).nextInput.rnd = some 0xFF#8 ∧
      (work .fill i 0#13 [] [] [sourceByte 0xFF#8]).idx = i) ∧
    (1022#10).toNat < 1023 ∧ (1023#10).toNat = 1023 :=
  ⟨⟨work_working _ _ _ _ _ _ _ rfl, rfl⟩, fun _ _ => ⟨work_working _ _ _ _ _ _ _ rfl, rfl, rfl⟩,
    by decide, by decide⟩

/-- A source that makes the block wait once before each byte. -/
def slowSource : List PortIn := (List.replicate 1024 [quiet, sourceByte 0x3C#8]).flatten

theorem witness_FillLoadsTheBytesOfTheSource :
    ∃ (s t : State) (n : Nat), s.Resting ∧ exec .fill s = .next t ∧ t.noReset n ∧
      ((t.comingInputs n).filterMap (·.rnd)).length = 1024 ∧
      ((t.comingInputs n).getLast?.bind (·.rnd)).isSome := by
  refine ⟨rest false [] slowSource, _, slowSource.length, rest_resting _ _ _, rfl,
    noReset_listed _ slowSource [] (by simp [rest]) (by decide +kernel), ?_, ?_⟩ <;>
    rw [comingInputs_listed _ slowSource [] (by simp [rest])] <;> decide +kernel

theorem witness_StepAcceptanceEntersPhaseCopy :
    (rest false [] []).seeded = false ∧ (rest true [] []).seeded = true ∧ (rest true [] []).Sequenced ∧
      (rest true [] []).phase = .idle := ⟨rfl, rfl, rest_sequenced _ _ _, rfl⟩

theorem quiet_inputs (s : State) (n : Nat) (h : s.inputs = List.replicate n quiet) :
    s.noReset n ∧ s.comingInputs n = List.replicate n quiet := by
  have hc := comingInputs_listed s (List.replicate n quiet) [] (by simp [h])
  have hn := noReset_listed s (List.replicate n quiet) [] (by simp [h])
    (fun p hp => by rw [List.eq_of_mem_replicate hp]; rfl)
  rw [List.length_replicate] at hc hn
  exact ⟨hn, hc⟩

theorem witness_CopyPhaseCopiesTheGrid :
    (∀ i ∈ [0#10, 1022#10, 1023#10], (work .copy i 0#13 [] [] [quiet]).Working .copy ∧
      (work .copy i 0#13 [] [] [quiet]).idx = i) ∧
    (∃ s : State, s.phase = .copy ∧ s.idx = 0#10 ∧ s.halted = false ∧ s.noReset 1024) ∧
    (∃ order : List Index, ∀ i, i ∈ order) :=
  ⟨fun _ _ => ⟨work_working _ _ _ _ _ _ _ rfl, rfl⟩,
    ⟨work .copy 0#10 0#13 [] [] (List.replicate 1024 quiet), rfl, rfl, rfl, (quiet_inputs _ 1024 rfl).1⟩,
    (Finset.univ : Finset Index).toList, by simp⟩

theorem witness_ScanEvaluatesOneCell :
    (∀ p ∈ [0#13, 127#13, 8190#13, 8191#13], (work .scan 0#10 p [] [] [quiet]).Working .scan ∧
      (work .scan 0#10 p [] [] [quiet]).pos = p) ∧
    127#7 = BitVec.ofNat 7 ((8191#13).toNat % 128) ∧ 63#6 = BitVec.ofNat 6 ((8191#13).toNat / 128) ∧
    (8190#13).toNat < 8191 ∧ (8191#13).toNat = 8191 :=
  ⟨fun _ _ => ⟨work_working _ _ _ _ _ _ _ rfl, rfl⟩, by decide, by decide, by decide, by decide⟩

theorem witness_SwapHandsTheNextGridOver : (work .swap 0#10 0#13 [] [] [quiet]).Working .swap :=
  work_working _ _ _ _ _ _ _ rfl

theorem witness_StepComputesTheNextGeneration :
    ∃ s t : State, s.Resting ∧ s.seeded = true ∧ exec .step s = .next t ∧ t.noReset 9216 ∧
      t.noReset 9217 := by
  have h := (quiet_inputs ((rest true [] (List.replicate 9217 quiet)).moveTo .copy 0#10 0#13) 9217 rfl).1
  exact ⟨_, _, rest_resting true [] (List.replicate 9217 quiet), rfl, rfl, noReset_le h (by omega), h⟩

theorem witness_RepeatedStepsIterateNextGen :
    ∃ (s : State) (rest : List PortIn), s.Resting ∧ s.seeded = true ∧
      s.inputs = (List.replicate 3 stepInputs).flatten ++ rest :=
  ⟨rest true [] ((List.replicate 3 stepInputs).flatten ++ [quiet]), _, rest_resting _ _ _, rfl, rfl⟩

theorem witness_DrawAcceptanceEntersPhaseDraw :
    (rest false [] []).seeded = false ∧ (rest true [] []).seeded = true ∧ (rest true [] []).Sequenced ∧
      (rest true [] []).phase = .idle ∧ quiet.rst = false := ⟨rfl, rfl, rest_sequenced _ _ _, rfl, rfl⟩

/-- The inputs of a step in which the sink has failed, everything offered at once. -/
def failing : PortIn := { sinkReady with sinkFail := true, cmd := some 0x2000#16, rnd := some 0xFF#8 }

/-- A sink that takes one byte at the first two steps, then waits, then fails. -/
def failingSink : List PortIn := [sinkReady, sinkReady, quiet, { sinkReady with sinkFail := true }]

theorem witness_DrawSendsTheByteAtTheIndex :
    (∀ i ∈ [0#10, 1022#10, 1023#10], ∀ q ∈ [quiet, sinkReady, { sinkReady with sinkFail := true }],
      (work .draw i 0#13 [] [] [q]).Working .draw ∧ (work .draw i 0#13 [] [] [q]).idx = i ∧
      (work .draw i 0#13 [] [] [q]).nextInput = q) ∧
    (∃ s : State, s.phase = .draw ∧ s.halted = false ∧ s.idx = 0#10 ∧ s.noReset (3 + 1) ∧
      (∀ p ∈ s.comingInputs 3, p.sinkFail = false) ∧
      ((s.comingInputs 3).filter (·.pixReady)).length = 2 ∧
      ((s.comingInputs (3 + 1)).getLast?.map (·.sinkFail)) = some true) := by
  refine ⟨fun i _ q hq => ⟨work_working _ _ _ _ _ _ _ ?_, rfl, rfl⟩,
    work .draw 0#10 0#13 [] [] failingSink, rfl, rfl, rfl, ?_, ?_, ?_, ?_⟩
  · revert q; decide
  · unfold State.noReset; decide
  · decide
  · decide
  · decide

/-- The ends of k: a failure at once, and one after 1023 bytes. -/
theorem witness_DrawSendsTheByteAtTheIndex_ends : ∀ k ∈ [0, 1023],
    ∃ s : State, s.phase = .draw ∧ s.halted = false ∧ s.idx = 0#10 ∧ s.noReset (k + 1) ∧
      (∀ p ∈ s.comingInputs k, p.sinkFail = false) ∧
      ((s.comingInputs k).filter (·.pixReady)).length = k ∧
      ((s.comingInputs (k + 1)).getLast?.map (·.sinkFail)) = some true := by
  intro k _
  have h1 := comingInputs_listed
    (work .draw 0#10 0#13 [] [] (List.replicate k sinkReady ++ [failing])) (List.replicate k sinkReady) _ rfl
  have h2 := comingInputs_listed
    (work .draw 0#10 0#13 [] [] (List.replicate k sinkReady ++ [failing]))
    (List.replicate k sinkReady ++ [failing]) [] (List.append_nil _).symm
  have h3 := noReset_listed
    (work .draw 0#10 0#13 [] [] (List.replicate k sinkReady ++ [failing]))
    (List.replicate k sinkReady ++ [failing]) [] (List.append_nil _).symm (by
      intro p hp
      rcases List.mem_append.mp hp with hp | hp
      · rw [List.eq_of_mem_replicate hp]; rfl
      · rw [List.mem_singleton.mp hp]; rfl)
  rw [List.length_replicate] at h1
  rw [List.length_append, List.length_replicate, List.length_singleton] at h2 h3
  refine ⟨_, rfl, rfl, rfl, h3, ?_, ?_, ?_⟩
  · rw [h1]
    intro p hp
    rw [List.eq_of_mem_replicate hp]; rfl
  · rw [h1]; simp [sinkReady]
  · rw [h2]; simp [failing]

/-- A sink that makes the block wait once before each byte. -/
def slowSink : List PortIn := (List.replicate 1024 [quiet, sinkReady]).flatten

theorem witness_DrawSendsTheWholeFrame :
    ∃ (s t : State) (n : Nat), s.Resting ∧ s.seeded = true ∧ exec .draw s = .next t ∧ t.noReset n ∧
      (∀ p ∈ t.comingInputs n, p.sinkFail = false) ∧
      ((t.comingInputs n).filter (·.pixReady)).length = 1024 ∧
      ((t.comingInputs n).getLast?.map (·.pixReady)) = some true := by
  refine ⟨rest true [] slowSink, _, slowSink.length, rest_resting _ _ _, rfl, rfl,
    noReset_listed _ slowSink [] (by simp [rest, State.moveTo, State.ifSeeded]) (by decide +kernel), ?_, ?_, ?_⟩ <;>
    rw [comingInputs_listed _ slowSink [] (by simp [rest, State.moveTo, State.ifSeeded])] <;> decide +kernel

theorem witness_LoopSendsSuccessiveGenerations :
    ∃ (s : State) (bs : List Byte) (rest : List PortIn), s.Resting ∧ bs.length = 1024 ∧
      s.inputs = fillInputs bs ++ drawInputs ++
        (List.replicate 2 (stepInputs ++ drawInputs)).flatten ++ rest :=
  ⟨rest false [] (fillInputs (List.replicate 1024 0x18#8) ++ drawInputs ++
      (List.replicate 2 (stepInputs ++ drawInputs)).flatten ++ [quiet]),
    List.replicate 1024 0x18#8, [quiet], rest_resting _ _ _, List.length_replicate, rfl⟩

theorem witness_IdleWithoutACommandChangesNothing :
    ∃ s : State, s.phase = .idle ∧ s.halted = false ∧ s.noReset 5 ∧
      ∀ p ∈ s.comingInputs 5, p.sinkFail = false ∧ p.cmd = none := by
  have h := quiet_inputs (rest true [] (List.replicate 5 quiet)) 5 rfl
  refine ⟨_, rfl, rfl, h.1, ?_⟩
  rw [h.2]
  decide

theorem witness_SilentSourceOrSinkIsAWait :
    (∃ s : State, s.halted = false ∧ s.noReset 5 ∧ s.phase = .fill ∧ ∀ p ∈ s.comingInputs 5, p.rnd = none) ∧
    (∃ s : State, s.halted = false ∧ s.noReset 5 ∧ s.phase = .draw ∧
      ∀ p ∈ s.comingInputs 5, p.sinkFail = false ∧ p.pixReady = false) := by
  have hf := quiet_inputs (work .fill 10#10 0#13 [] [] (List.replicate 5 quiet)) 5 rfl
  have hd := quiet_inputs (work .draw 5#10 0#13 [] [] (List.replicate 5 quiet)) 5 rfl
  refine ⟨⟨_, rfl, hf.1, rfl, ?_⟩, ⟨_, rfl, hd.1, rfl, ?_⟩⟩
  · rw [hf.2]; decide
  · rw [hd.2]; decide

theorem witness_SinkFailureHaltsTheBlock :
    ∀ ph ∈ [Phase.idle, Phase.draw],
      (work ph 0#10 0#13 [] [] [failing]).halted = false ∧
      (work ph 0#10 0#13 [] [] [failing]).nextInput.rst = false ∧
      (work ph 0#10 0#13 [] [] [failing]).nextInput.sinkFail = true ∧
      (work ph 0#10 0#13 [] [] [failing]).phase = ph := by decide

theorem witness_HaltedBlockStaysAsItIs :
    ∃ s : State, s.Sequenced ∧ s.halted = true ∧ s.noReset 5 :=
  ⟨{ rest true [] (List.replicate 5 quiet) with halted := true },
    ⟨fun _ => ⟨rfl, rfl⟩, fun _ => rfl, fun _ => rfl, fun _ => rfl⟩, rfl, (quiet_inputs _ 5 rfl).1⟩

theorem witness_ChecksAreTakenInOrder :
    (work .scan 0#10 4000#13 [] [] [{ failing with rst := true }]).nextInput.rst = true ∧
    ({ rest true [] [failing] with halted := true }.nextInput.rst = false ∧
      { rest true [] [failing] with halted := true }.halted = true) ∧
    (∀ ph ∈ [Phase.idle, Phase.draw],
      (work ph 0#10 0#13 [] [] [failing]).nextInput.rst = false ∧
      (work ph 0#10 0#13 [] [] [failing]).halted = false ∧
      (work ph 0#10 0#13 [] [] [failing]).nextInput.sinkFail = true ∧
      (work ph 0#10 0#13 [] [] [failing]).phase = ph) ∧
    ((rest false [] [offer 0x6001#16]).Accepting 0x6001#16 ∧ decode 0x6001#16 = .error (.operandBits 3#3)) ∧
    ((rest false [] [offer 0x6000#16]).Accepting 0x6000#16 ∧ decode 0x6000#16 = .ok .step ∧
      (rest false [] [offer 0x6000#16]).seeded = false) ∧
    ((rest true [] [offer 0x6000#16]).Accepting 0x6000#16 ∧
      (rest true [] [offer 0x6000#16]).seeded = true) :=
  ⟨rfl, ⟨rfl, rfl⟩, by decide, ⟨rest_accepting _ _ _ _, by decide⟩,
    ⟨rest_accepting _ _ _ _, by decide, rfl⟩, rest_accepting _ _ _ _, rfl⟩

theorem witness_SinkFailIsSampledOnlyInIdleAndDraw :
    ({ rest true [] [] with halted := true }.halted = true) ∧
    (∀ ph ∈ [Phase.fill, Phase.copy, Phase.scan, Phase.swap, Phase.idle, Phase.draw],
      (work ph 0#10 0#13 [] [] []).phase = ph ∧ (work ph 0#10 0#13 [] [] []).halted = false) ∧
    failing.rst = false ∧ failing.sinkFail = true := by decide

theorem witness_ResetGivesTheResetState :
    (work .fill 512#10 0#13 [(0, 0x01#8)] [] [{ failing with rst := true }]).nextInput.rst = true := rfl

/-- A busy block in each phase that is sequenced, at the ends of its position's range. -/
theorem work_sequenced :
    (∀ ph ∈ [Phase.fill, Phase.copy, Phase.draw], ∀ (i : Index) (ps : List PortIn),
      (work ph i 0#13 [] [] ps).Sequenced) ∧
    (∀ (p : ScanPos) (ps : List PortIn), (work .scan 0#10 p [] [] ps).Sequenced) ∧
    (∀ ps : List PortIn, (work .swap 0#10 0#13 [] [] ps).Sequenced) := by
  refine ⟨fun ph hph i ps => ?_, fun p ps => ?_, fun ps => ?_⟩
  · simp only [List.mem_cons, List.not_mem_nil, or_false] at hph
    rcases hph with rfl | rfl | rfl <;> constructor <;> simp [work, State.reset]
  · constructor <;> simp [work, State.reset]
  · constructor <;> simp [work, State.reset]

theorem witness_SequencerInvariantHolds :
    ∃ s t : State, s.Sequenced ∧ s.phase = .scan ∧ step s = .next t :=
  ⟨_, _, work_sequenced.2.1 8191#13 [quiet], rfl, rfl⟩

/-- All the bytes of a buffer, each `v`. -/
def fullMemory (v : Byte) : Memory := (List.range 1024).map (fun i => (i, v))

theorem fullMemory_lookup (v : Byte) (ns : List Nat) (a : Nat) (h : a ∈ ns) :
    (Memory.lookup (ns.map (fun i => (i, v))) a).isSome = true := by
  induction ns with
  | nil => cases h
  | cons n ns ih =>
    simp only [List.map_cons, Memory.lookup]
    split
    · rfl
    · next hne => exact ih ((List.mem_cons.mp h).resolve_left hne)

/-- The block at the last byte of a DRAW whose response is owed. -/
def drawing (m : Memory) (q : PortIn) : State :=
  { work .draw 1023#10 0#13 m [] [q] with trace := [.accepted 0xA000#16] }

theorem drawing_inv (m : Memory) (q : PortIn) (hm : m.wf = true)
    (hw : ∀ i : Index, (m.lookup i.toNat).isSome = true) : (drawing m q).Inv where
  sequenced := by constructor <;> simp [drawing, work, State.reset]
  written := by constructor <;> simp [drawing, work, State.reset, State.isWritten, State.buf, hw]
  canonical0 := hm
  canonical1 := rfl
  ordered := rfl

theorem fullMemory_wf : Memory.wf (fullMemory 0x81#8) = true := by decide +kernel

theorem witness_EveryStepKeepsTheInvariant :
    ∃ s t : State, s.Inv ∧ s.phase = .draw ∧ step s = .next t :=
  ⟨_, _, drawing_inv _ sinkReady fullMemory_wf
    (fun i => fullMemory_lookup _ _ _ (List.mem_range.mpr i.isLt)), rfl, rfl⟩

theorem witness_SequencerTransitionsAreTheTable :
    (∃ s t : State, s.Sequenced ∧ s.halted = true ∧ s.nextInput.rst = false ∧ step s = .next t) ∧
    (∀ q ∈ [quiet, failing], ∃ t, (rest true [] [q]).Sequenced ∧ (rest true [] [q]).nextInput = q ∧
      step (rest true [] [q]) = .next t) ∧
    (∀ w ∈ [0x8000#16, 0x6000#16, 0xA000#16, 0x0000#16, 0xC000#16],
      (rest true [] [offer w]).Accepting w ∧ (rest true [] [offer w]).Sequenced) ∧
    (∀ ph ∈ [Phase.fill, Phase.copy, Phase.draw], ∀ i ∈ [0#10, 1022#10, 1023#10],
      ∀ q ∈ [quiet, sourceByte 0xFF#8, sinkReady, failing], q.rst = false ∧
      (work ph i 0#13 [] [] [q]).Sequenced) ∧
    (∀ p ∈ [0#13, 8190#13, 8191#13], (work .scan 0#10 p [] [] [quiet]).Sequenced) ∧
    (work .swap 0#10 0#13 [] [] [quiet]).Sequenced ∧
    (8190#13).toNat < 8191 := by
  refine ⟨⟨{ rest true [] [quiet] with halted := true }, _,
    ⟨fun _ => ⟨rfl, rfl⟩, fun _ => rfl, fun _ => rfl, fun _ => rfl⟩, rfl, rfl, rfl⟩,
    fun q hq => ?_, fun w _ => ⟨rest_accepting _ _ _ _, rest_sequenced _ _ _⟩,
    fun ph hph i _ q hq => ⟨?_, work_sequenced.1 ph hph i _⟩, fun p _ => work_sequenced.2.1 p _,
    work_sequenced.2.2 _, by decide⟩
  · simp only [List.mem_cons, List.not_mem_nil, or_false] at hq
    rcases hq with rfl | rfl <;> exact ⟨_, rest_sequenced _ _ _, rfl, rfl⟩
  · revert q; decide

theorem witness_StatusWordShowsBusySeededHalted :
    (work .scan 0#10 8191#13 [] [] []).Sequenced ∧ (rest true [] []).Sequenced :=
  ⟨work_sequenced.2.1 _ _, rest_sequenced _ _ _⟩

theorem witness_ResponsesComeWhenStated :
    (∀ ph ∈ [Phase.idle, Phase.swap, Phase.copy, Phase.scan],
      (work ph 0#10 0#13 [] [] [quiet]).nextInput.rst = false ∧
      (work ph 0#10 0#13 [] [] [quiet]).halted = false ∧ (work ph 0#10 0#13 [] [] [quiet]).phase = ph ∧
      (work ph 0#10 0#13 [] [] [quiet]).nextInput.cmd = none) ∧
    (∀ ph ∈ [Phase.fill, Phase.draw], ∀ i ∈ [0#10, 1022#10, 1023#10],
      (work ph i 0#13 [] [] [failing]).nextInput.rst = false ∧
      (work ph i 0#13 [] [] [failing]).halted = false ∧ (work ph i 0#13 [] [] [failing]).idx = i) ∧
    (∀ w ∈ [0x0000#16, 0x8000#16, 0x6000#16, 0xA000#16, 0xFFFF#16],
      (rest true [] [offer w]).Accepting w ∧ (rest true [] [offer w]).seeded = true) :=
  ⟨by decide, by decide, fun _ _ => ⟨rest_accepting _ _ _ _, rfl⟩⟩

theorem witness_FlagsChangeOnlyWhereStated :
    (∃ t, step { work .fill 1023#10 0#13 [] [] [sourceByte 0xFF#8] with seeded := false } = .next t ∧
      t.seeded ≠ false) ∧
    (∃ t, step (work .draw 0#10 0#13 [] [] [failing]) = .next t ∧ t.halted ≠ false) ∧
    (∃ t, step (work .swap 0#10 0#13 [] [] [quiet]) = .next t ∧ t.cur ≠ false) :=
  ⟨⟨_, rfl, by decide⟩, ⟨_, rfl, by decide⟩, _, rfl, by decide⟩

theorem witness_OnlyTheStatedStepsWriteABuffer :
    (let s := work .fill 1023#10 0#13 [(1023, 0x00#8)] [] [sourceByte 0xFF#8]
     s.nextInput.rst = false ∧ ∃ t, step s = .next t ∧ t.memRead s.cur 1023#10 ≠ s.memRead s.cur 1023#10) ∧
    (let s := work .copy 1023#10 0#13 [(1023, 0x01#8)] [(1023, 0x02#8)] [quiet]
     s.nextInput.rst = false ∧
      ∃ t, step s = .next t ∧ t.memRead (!s.cur) 1023#10 ≠ s.memRead (!s.cur) 1023#10) :=
  ⟨⟨rfl, _, rfl, by decide⟩, rfl, _, rfl, by decide⟩

/-- Two blocks at rest that differ in which buffer is current and in the next buffer's contents. -/
theorem witness_UnobservableStateNeverShows :
    ∃ s t : State, s ≠ t ∧ s.Sequenced ∧ s.seeded = true ∧ s.ObsEq t := by
  refine ⟨rest true (fullMemory 0x81#8) [quiet],
    { rest true [(5, 0x55#8)] [quiet] with buf1 := fullMemory 0x81#8, cur := true },
    fun h => ?_, rest_sequenced _ _ _, rfl, ?_⟩
  · have := congrArg State.cur h
    cases this
  · generalize hm : fullMemory 0x81#8 = m
    have hw : ∀ i : Index, (m.lookup i.toNat).isSome = true := fun i => by
      rw [← hm]; exact fullMemory_lookup _ _ _ (List.mem_range.mpr i.isLt)
    constructor <;> simp [rest, State.reset]
    intro i
    obtain ⟨v, hv⟩ := Option.isSome_iff_exists.mp (hw i)
    simp [State.bytes, State.memRead, State.buf, hv]

end Sys2Proof.Tests
end

section
/-! PROOFS. The sequencer's position `(PHASE, IDX, POS)` after each micro-step (spec/10_state.md R28, R29)
and the status word (R33): O44, O48 and O49. -/

namespace Sys2Proof.Machine

/-! ### The exit tests (R23, R24) -/

theorem lt_lastIndex_iff (i : Index) : i < Config.lastIndex ↔ i.toNat < 1023 := BitVec.lt_def

theorem lt_lastPos_iff (p : ScanPos) : p < Config.lastPos ↔ p.toNat < 8191 := BitVec.lt_def

theorem index_below_or_last (i : Index) : i.toNat < 1023 ∨ i.toNat = 1023 := by
  have := i.isLt
  omega

theorem scanPos_below_or_last (p : ScanPos) : p.toNat < 8191 ∨ p.toNat = 8191 := by
  have := p.isLt
  omega

/-! ### Raster order of the scan (R24) -/

theorem scanCol_toNat (p : ScanPos) : (scanCol p).toNat = p.toNat % 128 := by
  simp [scanCol]

theorem scanRow_toNat (p : ScanPos) : (scanRow p).toNat = p.toNat / 128 := by
  have := p.isLt
  simp only [scanRow, BitVec.extractLsb'_toNat, Nat.shiftRight_eq_div_pow]
  omega

theorem scanPos_succ_toNat {p : ScanPos} (h : p.toNat < 8191) : (p + 1#13).toNat = p.toNat + 1 := by
  rw [BitVec.toNat_add, BitVec.toNat_ofNat]
  omega

theorem scanCol_succ {p : ScanPos} (h : p.toNat < 8191) : scanCol (p + 1#13) = scanCol p + 1#7 := by
  refine BitVec.eq_of_toNat_eq ?_
  simp only [BitVec.toNat_add, scanCol_toNat, scanPos_succ_toNat h, BitVec.toNat_ofNat]
  omega

theorem scanRow_succ {p : ScanPos} (h : p.toNat < 8191) :
    scanRow (p + 1#13) = if scanCol p = 127#7 then scanRow p + 1#6 else scanRow p := by
  have hcol : scanCol p = 127#7 ↔ p.toNat % 128 = 127 := by
    rw [← BitVec.toNat_inj, scanCol_toNat]; rfl
  refine BitVec.eq_of_toNat_eq ?_
  rw [scanRow_toNat, scanPos_succ_toNat h]
  split
  · next hwrap =>
    rw [hcol] at hwrap
    simp only [BitVec.toNat_add, scanRow_toNat, BitVec.toNat_ofNat]
    omega
  · next hwrap =>
    rw [hcol] at hwrap
    rw [scanRow_toNat]
    omega

/-! ### The position after each micro-step -/

theorem fillByte_at_below {s : State} (v : Byte) (h : s.idx.toNat < 1023) :
    (fillByte v s).At .fill (s.idx + 1#10) s.pos := by
  simp [fillByte, State.At, lt_lastIndex_iff, h]

theorem fillByte_at_last {s : State} (v : Byte) (h : s.idx.toNat = 1023) :
    (fillByte v s).At .idle 0#10 s.pos := by
  simp [fillByte, State.At, lt_lastIndex_iff, h]

theorem copyByte_at_below {s : State} (h : s.idx.toNat < 1023) :
    (copyByte s).At .copy (s.idx + 1#10) s.pos := by
  simp [copyByte, State.At, lt_lastIndex_iff, h]

theorem copyByte_at_last {s : State} (h : s.idx.toNat = 1023) : (copyByte s).At .scan 0#10 s.pos := by
  simp [copyByte, State.At, lt_lastIndex_iff, h]

theorem scanCell_at_below {s : State} (h : s.pos.toNat < 8191) :
    (scanCell s).At .scan s.idx (s.pos + 1#13) := by
  simp only [scanCell, lt_lastPos_iff, h, if_true]
  split <;> simp [State.At]

theorem scanCell_at_last {s : State} (h : s.pos.toNat = 8191) : (scanCell s).At .swap s.idx 0#13 := by
  simp only [scanCell, lt_lastPos_iff, h, Nat.lt_irrefl, if_false]
  split <;> simp [State.At]

theorem swapBuffers_at (s : State) : (swapBuffers s).At .idle s.idx s.pos := ⟨rfl, rfl, rfl⟩

theorem drawByte_at_below {s : State} (h : s.idx.toNat < 1023) :
    (drawByte s).At .draw (s.idx + 1#10) s.pos := by
  simp [drawByte, State.At, lt_lastIndex_iff, h]

theorem drawByte_at_last {s : State} (h : s.idx.toNat = 1023) : (drawByte s).At .idle 0#10 s.pos := by
  simp [drawByte, State.At, lt_lastIndex_iff, h]

theorem raiseSinkFail_at_of_idle {s : State} (h : s.phase = .idle) :
    s.raiseSinkFail.At .idle s.idx s.pos := by
  simp [raiseSinkFail_idle, State.At, h]

theorem raiseSinkFail_at_of_draw {s : State} (h : s.phase = .draw) :
    s.raiseSinkFail.At .idle 0#10 s.pos := by
  simp [raiseSinkFail_draw h, State.At]

/-! ### The position after an accepted command -/

theorem exec_fill_at {s t : State} (h : exec .fill s = .next t) : t.At .fill s.idx s.pos := by
  cases h
  exact ⟨rfl, rfl, rfl⟩

theorem exec_step_at {s t : State} (hseed : s.seeded = true) (h : exec .step s = .next t) :
    t.At .copy s.idx s.pos := by
  simp only [exec, execStep, ifSeeded_true _ hseed] at h
  cases h
  exact ⟨rfl, rfl, rfl⟩

theorem exec_draw_at {s t : State} (hseed : s.seeded = true) (h : exec .draw s = .next t) :
    t.At .draw s.idx s.pos := by
  simp only [exec, execDraw, ifSeeded_true _ hseed] at h
  cases h
  exact ⟨rfl, rfl, rfl⟩

/-- Every command but an accepted FILL, STEP or DRAW is executed where the sequencer stands. -/
theorem exec_stays_at {i : Instr} {s t : State} (h : exec i s = .next t) (hfill : i ≠ .fill)
    (hstep : s.seeded = true → i ≠ .step) (hdraw : s.seeded = true → i ≠ .draw) :
    t.At s.phase s.idx s.pos := by
  rcases exec_cases h with ⟨-, rfl⟩ | ⟨x, y, -, -, rfl⟩ | ⟨x, y, -, -, rfl⟩ | ⟨hi, hseed, -⟩ |
    ⟨hi, -⟩ | ⟨hi, hseed, -⟩ | ⟨-, -, -, rfl⟩
  · exact ⟨rfl, rfl, rfl⟩
  · exact ⟨rfl, rfl, rfl⟩
  · simp [State.At]
  · exact absurd hi (hstep hseed)
  · exact absurd hi hfill
  · exact absurd hi (hdraw hseed)
  · exact ⟨rfl, rfl, rfl⟩

theorem exec_halted {i : Instr} {s t : State} (h : exec i s = .next t) : t.halted = s.halted := by
  rcases exec_cases h with ⟨-, rfl⟩ | ⟨x, y, -, -, rfl⟩ | ⟨x, y, -, -, rfl⟩ | ⟨-, -, rfl⟩ |
    ⟨-, rfl⟩ | ⟨-, -, rfl⟩ | ⟨-, -, -, rfl⟩ <;> simp

/-! ### The micro-steps that leave `HALTED` alone -/

@[simp] theorem fillByte_halted (v : Byte) (s : State) : (fillByte v s).halted = s.halted := by
  simp only [fillByte]
  split <;> simp

@[simp] theorem copyByte_halted (s : State) : (copyByte s).halted = s.halted := by
  simp only [copyByte]
  split <;> simp

@[simp] theorem scanCell_halted (s : State) : (scanCell s).halted = s.halted := by
  simp only [scanCell]
  split <;> split <;> simp

@[simp] theorem drawByte_halted (s : State) : (drawByte s).halted = s.halted := by
  simp only [drawByte]
  split <;> simp

/-! ### Positions that meet the sequencer invariant (R28) -/

theorem State.At.sequenced_idle {t : State} (h : t.At .idle 0#10 0#13) : t.Sequenced := by
  obtain ⟨hph, hi, hp⟩ := h
  constructor <;> simp [hph, hi, hp]

theorem State.At.sequenced_swap {t : State} (h : t.At .swap 0#10 0#13) (hh : t.halted = false) :
    t.Sequenced := by
  obtain ⟨hph, hi, hp⟩ := h
  constructor <;> simp [hph, hi, hp, hh]

theorem State.At.sequenced_scan {t : State} {p : ScanPos} (h : t.At .scan 0#10 p)
    (hh : t.halted = false) : t.Sequenced := by
  obtain ⟨hph, hi, -⟩ := h
  constructor <;> simp [hph, hi, hh]

theorem State.At.sequenced_indexed {t : State} {ph : Phase} {i : Index} (h : t.At ph i 0#13)
    (hph : ph = .fill ∨ ph = .copy ∨ ph = .draw) (hh : t.halted = false) : t.Sequenced := by
  obtain ⟨rfl, -, hp⟩ := h
  constructor <;> rcases hph with e | e | e <;> simp [e, hp, hh]

/-- The invariant reads the sequencer's position and `HALTED` only. -/
theorem State.Sequenced.congr {s t : State} (hs : s.Sequenced) (h : t.At s.phase s.idx s.pos)
    (hh : t.halted = s.halted) : t.Sequenced := by
  obtain ⟨hph, hi, hp⟩ := h
  obtain ⟨hrest, hindexed, hscan, hhalted⟩ := hs
  constructor <;> rw [hph] <;> simpa only [hi, hp, hh]

theorem State.Sequenced.consume {s : State} (hs : s.Sequenced) : s.consume.Sequenced :=
  hs.congr (by simp [State.At]) (consume_halted s)

/-- A busy block is not halted. -/
theorem State.Sequenced.running {s : State} (hs : s.Sequenced) (hp : s.phase ≠ .idle) :
    s.halted = false := by
  cases hh : s.halted
  · rfl
  · exact absurd (hs.halted hh) hp

/-! ### Every micro-step keeps the invariant -/

theorem fillByte_sequenced {s : State} (hs : s.Sequenced) (hp : s.phase = .fill) (v : Byte) :
    (fillByte v s).Sequenced := by
  have hpos : s.pos = 0#13 := hs.indexed (.inl hp)
  have hh : (fillByte v s).halted = false := by simpa using hs.running (by simp [hp])
  rcases index_below_or_last s.idx with hi | hi
  · exact (hpos ▸ fillByte_at_below v hi).sequenced_indexed (.inl rfl) hh
  · exact (hpos ▸ fillByte_at_last v hi).sequenced_idle

theorem copyByte_sequenced {s : State} (hs : s.Sequenced) (hp : s.phase = .copy) :
    (copyByte s).Sequenced := by
  have hpos : s.pos = 0#13 := hs.indexed (.inr (.inl hp))
  have hh : (copyByte s).halted = false := by simpa using hs.running (by simp [hp])
  rcases index_below_or_last s.idx with hi | hi
  · exact (hpos ▸ copyByte_at_below hi).sequenced_indexed (.inr (.inl rfl)) hh
  · exact (copyByte_at_last hi).sequenced_scan hh

theorem scanCell_sequenced {s : State} (hs : s.Sequenced) (hp : s.phase = .scan) :
    (scanCell s).Sequenced := by
  have hidx : s.idx = 0#10 := hs.scanning hp
  have hh : (scanCell s).halted = false := by simpa using hs.running (by simp [hp])
  rcases scanPos_below_or_last s.pos with hi | hi
  · exact (hidx ▸ scanCell_at_below hi).sequenced_scan hh
  · exact (hidx ▸ scanCell_at_last hi).sequenced_swap hh

theorem swapBuffers_sequenced {s : State} (hs : s.Sequenced) (hp : s.phase = .swap) :
    (swapBuffers s).Sequenced := by
  obtain ⟨hidx, hpos⟩ := hs.resting (.inr hp)
  exact (hidx ▸ hpos ▸ swapBuffers_at s).sequenced_idle

theorem drawByte_sequenced {s : State} (hs : s.Sequenced) (hp : s.phase = .draw) :
    (drawByte s).Sequenced := by
  have hpos : s.pos = 0#13 := hs.indexed (.inr (.inr hp))
  have hh : (drawByte s).halted = false := by simpa using hs.running (by simp [hp])
  rcases index_below_or_last s.idx with hi | hi
  · exact (hpos ▸ drawByte_at_below hi).sequenced_indexed (.inr (.inr rfl)) hh
  · exact (hpos ▸ drawByte_at_last hi).sequenced_idle

theorem raiseSinkFail_sequenced {s : State} (hs : s.Sequenced) (hp : s.phase = .idle ∨ s.phase = .draw) :
    s.raiseSinkFail.Sequenced := by
  rcases hp with hp | hp
  · obtain ⟨hidx, hpos⟩ := hs.resting (.inl hp)
    exact (hidx ▸ hpos ▸ raiseSinkFail_at_of_idle hp).sequenced_idle
  · have hpos : s.pos = 0#13 := hs.indexed (.inr (.inr hp))
    exact (hpos ▸ raiseSinkFail_at_of_draw hp).sequenced_idle

/-- An accepted command starts its first phase at position 0 or leaves the block at rest. -/
theorem exec_sequenced {i : Instr} {s t : State} (hs : s.Sequenced) (hp : s.phase = .idle)
    (hh : s.halted = false) (h : exec i s = .next t) : t.Sequenced := by
  have hpos : s.pos = 0#13 := (hs.resting (.inl hp)).2
  have hht : t.halted = false := (exec_halted h).trans hh
  by_cases hfill : i = .fill
  · subst hfill
    exact (hpos ▸ exec_fill_at h).sequenced_indexed (.inl rfl) hht
  by_cases hstep : s.seeded = true ∧ i = .step
  · obtain ⟨hseed, rfl⟩ := hstep
    exact (hpos ▸ exec_step_at hseed h).sequenced_indexed (.inr (.inl rfl)) hht
  by_cases hdraw : s.seeded = true ∧ i = .draw
  · obtain ⟨hseed, rfl⟩ := hdraw
    exact (hpos ▸ exec_draw_at hseed h).sequenced_indexed (.inr (.inr rfl)) hht
  · exact hs.congr (exec_stays_at h hfill (not_and.mp hstep) (not_and.mp hdraw)) (exec_halted h)

theorem clock_sequenced {p : PortIn} {s t : State} (hs : s.Sequenced) (h : clock p s = .next t) :
    t.Sequenced := by
  rcases clock_cases h with ⟨-, rfl⟩ | ⟨-, -, rfl⟩ | ⟨-, hh, hrow⟩
  · exact State.At.sequenced_idle ⟨rfl, rfl, rfl⟩
  · exact hs
  · rcases hrow with ⟨hp, -, rfl⟩ | ⟨-, -, -, rfl⟩ | ⟨w, r, -, -, -, -, rfl⟩ | ⟨w, i, hp, -, -, -, hx⟩ |
      ⟨-, -, rfl⟩ | ⟨v, hp, -, rfl⟩ | ⟨hp, rfl⟩ | ⟨hp, rfl⟩ | ⟨hp, rfl⟩ | ⟨hp, -, rfl⟩ |
      ⟨hp, -, -, rfl⟩ | ⟨-, -, -, rfl⟩
    · exact raiseSinkFail_sequenced hs (.inl hp)
    · exact hs
    · exact hs.congr ⟨rfl, rfl, rfl⟩ rfl
    · have hlog : (s.log (.accepted w)).Sequenced := hs.congr ⟨rfl, rfl, rfl⟩ rfl
      exact exec_sequenced hlog hp hh hx
    · exact hs
    · exact fillByte_sequenced hs hp v
    · exact copyByte_sequenced hs hp
    · exact scanCell_sequenced hs hp
    · exact swapBuffers_sequenced hs hp
    · exact raiseSinkFail_sequenced hs (.inr hp)
    · exact drawByte_sequenced hs hp
    · exact hs

theorem step_sequenced {s t : State} (hs : s.Sequenced) (h : step s = .next t) : t.Sequenced :=
  clock_sequenced hs.consume h

theorem reset_sequenced : State.reset.Sequenced := State.At.sequenced_idle ⟨rfl, rfl, rfl⟩

/-- Settles O44: each micro-step ends at a position that meets the invariant. -/
theorem sequencerInvariantHolds : Obligations.SequencerInvariantHolds :=
  ⟨reset_sequenced, fun _ _ => step_sequenced⟩

/-! ### A step by its phase -/

theorem step_accepted {s : State} {w : CmdWord} {i : Instr} (ha : s.Accepting w) (hd : decode w = .ok i) :
    step s = exec i (s.consume.log (.accepted w)) :=
  clock_command ha.rst (by simp [ha.running]) (by simp [ha.idle]) ha.sink ha.offered hd

theorem step_rejected {s : State} {w : CmdWord} {r : Reserved} (ha : s.Accepting w)
    (hd : decode w = .error r) :
    step s = .next ((s.consume.log (.accepted w)).respond .illegal false) :=
  clock_reserved ha.rst (by simp [ha.running]) (by simp [ha.idle]) ha.sink ha.offered hd

/-- A halted block stays as it is short of a reset (R217). -/
theorem step_halted {s : State} (hr : s.nextInput.rst = false) (hh : s.halted = true) :
    step s = .next s.consume :=
  clock_halted hr (by simp [hh])

theorem step_idle_failing {s : State} (hw : s.Working .idle) (hf : s.nextInput.sinkFail = true) :
    step s = .next s.consume.raiseSinkFail := by
  simp [step, clock, phaseStep, idleStep, hw.rst, hw.running, hw.phase, hf]

theorem step_idle_unoffered {s : State} (hw : s.Working .idle) (hf : s.nextInput.sinkFail = false)
    (hc : s.nextInput.cmd = none) : step s = .next s.consume := by
  simp [step, clock, phaseStep, idleStep, hw.rst, hw.running, hw.phase, hf, hc]

theorem step_fill {s : State} (hw : s.Working .fill) : step s = .next (fillStep s.nextInput s.consume) :=
  clock_fill hw.rst (by simp [hw.running]) (by simp [hw.phase])

theorem step_copy {s : State} (hw : s.Working .copy) : step s = .next (copyByte s.consume) :=
  clock_copy hw.rst (by simp [hw.running]) (by simp [hw.phase])

theorem step_scan {s : State} (hw : s.Working .scan) : step s = .next (scanCell s.consume) :=
  clock_scan hw.rst (by simp [hw.running]) (by simp [hw.phase])

theorem step_swap {s : State} (hw : s.Working .swap) : step s = .next (swapBuffers s.consume) :=
  clock_swap hw.rst (by simp [hw.running]) (by simp [hw.phase])

theorem step_draw {s : State} (hw : s.Working .draw) : step s = .next (drawStep s.nextInput s.consume) :=
  clock_draw hw.rst (by simp [hw.running]) (by simp [hw.phase])

/-- In a busy phase that meets the invariant a micro-step of the command is due. -/
theorem State.Sequenced.working {s : State} {ph : Phase} (hs : s.Sequenced)
    (hr : s.nextInput.rst = false) (hp : s.phase = ph) (hbusy : ph ≠ .idle) : s.Working ph :=
  ⟨hr, hs.running (hp ▸ hbusy), hp⟩

/-- A step has one outcome. -/
theorem eq_of_step {s t u : State} (h : step s = .next t) (hu : step s = .next u) : u = t :=
  Host.Outcome.next.inj (hu.symm.trans h)

/-! ### The rows of the table (R29): acceptance -/

section
variable {s t : State} {w : CmdWord} (hs : s.Sequenced) (ha : s.Accepting w) (h : step s = .next t)
include hs ha h

theorem accepted_fill_at (hd : decode w = .ok .fill) : t.At .fill 0#10 0#13 := by
  rw [step_accepted ha hd] at h
  simpa [hs.resting (.inl ha.idle)] using exec_fill_at h

theorem accepted_step_at (hd : decode w = .ok .step) (hseed : s.seeded = true) :
    t.At .copy 0#10 0#13 := by
  rw [step_accepted ha hd] at h
  simpa [hs.resting (.inl ha.idle)] using exec_step_at (by simpa using hseed) h

theorem accepted_draw_at (hd : decode w = .ok .draw) (hseed : s.seeded = true) :
    t.At .draw 0#10 0#13 := by
  rw [step_accepted ha hd] at h
  simpa [hs.resting (.inl ha.idle)] using exec_draw_at (by simpa using hseed) h

/-- NOP, GET, TGL and every word answered with an error leave the block at rest. -/
theorem accepted_other_at (hfill : decode w ≠ .ok .fill) (hstep : s.seeded = true → decode w ≠ .ok .step)
    (hdraw : s.seeded = true → decode w ≠ .ok .draw) : t.At .idle 0#10 0#13 := by
  cases hd : decode w with
  | error r =>
    obtain rfl := eq_of_step h (step_rejected ha hd)
    simp [State.At, ha.idle, hs.resting (.inl ha.idle)]
  | ok i =>
    rw [hd] at hfill hstep hdraw
    rw [step_accepted ha hd] at h
    simpa [ha.idle, hs.resting (.inl ha.idle)] using exec_stays_at h
      (by simpa using hfill) (by simpa using hstep) (by simpa using hdraw)

end

/-! ### The rows of the table (R29): no command accepted -/

section
variable {s t : State} (hs : s.Sequenced) (hr : s.nextInput.rst = false) (h : step s = .next t)
include hr h

theorem halted_at (hh : s.halted = true) : t.At s.phase s.idx s.pos ∧ t.halted = true := by
  obtain rfl := eq_of_step h (step_halted hr hh)
  simp [State.At, hh]

include hs

theorem idle_failing_at (hh : s.halted = false) (hp : s.phase = .idle)
    (hf : s.nextInput.sinkFail = true) : t.At .idle 0#10 0#13 ∧ t.halted = true := by
  obtain rfl := eq_of_step h (step_idle_failing ⟨hr, hh, hp⟩ hf)
  have hat := raiseSinkFail_at_of_idle (s := s.consume) (by simpa using hp)
  exact ⟨by simpa [hs.resting (.inl hp)] using hat, raiseSinkFail_halted _⟩

theorem idle_unoffered_at (hh : s.halted = false) (hp : s.phase = .idle)
    (hf : s.nextInput.sinkFail = false) (hc : s.nextInput.cmd = none) :
    t.At .idle 0#10 0#13 ∧ t.halted = false := by
  obtain rfl := eq_of_step h (step_idle_unoffered ⟨hr, hh, hp⟩ hf hc)
  simp [State.At, hp, hh, hs.resting (.inl hp)]

/-! #### FILL -/

theorem fill_waiting_at (hp : s.phase = .fill) (hv : s.nextInput.rnd = none) : t.At .fill s.idx 0#13 := by
  obtain rfl := eq_of_step h (step_fill (hs.working hr hp nofun))
  simp [fillStep, hv, State.At, hp, hs.indexed (.inl hp)]

theorem fill_below_at (hp : s.phase = .fill) (hv : s.nextInput.rnd.isSome) (hi : s.idx.toNat < 1023) :
    t.At .fill (s.idx + 1#10) 0#13 := by
  obtain rfl := eq_of_step h (step_fill (hs.working hr hp nofun))
  obtain ⟨v, hv⟩ := Option.isSome_iff_exists.mp hv
  simpa [fillStep, hv, hs.indexed (.inl hp)] using fillByte_at_below (s := s.consume) v (by simpa using hi)

theorem fill_last_at (hp : s.phase = .fill) (hv : s.nextInput.rnd.isSome) (hi : s.idx.toNat = 1023) :
    t.At .idle 0#10 0#13 := by
  obtain rfl := eq_of_step h (step_fill (hs.working hr hp nofun))
  obtain ⟨v, hv⟩ := Option.isSome_iff_exists.mp hv
  simpa [fillStep, hv, hs.indexed (.inl hp)] using fillByte_at_last (s := s.consume) v (by simpa using hi)

/-! #### STEP -/

theorem copy_below_at (hp : s.phase = .copy) (hi : s.idx.toNat < 1023) :
    t.At .copy (s.idx + 1#10) 0#13 := by
  obtain rfl := eq_of_step h (step_copy (hs.working hr hp nofun))
  simpa [hs.indexed (.inr (.inl hp))] using copyByte_at_below (s := s.consume) (by simpa using hi)

theorem copy_last_at (hp : s.phase = .copy) (hi : s.idx.toNat = 1023) : t.At .scan 0#10 0#13 := by
  obtain rfl := eq_of_step h (step_copy (hs.working hr hp nofun))
  simpa [hs.indexed (.inr (.inl hp))] using copyByte_at_last (s := s.consume) (by simpa using hi)

theorem scan_below_at (hp : s.phase = .scan) (hi : s.pos.toNat < 8191) :
    t.At .scan 0#10 (s.pos + 1#13) := by
  obtain rfl := eq_of_step h (step_scan (hs.working hr hp nofun))
  simpa [hs.scanning hp] using scanCell_at_below (s := s.consume) (by simpa using hi)

theorem scan_last_at (hp : s.phase = .scan) (hi : s.pos.toNat = 8191) : t.At .swap 0#10 0#13 := by
  obtain rfl := eq_of_step h (step_scan (hs.working hr hp nofun))
  simpa [hs.scanning hp] using scanCell_at_last (s := s.consume) (by simpa using hi)

theorem swap_at (hp : s.phase = .swap) : t.At .idle 0#10 0#13 := by
  obtain rfl := eq_of_step h (step_swap (hs.working hr hp nofun))
  simpa [hs.resting (.inr hp)] using swapBuffers_at s.consume

/-! #### DRAW -/

theorem draw_waiting_at (hp : s.phase = .draw) (hf : s.nextInput.sinkFail = false)
    (hrdy : s.nextInput.pixReady = false) : t.At .draw s.idx 0#13 := by
  obtain rfl := eq_of_step h (step_draw (hs.working hr hp nofun))
  simp [drawStep, hf, hrdy, State.At, hp, hs.indexed (.inr (.inr hp))]

theorem draw_below_at (hp : s.phase = .draw) (hf : s.nextInput.sinkFail = false)
    (hrdy : s.nextInput.pixReady = true) (hi : s.idx.toNat < 1023) : t.At .draw (s.idx + 1#10) 0#13 := by
  obtain rfl := eq_of_step h (step_draw (hs.working hr hp nofun))
  simpa [drawStep, hf, hrdy, hs.indexed (.inr (.inr hp))] using
    drawByte_at_below (s := s.consume) (by simpa using hi)

theorem draw_last_at (hp : s.phase = .draw) (hf : s.nextInput.sinkFail = false)
    (hrdy : s.nextInput.pixReady = true) (hi : s.idx.toNat = 1023) : t.At .idle 0#10 0#13 := by
  obtain rfl := eq_of_step h (step_draw (hs.working hr hp nofun))
  simpa [drawStep, hf, hrdy, hs.indexed (.inr (.inr hp))] using
    drawByte_at_last (s := s.consume) (by simpa using hi)

theorem draw_failing_at (hp : s.phase = .draw) (hf : s.nextInput.sinkFail = true) :
    t.At .idle 0#10 0#13 ∧ t.halted = true := by
  obtain rfl := eq_of_step h (step_draw (hs.working hr hp nofun))
  have hat := raiseSinkFail_at_of_draw (s := s.consume) (by simpa using hp)
  simpa [drawStep, hf, hs.indexed (.inr (.inr hp))] using hat

end

/-- Settles O48: each row of the table is one lemma above, and the scan goes in raster order. -/
theorem sequencerTransitionsAreTheTable : Obligations.SequencerTransitionsAreTheTable :=
  ⟨fun _ _ hs hr h =>
    ⟨halted_at hr h, idle_failing_at hs hr h, idle_unoffered_at hs hr h,
      fun _ ha => accepted_fill_at hs ha h, fun _ ha => accepted_step_at hs ha h,
      fun _ ha => accepted_draw_at hs ha h, fun _ ha => accepted_other_at hs ha h,
      fill_waiting_at hs hr h, fill_below_at hs hr h, fill_last_at hs hr h,
      copy_below_at hs hr h, copy_last_at hs hr h, scan_below_at hs hr h, scan_last_at hs hr h,
      swap_at hs hr h, draw_waiting_at hs hr h, draw_below_at hs hr h, draw_last_at hs hr h,
      draw_failing_at hs hr h⟩,
    fun _ hp => ⟨scanCol_succ hp, scanRow_succ hp⟩⟩

/-! ### The status word (R33) -/

theorem threeBits_getLsbD (a b c : Bool) :
    let w : BitVec 3 := BitVec.ofBool a ++ BitVec.ofBool b ++ BitVec.ofBool c
    w.getLsbD 0 = c ∧ w.getLsbD 1 = b ∧ w.getLsbD 2 = a := by
  revert a b c
  decide

theorem status_bits (s : State) :
    s.status.getLsbD 0 = decide (s.phase ≠ .idle) ∧ s.status.getLsbD 1 = s.seeded ∧
      s.status.getLsbD 2 = s.halted :=
  threeBits_getLsbD s.halted s.seeded s.busy

theorem not_busy_and_halted {s : State} (hs : s.Sequenced) :
    ¬ (s.status.getLsbD 0 = true ∧ s.status.getLsbD 2 = true) := by
  obtain ⟨h0, -, h2⟩ := status_bits s
  rintro ⟨hbusy, hhalted⟩
  rw [h0, decide_eq_true_iff] at hbusy
  rw [h2] at hhalted
  exact hbusy (hs.halted hhalted)

/-- Settles O49: bit by bit, and R28 keeps a halted block in IDLE. -/
theorem statusWordShowsBusySeededHalted : Obligations.StatusWordShowsBusySeededHalted :=
  ⟨status_bits, rfl, fun _ => not_busy_and_halted⟩

end Sys2Proof.Machine
end

section
/-! PROOFS. The layout of the cells in a buffer as arithmetic (spec/20_memory.md R50, R51), and `get` and
`toggle` on a buffer (R52, R53): O5 and O6. -/

namespace Sys2Proof.Machine

/-! ### Index and bit as numbers (R50, R51) -/

theorem toNat_append_eq_add {m n : Nat} (a : BitVec m) (b : BitVec n) :
    (a ++ b).toNat = a.toNat * 2 ^ n + b.toNat := by
  rw [BitVec.toNat_append, ← Nat.shiftLeft_add_eq_or_of_lt b.isLt, Nat.shiftLeft_eq]

theorem cellIndex_toNat (x : Col) (y : Row) :
    (cellIndex x y).toNat = x.toNat + y.toNat / 8 * 128 := by
  have hpage : (y.extractLsb' 3 3).toNat = y.toNat / 8 := by
    have hy := y.isLt
    rw [BitVec.extractLsb'_toNat, Nat.shiftRight_eq_div_pow]
    omega
  rw [cellIndex, toNat_append_eq_add, hpage]
  omega

theorem cellBit_toNat (y : Row) : (cellBit y).toNat = y.toNat % 8 := BitVec.extractLsb'_toNat ..

theorem columnOf_toNat (i : Index) : (columnOf i).toNat = i.toNat % 128 := BitVec.extractLsb'_toNat ..

theorem rowOf_toNat (i : Index) (k : BitPos) : (rowOf i k).toNat = i.toNat / 128 * 8 + k.toNat := by
  have hpage : (i.extractLsb' 7 3).toNat = i.toNat / 128 := by
    have hi := i.isLt
    rw [BitVec.extractLsb'_toNat, Nat.shiftRight_eq_div_pow]
    omega
  rw [rowOf, toNat_append_eq_add, hpage]
  omega

theorem cellIndex_le (x : Col) (y : Row) : (cellIndex x y).toNat ≤ 1023 :=
  Nat.le_of_lt_succ (cellIndex x y).isLt

/-- The inverse is R51's: bit `k` of byte `i` is the cell `(columnOf i, rowOf i k)`. -/
theorem cellLayout_bijective :
    Function.Bijective (fun c : Col × Row => (cellIndex c.1 c.2, cellBit c.2)) :=
  Function.bijective_iff_has_inverse.mpr
    ⟨fun b => (columnOf b.1, rowOf b.1 b.2),
      fun c => Prod.ext (columnOf_cellIndex c.1 c.2) (rowOf_cellIndex c.1 c.2),
      fun b => Prod.ext (cellIndex_of b.1 b.2) (cellBit_rowOf b.1 b.2)⟩

theorem getCell_eq_getLsbD (B : Buffer) (x : Col) (y : Row) :
    getCell B x y = (B (cellIndex x y)).getLsbD (y.toNat % 8) := by
  rw [getCell, byteBit_eq_getLsbD, cellBit_toNat]

/-- Settles O5: the bit fields as arithmetic, and the inverse of R51 on either side. -/
theorem cellLayoutIsABijection : Obligations.CellLayoutIsABijection :=
  ⟨fun x y => ⟨cellIndex_toNat x y, cellBit_toNat y, by rw [BitVec.extractLsb'_eq_self]; rfl, rfl,
      cellIndex_le x y⟩,
    by decide, cellLayout_bijective,
    fun i k => ⟨cellIndex_of i k, cellBit_rowOf i k, columnOf_toNat i, rowOf_toNat i k⟩,
    getCell_eq_getLsbD⟩

/-! ### `get` and `toggle` on a byte (R52, R53) -/

theorem shiftRight_and_one (v : Byte) (n : Nat) :
    (v >>> n) &&& 1#8 = (BitVec.ofBool (v.getLsbD n)).setWidth 8 := by
  rw [BitVec.and_one_eq_setWidth_ofBool_getLsbD, BitVec.getLsbD_ushiftRight, Nat.add_zero]

theorem toggleCell_at (B : Buffer) (x : Col) (y : Row) :
    toggleCell B x y (cellIndex x y) = B (cellIndex x y) ^^^ (1#8 <<< (y.toNat % 8)) := by
  rw [toggleCell, if_pos rfl, flipBit, cellBit_toNat]

theorem toggleCell_other (B : Buffer) (x : Col) (y : Row) {j : Index} (h : j ≠ cellIndex x y) :
    toggleCell B x y j = B j :=
  if_neg h

/-! ### The laws of toggling (R53) -/

/-- A toggle xors the grid with the one cell toggled; the laws below are those of xor. -/
theorem getCell_toggleCell_eq_xor (B : Buffer) (x x' : Col) (y y' : Row) :
    getCell (toggleCell B x y) x' y' = (getCell B x' y' ^^ decide ((x', y') = (x, y))) := by
  rw [getCell_toggleCell]
  by_cases h : x' = x ∧ y' = y
  · obtain ⟨rfl, rfl⟩ := h
    simp
  · simp [h]

theorem getCell_toggleCell_self (B : Buffer) (x : Col) (y : Row) :
    getCell (toggleCell B x y) x y = !(getCell B x y) := by
  simp [getCell_toggleCell_eq_xor]

theorem getCell_toggleCell_other (B : Buffer) {x x' : Col} {y y' : Row} (h : (x', y') ≠ (x, y)) :
    getCell (toggleCell B x y) x' y' = getCell B x' y' := by
  rw [getCell_toggleCell_eq_xor, decide_eq_false h, Bool.xor_false]

theorem toggleCell_toggleCell (B : Buffer) (x : Col) (y : Row) :
    toggleCell (toggleCell B x y) x y = B := by
  refine buffer_ext fun a b => ?_
  rw [getCell_toggleCell_eq_xor, getCell_toggleCell_eq_xor, Bool.xor_assoc, Bool.xor_self,
    Bool.xor_false]

theorem toggleCell_comm (B : Buffer) (x x' : Col) (y y' : Row) :
    toggleCell (toggleCell B x y) x' y' = toggleCell (toggleCell B x' y') x y := by
  refine buffer_ext fun a b => ?_
  simp only [getCell_toggleCell_eq_xor, Bool.xor_right_comm]

/-- Settles O6: the two byte equations of R52 and R53, then the laws of xor on the grid. -/
theorem getAndToggleOfABuffer : Obligations.GetAndToggleOfABuffer := fun B x x' y y' =>
  ⟨by rw [getCell_eq_getLsbD, shiftRight_and_one], toggleCell_at B x y,
    fun _ => toggleCell_other B x y, getCell_toggleCell_self B x y, getCell_toggleCell_other B,
    toggleCell_toggleCell B x y, toggleCell_comm B x x' y y'⟩

end Sys2Proof.Machine
end

section
/-! PROOFS. Decoding and encoding of command words as arithmetic (spec/30_encoding.md R81 to R84): O2. -/

namespace Sys2Proof

/-! ### The fields as numbers (R81, R84) -/

theorem opField_toNat (w : CmdWord) : (opField w).toNat = w.toNat / 8192 := by
  have := w.isLt
  rw [opField, BitVec.extractLsb'_toNat, Nat.shiftRight_eq_div_pow]
  omega

theorem lowField_toNat (w : CmdWord) : (lowField w).toNat = w.toNat % 8192 := BitVec.extractLsb'_toNat ..

theorem xField_eq_ofNat (w : CmdWord) : xField w = BitVec.ofNat 7 (w.toNat % 128) := by
  refine BitVec.eq_of_toNat_eq ?_
  rw [xField, BitVec.extractLsb'_toNat, Nat.shiftRight_zero, BitVec.toNat_ofNat]
  omega

theorem yField_eq_ofNat (w : CmdWord) : yField w = BitVec.ofNat 6 (w.toNat / 128 % 64) := by
  refine BitVec.eq_of_toNat_eq ?_
  rw [yField, BitVec.extractLsb'_toNat, Nat.shiftRight_eq_div_pow, BitVec.toNat_ofNat]
  omega

theorem opField_eq_iff (w : CmdWord) (op : BitVec 3) : opField w = op ↔ w.toNat / 8192 = op.toNat := by
  rw [← BitVec.toNat_inj, opField_toNat]

theorem lowField_eq_zero_iff (w : CmdWord) : lowField w = 0#13 ↔ w.toNat % 8192 = 0 := by
  rw [← BitVec.toNat_inj, lowField_toNat]
  rfl

theorem packWord_toNat (op : BitVec 3) (y : Row) (x : Col) :
    (packWord op y x).toNat = op.toNat * 8192 + y.toNat * 128 + x.toNat := by
  rw [packWord, Machine.toNat_append_eq_add, Machine.toNat_append_eq_add]
  omega

theorem lowField_packWord_zero (op : BitVec 3) : lowField (packWord op 0#6 0#7) = 0#13 := by
  rw [lowField_eq_zero_iff, packWord_toNat]
  simp

/-! ### Decoding, a case per row of the opcode map (R84) -/

/-- The rows of the opcode map without operands: the opcode and its command. -/
def bareRows : List (BitVec 3 × Instr) := [(0#3, .nop), (3#3, .step), (4#3, .fill), (5#3, .draw)]

theorem decode_bare {w : CmdWord} {i : Instr} (h : (opField w, i) ∈ bareRows) : decode w = bare w i := by
  simp only [bareRows, List.mem_cons, Prod.mk.injEq, List.not_mem_nil, or_false] at h
  rcases h with ⟨ho, rfl⟩ | ⟨ho, rfl⟩ | ⟨ho, rfl⟩ | ⟨ho, rfl⟩ <;> simp [decode, ho]

theorem decode_get {w : CmdWord} (h : opField w = 1#3) : decode w = .ok (.get (xField w) (yField w)) := by
  simp [decode, h]

theorem decode_tgl {w : CmdWord} (h : opField w = 2#3) : decode w = .ok (.tgl (xField w) (yField w)) := by
  simp [decode, h]

theorem decode_opcode {w : CmdWord} (h : opField w = 6#3 ∨ opField w = 7#3) :
    decode w = .error (.opcode (opField w)) := by
  rcases h with h | h <;> simp [decode, h]

theorem bare_ok {w : CmdWord} (i : Instr) (h : lowField w = 0#13) : bare w i = .ok i := if_pos h

theorem bare_error {w : CmdWord} (i : Instr) (h : lowField w ≠ 0#13) :
    bare w i = .error (.operandBits (opField w)) := if_neg h

/-- A word of a row without operands whose low bits are 0. -/
theorem decode_bareRow {w : CmdWord} {op : BitVec 3} {i : Instr} (hrow : (op, i) ∈ bareRows)
    (hop : w.toNat / 8192 = op.toNat) (hlow : w.toNat % 8192 = 0) : decode w = .ok i := by
  obtain rfl := (opField_eq_iff w op).mpr hop
  rw [decode_bare hrow, bare_ok i ((lowField_eq_zero_iff w).mpr hlow)]

theorem opcode_mem_bareRows (op : BitVec 3) (h : op.toNat ∈ [0, 3, 4, 5]) : op ∈ bareRows.map Prod.fst := by
  revert op
  decide

theorem decode_operandBits {w : CmdWord} (hop : w.toNat / 8192 ∈ [0, 3, 4, 5])
    (hlow : w.toNat % 8192 ≠ 0) : ∃ r, decode w = .error r := by
  rw [← opField_toNat] at hop
  obtain ⟨⟨op, i⟩, hrow, hop'⟩ := List.mem_map.mp (opcode_mem_bareRows _ hop)
  obtain rfl : op = opField w := hop'
  exact ⟨_, (decode_bare hrow).trans (bare_error i (mt (lowField_eq_zero_iff w).mp hlow))⟩

/-! ### Encoding, and the round trip (R84) -/

theorem decode_packWord_zero {op : BitVec 3} {i : Instr} (h : (op, i) ∈ bareRows) :
    decode (packWord op 0#6 0#7) = .ok i := by
  rw [decode_bare (by rwa [opField_packWord]), bare_ok i (lowField_packWord_zero op)]

theorem decode_encode (i : Instr) : decode (encode i) = .ok i := by
  cases i with
  | nop => exact decode_packWord_zero (by simp [bareRows])
  | get x y => rw [encode, decode_get (opField_packWord ..), xField_packWord, yField_packWord]
  | tgl x y => rw [encode, decode_tgl (opField_packWord ..), xField_packWord, yField_packWord]
  | step => exact decode_packWord_zero (by simp [bareRows])
  | fill => exact decode_packWord_zero (by simp [bareRows])
  | draw => exact decode_packWord_zero (by simp [bareRows])

theorem encode_injective : Function.Injective encode := fun i j h =>
  Except.ok.inj (by rw [← decode_encode i, h, decode_encode])

/-- Settles O2: the fields as numbers, a row of the map at a time, then the round trip of each command. -/
theorem decodeFollowsTheFieldsAndInvertsEncode : Obligations.DecodeFollowsTheFieldsAndInvertsEncode :=
  ⟨fun w =>
    ⟨decode_bareRow (op := 0#3) (by simp [bareRows]),
      fun h => by rw [decode_get ((opField_eq_iff w 1#3).mpr h), xField_eq_ofNat, yField_eq_ofNat],
      fun h => by rw [decode_tgl ((opField_eq_iff w 2#3).mpr h), xField_eq_ofNat, yField_eq_ofNat],
      decode_bareRow (op := 3#3) (by simp [bareRows]), decode_bareRow (op := 4#3) (by simp [bareRows]),
      decode_bareRow (op := 5#3) (by simp [bareRows]), decode_operandBits,
      fun h => ⟨_, decode_opcode (h.imp (opField_eq_iff w 6#3).mpr (opField_eq_iff w 7#3).mpr)⟩⟩,
    rfl, fun x y => packWord_toNat 1#3 y x, fun x y => packWord_toNat 2#3 y x, rfl, rfl, rfl,
    decode_encode, encode_injective⟩

end Sys2Proof
end

section
/-! PROOFS. The idle block without a command (spec/30_encoding.md R95), and the micro-steps in which a
command is answered (R91): O37 and O50. -/

namespace Sys2Proof.Machine

/-! ### The idle block without a command (R95) -/

/-- Settles O37: each such step only uses up its input, so the rest of the run starts from the same block. -/
theorem idleWithoutACommandChangesNothing : Obligations.IdleWithoutACommandChangesNothing := by
  intro s n hp hh hr hquiet
  induction n generalizing s with
  | zero => rfl
  | succ n ih =>
    obtain ⟨hrst, hrest⟩ := noReset_succ hr
    obtain ⟨⟨hsink, hcmd⟩, hquiet'⟩ := List.forall_mem_cons.mp hquiet
    rw [run_succ n (step_idle_unoffered ⟨hrst, hh, hp⟩ hsink hcmd)]
    exact ih s.consume (by simp [hp]) (by simp [hh]) hrest hquiet'

/-! ### The events of each micro-step -/

@[simp] theorem fillByte_trace (v : Byte) (s : State) : (fillByte v s).trace =
    s.trace ++ .taken v :: if s.idx.toNat = 1023 then [.response 0x0#4] else [] := by
  rcases index_below_or_last s.idx with h | h
  · simp [fillByte, lt_lastIndex_iff, h, h.ne]
  · simp [fillByte, lt_lastIndex_iff, h]

@[simp] theorem copyByte_trace (s : State) : (copyByte s).trace = s.trace := by
  simp only [copyByte]
  split <;> simp

@[simp] theorem scanCell_trace (s : State) : (scanCell s).trace = s.trace := by
  simp only [scanCell]
  split <;> split <;> simp

@[simp] theorem swapBuffers_trace (s : State) : (swapBuffers s).trace = s.trace ++ [.response 0x0#4] := rfl

@[simp] theorem drawByte_trace (s : State) : (drawByte s).trace =
    s.trace ++ .sent s.idx (s.memRead s.cur s.idx) ::
      if s.idx.toNat = 1023 then [.response 0x0#4] else [] := by
  rcases index_below_or_last s.idx with h | h
  · simp [drawByte, lt_lastIndex_iff, h, h.ne]
  · simp [drawByte, lt_lastIndex_iff, h]

@[simp] theorem raiseSinkFail_trace (s : State) : s.raiseSinkFail.trace =
    s.trace ++ .sinkFailed :: if s.phase = .draw then [.response 0x6#4] else [] := by
  by_cases h : s.phase = .draw
  · simp [raiseSinkFail_draw h, h]
  · simp [raiseSinkFail_idle h, h]

/-- An accepted FILL, and STEP or DRAW of a seeded block, is not answered yet. -/
theorem exec_trace_of_started {i : Instr} {s t : State} (h : exec i s = .next t)
    (hi : i = .fill ∨ s.seeded = true ∧ (i = .step ∨ i = .draw)) : t.trace = s.trace := by
  rcases hi with rfl | ⟨hseed, rfl | rfl⟩
  · cases h
    rfl
  · simp only [exec, execStep, ifSeeded_true _ hseed] at h
    cases h
    rfl
  · simp only [exec, execDraw, ifSeeded_true _ hseed] at h
    cases h
    rfl

/-- Any other command is answered once, at its acceptance. -/
theorem exec_trace_of_answered {i : Instr} {s t : State} (h : exec i s = .next t) (hfill : i ≠ .fill)
    (hstep : s.seeded = true → i ≠ .step) (hdraw : s.seeded = true → i ≠ .draw) :
    ∃ r, t.trace = s.trace ++ [.response r] := by
  rcases exec_cases h with ⟨-, rfl⟩ | ⟨x, y, -, -, rfl⟩ | ⟨x, y, -, -, rfl⟩ | ⟨hi, hseed, -⟩ |
    ⟨hi, -⟩ | ⟨hi, hseed, -⟩ | ⟨-, -, -, rfl⟩
  · exact ⟨_, rfl⟩
  · exact ⟨_, rfl⟩
  · exact ⟨rspWord .ok false, by simp⟩
  · exact absurd hi (hstep hseed)
  · exact absurd hi hfill
  · exact absurd hi (hdraw hseed)
  · exact ⟨_, rfl⟩

/-! ### The record of events only grows -/

theorem exec_trace_grows {i : Instr} {s t : State} (h : exec i s = .next t) :
    ∃ es, t.trace = s.trace ++ es := by
  by_cases hi : i = .fill ∨ s.seeded = true ∧ (i = .step ∨ i = .draw)
  · exact ⟨[], by simp [exec_trace_of_started h hi]⟩
  · obtain ⟨r, hr⟩ := exec_trace_of_answered h (fun e => hi (.inl e))
      (fun hs e => hi (.inr ⟨hs, .inl e⟩)) (fun hs e => hi (.inr ⟨hs, .inr e⟩))
    exact ⟨_, hr⟩

theorem clock_trace_grows {p : PortIn} {s t : State} (h : clock p s = .next t) :
    ∃ es, t.trace = s.trace ++ es := by
  rcases clock_cases h with ⟨-, rfl⟩ | ⟨-, -, rfl⟩ | ⟨-, -, hrow⟩
  · exact ⟨_, rfl⟩
  · exact ⟨[], by simp⟩
  · rcases hrow with ⟨-, -, rfl⟩ | ⟨-, -, -, rfl⟩ | ⟨w, r, -, -, -, -, rfl⟩ | ⟨w, i, -, -, -, -, hx⟩ |
      ⟨-, -, rfl⟩ | ⟨v, -, -, rfl⟩ | ⟨-, rfl⟩ | ⟨-, rfl⟩ | ⟨-, rfl⟩ | ⟨-, -, rfl⟩ | ⟨-, -, -, rfl⟩ |
      ⟨-, -, -, rfl⟩
    -- every row but the accepted command has its events in its trace lemma
    any_goals simp
    obtain ⟨es, hes⟩ := exec_trace_grows hx
    exact ⟨.accepted w :: es, by simp [hes]⟩

theorem step_trace_grows {s t : State} (h : step s = .next t) : ∃ es, t.trace = s.trace ++ es := by
  simpa using clock_trace_grows h

/-! ### The responses of a step -/

@[simp] theorem responsesOf_nil : responsesOf [] = [] := rfl
@[simp] theorem responsesOf_response (r : RspWord) (es : List Event) :
    responsesOf (.response r :: es) = r :: responsesOf es := rfl
@[simp] theorem responsesOf_accepted (w : CmdWord) (es : List Event) :
    responsesOf (.accepted w :: es) = responsesOf es := rfl
@[simp] theorem responsesOf_taken (v : Byte) (es : List Event) :
    responsesOf (.taken v :: es) = responsesOf es := rfl
@[simp] theorem responsesOf_sent (i : Index) (v : Byte) (es : List Event) :
    responsesOf (.sent i v :: es) = responsesOf es := rfl
@[simp] theorem responsesOf_sinkFailed (es : List Event) :
    responsesOf (.sinkFailed :: es) = responsesOf es := rfl

/-- The responses recorded in `t` beyond the record of `s`. -/
def newResponses (s t : State) : List RspWord := responsesOf (t.trace.drop s.trace.length)

theorem newResponses_eq {s t : State} {es : List Event} (h : t.trace = s.trace ++ es) :
    newResponses s t = responsesOf es := by
  rw [newResponses, h, List.drop_left]

/-! ### When a command is answered (R91): acceptance -/

section
variable {s t : State} {w : CmdWord} (ha : s.Accepting w) (h : step s = .next t)
include ha h

theorem accepted_answered (hfill : decode w ≠ .ok .fill) (hstep : s.seeded = true → decode w ≠ .ok .step)
    (hdraw : s.seeded = true → decode w ≠ .ok .draw) : (newResponses s t).length = 1 := by
  cases hd : decode w with
  | error r =>
    obtain rfl := eq_of_step h (step_rejected ha hd)
    rw [newResponses_eq (es := [.accepted w, .response 0x2#4]) (by simp)]
    rfl
  | ok i =>
    rw [hd] at hfill hstep hdraw
    rw [step_accepted ha hd] at h
    obtain ⟨r, hr⟩ := exec_trace_of_answered h (by simpa using hfill) (by simpa using hstep)
      (by simpa using hdraw)
    rw [newResponses_eq (es := [.accepted w, .response r]) (by simp [hr])]
    rfl

theorem accepted_started {i : Instr} (hd : decode w = .ok i)
    (hi : i = .fill ∨ s.seeded = true ∧ (i = .step ∨ i = .draw)) : newResponses s t = [] := by
  rw [step_accepted ha hd] at h
  rw [newResponses_eq (es := [.accepted w]) (by simp [exec_trace_of_started h (by simpa using hi)])]
  rfl

end

/-! ### When a command is answered (R91): no command accepted -/

section
variable {s t : State} (hr : s.nextInput.rst = false) (hh : s.halted = false) (h : step s = .next t)
include hr hh h

theorem idle_newResponses (hp : s.phase = .idle)
    (hno : s.nextInput.sinkFail = true ∨ s.nextInput.cmd = none) : newResponses s t = [] := by
  cases hf : s.nextInput.sinkFail with
  | true =>
    obtain rfl := eq_of_step h (step_idle_failing ⟨hr, hh, hp⟩ hf)
    rw [newResponses_eq (es := [.sinkFailed]) (by simp [hp])]
    rfl
  | false =>
    obtain rfl := eq_of_step h (step_idle_unoffered ⟨hr, hh, hp⟩ hf (by simpa [hf] using hno))
    rw [newResponses_eq (es := []) (by simp)]
    rfl

theorem fill_newResponses (hp : s.phase = .fill) : newResponses s t =
    if s.nextInput.rnd.isSome ∧ s.idx.toNat = 1023 then [0x0#4] else [] := by
  obtain rfl := eq_of_step h (step_fill ⟨hr, hh, hp⟩)
  cases hv : s.nextInput.rnd with
  | none => simp [newResponses, fillStep, hv]
  | some v =>
    simp [newResponses, fillStep, hv, apply_ite responsesOf]

theorem copy_or_scan_newResponses (hp : s.phase = .copy ∨ s.phase = .scan) : newResponses s t = [] := by
  rcases hp with hp | hp
  · obtain rfl := eq_of_step h (step_copy ⟨hr, hh, hp⟩)
    simp [newResponses]
  · obtain rfl := eq_of_step h (step_scan ⟨hr, hh, hp⟩)
    simp [newResponses]

theorem swap_newResponses (hp : s.phase = .swap) : newResponses s t = [0x0#4] := by
  obtain rfl := eq_of_step h (step_swap ⟨hr, hh, hp⟩)
  simp [newResponses]

theorem draw_newResponses (hp : s.phase = .draw) : newResponses s t =
    if s.nextInput.sinkFail = true then [0x6#4]
    else if s.nextInput.pixReady = true ∧ s.idx.toNat = 1023 then [0x0#4] else [] := by
  obtain rfl := eq_of_step h (step_draw ⟨hr, hh, hp⟩)
  cases hf : s.nextInput.sinkFail with
  | true => simp [newResponses, drawStep, hf, hp]
  | false =>
    cases hrdy : s.nextInput.pixReady with
    | true => simp [newResponses, drawStep, hf, hrdy, apply_ite responsesOf]
    | false => simp [newResponses, drawStep, hf, hrdy]

end

/-- Settles O50: the record of events only grows, and each clause is one lemma above. -/
theorem responsesComeWhenStated : Obligations.ResponsesComeWhenStated := by
  intro s t hr hh h
  obtain ⟨es, hes⟩ := step_trace_grows h
  refine ⟨es, hes, ?_⟩
  rw [← newResponses_eq hes]
  exact ⟨fun _ ha => accepted_answered ha h, fun _ ha hd => accepted_started ha h hd (.inl rfl),
    fun _ ha hs hd => hd.elim (fun hd => accepted_started ha h hd (.inr ⟨hs, .inl rfl⟩))
      fun hd => accepted_started ha h hd (.inr ⟨hs, .inr rfl⟩),
    idle_newResponses hr hh h, fill_newResponses hr hh h, copy_or_scan_newResponses hr hh h,
    swap_newResponses hr hh h, draw_newResponses hr hh h⟩

end Sys2Proof.Machine
end

section
/-! PROOFS. The Bit-Grid commands (spec/40_bitgrid_ops.md): reading a cell back (R113, R116), and the two
kinds of micro-step of FILL (R118, R119): O18, O20, O24 and O25. -/

namespace Sys2Proof.Machine

/-! ### GET and TGL on a seeded grid (R112, R114) -/

theorem exec_get_seeded {s : State} (x : Col) (y : Row) (h : s.seeded = true) :
    exec (.get x y) s = .next (s.respond .ok (getCell (s.bytes s.cur) x y)) := by
  simp only [exec, execGet, ifSeeded_true _ h]
  rfl

theorem exec_tgl_seeded {s : State} (x : Col) (y : Row) (h : s.seeded = true) :
    exec (.tgl x y) s = .next ((s.toggleAt s.cur x y).respond .ok false) := by
  simp only [exec, execTgl, ifSeeded_true _ h]

/-- Settles O18: the response word of code 0 is `q` itself. -/
theorem getAnswersTheCellOfTheCurrentGrid : Obligations.GetAnswersTheCellOfTheCurrentGrid := by
  intro s x y hseed
  rw [exec_get_seeded x y hseed, ← rspWord_ok]
  rfl

/-- GET, as a proof about a run of commands uses it: the answer, and that a further command finds the same
grid. -/
theorem exec_get_answers {s : State} {x : Col} {y : Row} {q : Bool} (hseed : s.seeded = true)
    (hcell : getCell (s.bytes s.cur) x y = q) :
    ∃ t, exec (.get x y) s = .next t ∧ t.trace = s.trace ++ [.response (if q then 0x1#4 else 0x0#4)] ∧
      t.seeded = true ∧ t.bytes t.cur = s.bytes s.cur := by
  subst hcell
  refine ⟨_, exec_get_seeded x y hseed, ?_, hseed, rfl⟩
  rw [respond_trace, rspWord_ok]

/-- TGL, as a proof about a run of commands uses it: a further command finds the grid toggled. -/
theorem exec_tgl_toggles {s : State} (x : Col) (y : Row) (hseed : s.seeded = true) :
    ∃ t, exec (.tgl x y) s = .next t ∧ t.seeded = true ∧
      t.bytes t.cur = toggleCell (s.bytes s.cur) x y :=
  ⟨_, exec_tgl_seeded x y hseed, by simpa using hseed, by simp [toggleAt_bytes_same]⟩

/-- Settles O20: the first TGL makes the cell `b`, and the second one gives the grid back (R53). -/
theorem togglingAndReadingBackRoundTrips : Obligations.TogglingAndReadingBackRoundTrips := by
  intro s x y b hs hcell
  obtain ⟨t, htgl, ht, hgrid⟩ := exec_tgl_toggles x y hs
  have hb : getCell (t.bytes t.cur) x y = b := by
    rw [hgrid, getCell_toggleCell_self, hcell, Bool.not_not]
  obtain ⟨u, hget, hanswer, hu, hsame⟩ := exec_get_answers ht hb
  obtain ⟨v, htgl', hv, hgrid'⟩ := exec_tgl_toggles x y hu
  have hback : v.bytes v.cur = s.bytes s.cur := by
    rw [hgrid', hsame, hgrid, toggleCell_toggleCell]
  have hnot : getCell (v.bytes v.cur) x y = !b := by rw [hback, hcell]
  obtain ⟨w, hget', hanswer', -, -⟩ := exec_get_answers hv hnot
  refine ⟨t, u, v, w, htgl, hget, hanswer, htgl', hback, hget', ?_⟩
  rw [hanswer']
  cases b <;> rfl

/-! ### FILL, acceptance (R118) -/

theorem exec_fill (s : State) : exec .fill s = .next (s.moveTo .fill s.idx s.pos) := rfl

theorem rndReady_of_fill {s : State} {p : PortIn} (hp : s.phase = .fill) (hr : p.rst = false) :
    s.rndReady p = true := by
  simp [State.rndReady, hp, hr]

/-- Settles O24: the move to FILL keeps both positions, and R28 has `IDX` at 0 in IDLE. -/
theorem fillAcceptanceEntersPhaseFill : Obligations.FillAcceptanceEntersPhaseFill := fun s =>
  ⟨exec_fill s, fun hs hp => (hs.resting (.inl hp)).1, fun _ => rndReady_of_fill rfl⟩

/-! ### FILL, byte micro-step (R119) -/

/-- The byte taken lands at `IDX` of the current buffer, and no other byte of either buffer changes. -/
theorem fillByte_memRead (v : Byte) (s : State) (b : Bool) (i : Index) :
    (fillByte v s).memRead b i = if b = s.cur ∧ i = s.idx then v else s.memRead b i := by
  simp only [fillByte]
  split <;> simp [memRead_memWrite]

@[simp] theorem fillByte_cur (v : Byte) (s : State) : (fillByte v s).cur = s.cur := by
  simp only [fillByte]
  split <;> simp

@[simp] theorem fillByte_resets (v : Byte) (s : State) : (fillByte v s).resets = s.resets := by
  simp only [fillByte]
  split <;> simp

@[simp] theorem fillByte_inputs (v : Byte) (s : State) : (fillByte v s).inputs = s.inputs := by
  simp only [fillByte]
  split <;> simp

@[simp] theorem fillByte_freeTicks (v : Byte) (s : State) : (fillByte v s).freeTicks = s.freeTicks := by
  simp only [fillByte]
  split <;> simp

theorem fillByte_seeded_below {s : State} (v : Byte) (h : s.idx.toNat < 1023) :
    (fillByte v s).seeded = s.seeded := by
  simp [fillByte, lt_lastIndex_iff, h]

theorem fillByte_seeded_last {s : State} (v : Byte) (h : s.idx.toNat = 1023) :
    (fillByte v s).seeded = true := by
  simp [fillByte, lt_lastIndex_iff, h]

theorem step_fill_waiting {s : State} (hw : s.Working .fill) (hv : s.nextInput.rnd = none) :
    step s = .next s.consume := by
  rw [step_fill hw, fillStep, hv]

theorem step_fill_byte {s : State} {v : Byte} (hw : s.Working .fill) (hv : s.nextInput.rnd = some v) :
    step s = .next (fillByte v s.consume) := by
  rw [step_fill hw, fillStep, hv]

/-- Settles O25: the step is the byte micro-step on the state that has used up its input, and each clause
is one lemma about that micro-step. -/
theorem fillByteLandsAtTheIndex : Obligations.FillByteLandsAtTheIndex := by
  intro s hw
  refine ⟨step_fill_waiting hw, fun v hv => ⟨fillByte v s.consume, step_fill_byte hw hv, ?_⟩⟩
  have hidx : s.consume.idx = s.idx := consume_idx s
  refine ⟨fun b i => by simp [fillByte_memRead], by simp, by simp, by simp,
    ⟨fillByte_inputs v _, fillByte_freeTicks v _⟩, fun h => ?_, fun h => ?_⟩
  · rw [← hidx] at h
    exact ⟨by simpa using fillByte_at_below v h, by simpa using fillByte_seeded_below v h,
      by simpa using h.ne⟩
  · rw [← hidx] at h
    exact ⟨by simpa using fillByte_at_last v h, fillByte_seeded_last v h, by simpa using h⟩

end Sys2Proof.Machine
end

section
/-! PROOFS. The torus, the live-neighbour count and the rule (spec/41_stepper.md R141 to R149): O7, O8, O9,
O10 and O11. -/

namespace Sys2Proof.Machine

/-! ### The four neighbour coordinates (R141) -/

theorem left_eq_sub_one (x : Col) : left x = x - 1#7 := (BitVec.sub_eq_add_neg x 1#7).symm

theorem up_eq_sub_one (y : Row) : up y = y - 1#6 := (BitVec.sub_eq_add_neg y 1#6).symm

theorem left_toNat (x : Col) : (left x).toNat = (x.toNat + 127) % 128 := BitVec.toNat_add x 127#7

theorem right_toNat (x : Col) : (right x).toNat = (x.toNat + 1) % 128 := BitVec.toNat_add x 1#7

theorem up_toNat (y : Row) : (up y).toNat = (y.toNat + 63) % 64 := BitVec.toNat_add y 63#6

theorem down_toNat (y : Row) : (down y).toNat = (y.toNat + 1) % 64 := BitVec.toNat_add y 1#6

/-- Settles O7: the sums of R141 wrap only at the edge. -/
theorem neighbourCoordinatesWrap : Obligations.NeighbourCoordinatesWrap := by
  refine ⟨fun x => ⟨left_toNat x, right_toNat x, fun h => ?_, fun h => ?_, left_eq_sub_one x, rfl⟩,
    fun y => ⟨up_toNat y, down_toNat y, fun h => ?_, fun h => ?_, up_eq_sub_one y, rfl⟩,
    rfl, rfl, rfl, rfl⟩
  · rw [left_toNat]; bv_omega
  · rw [right_toNat]; bv_omega
  · rw [up_toNat]; bv_omega
  · rw [down_toNat]; bv_omega

theorem left_ne_self (x : Col) : left x ≠ x := by unfold left; bv_omega

theorem right_ne_self (x : Col) : right x ≠ x := by unfold right; bv_omega

theorem left_ne_right (x : Col) : left x ≠ right x := by unfold left right; bv_omega

theorem up_ne_self (y : Row) : up y ≠ y := by unfold up; bv_omega

theorem down_ne_self (y : Row) : down y ≠ y := by unfold down; bv_omega

theorem up_ne_down (y : Row) : up y ≠ down y := by unfold up down; bv_omega

/-! ### The eight neighbours (R142, R143) -/

theorem neighbours_nodup (x : Col) (y : Row) : (neighbours x y).Nodup := by
  simp [neighbours, left_ne_self, (left_ne_self x).symm, (right_ne_self x).symm, left_ne_right,
    up_ne_self, (down_ne_self y).symm, up_ne_down]

theorem self_notMem_neighbours (x : Col) (y : Row) : (x, y) ∉ neighbours x y := by
  simp [neighbours, (left_ne_self x).symm, (right_ne_self x).symm, (up_ne_self y).symm,
    (down_ne_self y).symm]

theorem mem_neighbours_iff (x a : Col) (y b : Row) : (a, b) ∈ neighbours x y ↔
    a ∈ [left x, x, right x] ∧ b ∈ [up y, y, down y] ∧ (a, b) ≠ (x, y) := by
  constructor
  · intro h
    have hne : (a, b) ≠ (x, y) := fun e => self_notMem_neighbours x y (e ▸ h)
    simp only [neighbours, List.mem_cons, Prod.mk.injEq, List.not_mem_nil, or_false] at h ⊢
    exact ⟨by tauto, by tauto, hne⟩
  · rintro ⟨ha, hb, hne⟩
    simp only [List.mem_cons, List.not_mem_nil, or_false] at ha hb
    rcases ha with rfl | rfl | rfl <;> rcases hb with rfl | rfl | rfl
    -- every combination stands in the list but the cell itself
    any_goals simp [neighbours]
    exact absurd rfl hne

/-- Settles O8: the numbering is the definition, and the rest rests on the three coordinates of each axis
being distinct. -/
theorem neighboursAreEightDistinctCells : Obligations.NeighboursAreEightDistinctCells := fun x y =>
  ⟨rfl, neighbours_nodup x y, self_notMem_neighbours x y, fun a b => mem_neighbours_iff x a y b⟩

/-! ### Symmetry (R146) -/

theorem column_near_symm (x a : Col) : a ∈ [left x, x, right x] ↔ x ∈ [left a, a, right a] := by
  have hl : a = left x ↔ x = right a := ⟨fun h => by simp [h], fun h => by simp [h]⟩
  have hr : a = right x ↔ x = left a := ⟨fun h => by simp [h], fun h => by simp [h]⟩
  simp only [List.mem_cons, List.not_mem_nil, or_false, hl, hr, @eq_comm _ a x]
  tauto

theorem row_near_symm (y b : Row) : b ∈ [up y, y, down y] ↔ y ∈ [up b, b, down b] := by
  have hu : b = up y ↔ y = down b := ⟨fun h => by simp [h], fun h => by simp [h]⟩
  have hd : b = down y ↔ y = up b := ⟨fun h => by simp [h], fun h => by simp [h]⟩
  simp only [List.mem_cons, List.not_mem_nil, or_false, hu, hd, @eq_comm _ b y]
  tauto

theorem mem_neighbours_symm (x a : Col) (y b : Row) :
    (a, b) ∈ neighbours x y ↔ (x, y) ∈ neighbours a b := by
  rw [mem_neighbours_iff, mem_neighbours_iff, column_near_symm, row_near_symm, ne_comm]

/-- Settles O10: nearness is symmetric on either axis, and the corners are computed. -/
theorem neighbourhoodIsSymmetric : Obligations.NeighbourhoodIsSymmetric :=
  ⟨mem_neighbours_symm, by decide, by decide, by decide⟩

/-! ### The live-neighbour count (R145) -/

@[simp] theorem cellTerm_toNat (B : Buffer) (x : Col) (y : Row) :
    (cellTerm B x y).toNat = (getCell B x y).toNat := by
  unfold cellTerm
  cases getCell B x y <;> rfl

/-- Eight bits add up to at most 8, so the 4-bit sum does not wrap. -/
theorem liveCount_toNat (B : Buffer) (x : Col) (y : Row) : (liveCount B x y).toNat =
    (getCell B (left x) (up y)).toNat + (getCell B x (up y)).toNat + (getCell B (right x) (up y)).toNat
    + (getCell B (left x) y).toNat + (getCell B (right x) y).toNat
    + (getCell B (left x) (down y)).toNat + (getCell B x (down y)).toNat
    + (getCell B (right x) (down y)).toNat := by
  have hbit (x : Col) (y : Row) := Bool.toNat_le (getCell B x y)
  have h1 := hbit (left x) (up y)
  have h2 := hbit x (up y)
  have h3 := hbit (right x) (up y)
  have h4 := hbit (left x) y
  have h5 := hbit (right x) y
  have h6 := hbit (left x) (down y)
  have h7 := hbit x (down y)
  have h8 := hbit (right x) (down y)
  simp only [liveCount, BitVec.toNat_add, cellTerm_toNat]
  omega

/-- A filter keeps as many elements as the test is 1 on. -/
theorem length_filter_eq_sum_toNat {α : Type} (p : α → Bool) (l : List α) :
    (l.filter p).length = (l.map (fun a => (p a).toNat)).sum := by
  induction l with
  | nil => rfl
  | cons a l ih => cases h : p a <;> simp [h, ih, Nat.add_comm]

theorem liveCount_eq_length_filter (B : Buffer) (x : Col) (y : Row) :
    (liveCount B x y).toNat = ((neighbours x y).filter (fun c => getCell B c.1 c.2)).length := by
  rw [length_filter_eq_sum_toNat, liveCount_toNat]
  simp [neighbours, Nat.add_assoc]

theorem liveCount_le (B : Buffer) (x : Col) (y : Row) : (liveCount B x y).toNat ≤ 8 := by
  rw [liveCount_eq_length_filter]
  exact List.length_filter_le _ (neighbours x y)

/-- The count reads the neighbours only. -/
theorem liveCount_congr {A B : Buffer} {x : Col} {y : Row}
    (h : ∀ c ∈ neighbours x y, getCell A c.1 c.2 = getCell B c.1 c.2) : liveCount A x y = liveCount B x y := by
  refine BitVec.eq_of_toNat_eq ?_
  rw [liveCount_eq_length_filter, liveCount_eq_length_filter, List.filter_congr h]

theorem liveCount_toggleCell_self (B : Buffer) (x : Col) (y : Row) :
    liveCount (toggleCell B x y) x y = liveCount B x y :=
  liveCount_congr fun _ hc => getCell_toggleCell_other B fun e => self_notMem_neighbours x y (e ▸ hc)

/-- Settles O9: no wrap gives the sum, and the count reads the neighbours only. -/
theorem liveCountSumsTheEightNeighbours : Obligations.LiveCountSumsTheEightNeighbours := fun B x y =>
  ⟨liveCount_toNat B x y, liveCount_eq_length_filter B x y, liveCount_le B x y,
    liveCount_toggleCell_self B x y⟩

/-! ### The rule (R147 to R149) -/

/-- The closed form of R148. -/
theorem lifeRule_iff (cell : Bool) (cnt : Count) :
    lifeRule cell cnt = true ↔ cnt.toNat = 3 ∨ (cell = true ∧ cnt.toNat = 2) := by
  revert cell cnt
  decide

theorem lifeRule_eq_decide (cell : Bool) (cnt : Count) :
    lifeRule cell cnt = decide (cnt.toNat = 3 ∨ (cell = true ∧ cnt.toNat = 2)) := by
  rw [Bool.eq_iff_iff, lifeRule_iff, decide_eq_true_iff]

/-- The closed form of R149. -/
theorem lifeChg_iff (cell : Bool) (cnt : Count) : lifeChg cell cnt = true ↔
    (cell = false ∧ cnt.toNat = 3) ∨ (cell = true ∧ cnt.toNat ≠ 2 ∧ cnt.toNat ≠ 3) := by
  rw [lifeChg, lifeRule_eq_decide]
  cases cell
  · simp
  · simp
    tauto

/-- The change bit says that the rule gives another cell. -/
theorem lifeChg_eq_decide_ne (cell : Bool) (cnt : Count) :
    lifeChg cell cnt = decide (lifeRule cell cnt ≠ cell) := by
  unfold lifeChg
  cases cell <;> cases lifeRule _ cnt <;> rfl

/-- Settles O11: every row follows from the closed form, the tables by computing them. -/
theorem ruleAgreesWithItsTable : Obligations.RuleAgreesWithItsTable := by
  refine ⟨fun cell cnt => ⟨fun hc h => ?_, fun hc h => ?_, fun hc h => ?_, fun hc h => ?_,
    lifeRule_iff cell cnt, rfl, lifeChg_iff cell cnt⟩, by decide, by decide, by decide, by decide⟩
  · rw [lifeRule_eq_decide, decide_eq_false_iff_not]
    omega
  · exact (lifeRule_iff cell cnt).mpr (.inl h)
  · exact (lifeRule_iff cell cnt).mpr (h.symm.imp_right fun h => ⟨hc, h⟩)
  · simpa [lifeRule_eq_decide, hc] using h

end Sys2Proof.Machine
end

section
/-! PROOFS. The next generation as a function (spec/41_stepper.md R150, R151) and the patterns of the source
(R166): O12, O13 and O15. -/

namespace Sys2Proof.Machine

/-! ### The next generation, cell by cell (R150) -/

@[simp] theorem getCell_nextGen (B : Buffer) (x : Col) (y : Row) :
    getCell (nextGen B) x y = nextCell B x y := getCell_packed (nextCell B) x y

theorem eq_nextGen_of_cells {B N : Buffer} (h : ∀ x y, getCell N x y = nextCell B x y) :
    N = nextGen B :=
  buffer_ext fun x y => (h x y).trans (getCell_nextGen B x y).symm

/-- Settles O12: the cells of a packed grid, and that cells determine a buffer. -/
theorem nextGenIsTheRuleAtEveryCell : Obligations.NextGenIsTheRuleAtEveryCell := fun B =>
  ⟨getCell_nextGen B, fun _ => eq_nextGen_of_cells⟩

/-! ### Copy and toggle (R151) -/

/-- The cell `(x, y)` changes in the next generation of `B` (R149). -/
def cellChanges (B : Buffer) (x : Col) (y : Row) : Bool :=
  lifeChg (getCell B x y) (liveCount B x y)

/-- `N` with the cell `c` toggled if it changes in the next generation of `B`: what R151 does per cell. -/
def toggleChanged (B N : Buffer) (c : Col × Row) : Buffer :=
  if cellChanges B c.1 c.2 then toggleCell N c.1 c.2 else N

theorem getCell_toggleChanged (B N : Buffer) (c : Col × Row) (x : Col) (y : Row) :
    getCell (toggleChanged B N c) x y =
      (getCell N x y ^^ (decide ((x, y) = c) && cellChanges B x y)) := by
  obtain ⟨a, b⟩ := c
  unfold toggleChanged
  by_cases hc : (x, y) = (a, b)
  · cases hc
    cases h : cellChanges B x y <;> simp [getCell_toggleCell_self]
  · split <;> simp [getCell_toggleCell_eq_xor, hc]

/-- Each cell of the list is toggled once if it changes, and no other cell is. -/
theorem getCell_foldl_toggleChanged (B N : Buffer) {cells : List (Col × Row)} (hn : cells.Nodup)
    (x : Col) (y : Row) : getCell (cells.foldl (toggleChanged B) N) x y =
      (getCell N x y ^^ (decide ((x, y) ∈ cells) && cellChanges B x y)) := by
  induction cells generalizing N with
  | nil => simp
  | cons c cells ih =>
    obtain ⟨hc, hn⟩ := List.nodup_cons.mp hn
    rw [List.foldl_cons, ih _ hn, getCell_toggleChanged]
    by_cases h : (x, y) = c
    · simp [h, hc]
    · simp [h]

/-- R151. -/
theorem foldl_toggleChanged_eq_nextGen (B : Buffer) {cells : List (Col × Row)} (hn : cells.Nodup)
    (hall : ∀ c, c ∈ cells) : cells.foldl (toggleChanged B) B = nextGen B := by
  refine eq_nextGen_of_cells fun x y => ?_
  rw [getCell_foldl_toggleChanged B B hn, decide_eq_true (hall (x, y)), Bool.true_and, cellChanges,
    lifeChg, ← Bool.xor_assoc, Bool.xor_self, Bool.false_xor, nextCell]

/-- Settles O13: each cell that changes is toggled once, whatever the order. -/
theorem copyThenToggleInAnyOrderIsNextGen : Obligations.CopyThenToggleInAnyOrderIsNextGen :=
  fun B _ => foldl_toggleChanged_eq_nextGen B

/-! ### Grids given by their live cells -/

@[simp] theorem getCell_gridWithCells (cells : List (Col × Row)) (x : Col) (y : Row) :
    getCell (gridWithCells cells) x y = decide ((x, y) ∈ cells) :=
  getCell_packed (fun a b => decide ((a, b) ∈ cells)) x y

@[simp] theorem liveCount_empty (x : Col) (y : Row) : liveCount (gridWithCells []) x y = 0#4 := by
  refine BitVec.eq_of_toNat_eq ?_
  simp [liveCount_eq_length_filter]

/-- A dead cell without live neighbours stays dead: the empty grid (R166). -/
theorem nextGen_empty : nextGen (gridWithCells []) = gridWithCells [] := by
  refine (eq_nextGen_of_cells fun x y => ?_).symm
  simp [nextCell, lifeRule]

theorem generations_empty (n : Nat) : generations n (gridWithCells []) = gridWithCells [] :=
  Function.iterate_fixed nextGen_empty n

/-- With one live cell the count is 1 at its neighbours and 0 elsewhere (R166). -/
theorem liveCount_single (a x : Col) (b y : Row) : liveCount (gridWithCells [(a, b)]) x y =
    if (x, y) ∈ neighbours a b then 1#4 else 0#4 := by
  refine BitVec.eq_of_toNat_eq ?_
  have hcount : (liveCount (gridWithCells [(a, b)]) x y).toNat = (neighbours x y).count (a, b) := by
    rw [liveCount_eq_length_filter, List.count_eq_length_filter]
    refine congrArg List.length (List.filter_congr fun c _ => ?_)
    rw [getCell_gridWithCells, beq_eq_decide]
    simp
  rw [hcount]
  split
  · next h => exact List.count_eq_one_of_mem (neighbours_nodup x y) ((mem_neighbours_symm ..).mp h)
  · next h => exact List.count_eq_zero_of_not_mem fun h' => h ((mem_neighbours_symm ..).mpr h')

theorem mem_neighbours_origin (c : Col × Row) : c ∈ neighbours 0#7 0#6 ↔
    c ∈ [(127#7, 0#6), (0#7, 63#6), (127#7, 63#6), (1#7, 0#6), (0#7, 1#6), (1#7, 1#6),
      (127#7, 1#6), (1#7, 63#6)] :=
  List.Perm.mem_iff (by decide)

/-! ### Grids that are a set of columns times a set of rows

The patterns of R166 (a) and (b) are such products, and for them the count factors: the live cells of the
3x3 window around a cell are the live columns of its three times the live rows of its three. -/

/-- How many of the three coordinates around `a` are in `p`. -/
def near {n : Nat} (p : BitVec n → Bool) (a : BitVec n) : Nat :=
  (p (a - 1#n)).toNat + (p a).toNat + (p (a + 1#n)).toNat

/-- The window is the same seen from any origin. -/
theorem near_sub {n : Nat} (p : BitVec n → Bool) (x a : BitVec n) :
    near (fun c => p (c - x)) a = near p (a - x) := by
  have h1 : a - 1#n - x = a - x - 1#n := by ring
  have h2 : a + 1#n - x = a - x + 1#n := by ring
  simp only [near, h1, h2]

theorem toNat_and (p q : Bool) : (p && q).toNat = p.toNat * q.toNat := by
  cases p <;> cases q <;> rfl

/-- The count of a product grid, with the cell itself added. -/
theorem liveCount_product {B : Buffer} {p : Col → Bool} {q : Row → Bool}
    (h : ∀ a b, getCell B a b = (p a && q b)) (a : Col) (b : Row) :
    (liveCount B a b).toNat + (p a && q b).toNat = near p a * near q b := by
  simp only [liveCount_toNat, h, toNat_and, near, left_eq_sub_one, up_eq_sub_one, right, down]
  ring

/-- The rule on a product grid: the window holds three live cells, or four with the cell itself. -/
def productRule (n m : Nat) (cell : Bool) : Bool := decide (n * m = 3 ∨ cell = true ∧ n * m = 4)

theorem nextCell_product {B : Buffer} {p : Col → Bool} {q : Row → Bool}
    (h : ∀ a b, getCell B a b = (p a && q b)) (a : Col) (b : Row) :
    nextCell B a b = productRule (near p a) (near q b) (p a && q b) := by
  have hsum := liveCount_product h a b
  rw [nextCell, lifeRule_eq_decide, h, productRule, ← hsum]
  cases p a && q b with
  | false => simp
  | true => simp [Bool.or_comm]

/-- The grid `B` is the product of the columns `p` and the rows `q`, seen from `(x, y)`. -/
def IsProductAt (B : Buffer) (x : Col) (y : Row) (p : Col → Bool) (q : Row → Bool) : Prop :=
  ∀ a b, getCell B a b = (p (a - x) && q (b - y))

theorem nextGen_eq_of_products {A B : Buffer} {x : Col} {y : Row} {p p' : Col → Bool} {q q' : Row → Bool}
    (hB : IsProductAt B x y p q) (hA : IsProductAt A x y p' q')
    (hrule : ∀ c d, (p' c && q' d) = productRule (near p c) (near q d) (p c && q d)) : nextGen B = A := by
  refine (eq_nextGen_of_cells fun a b => ?_).symm
  rw [hA, nextCell_product hB, near_sub, near_sub, hrule]

/-! ### Still life and oscillator (R166) -/

/-- The coordinate itself. -/
def dot {n : Nat} (d : BitVec n) : Bool := d = 0#n

/-- The coordinate and the one after it. -/
def pair {n : Nat} (d : BitVec n) : Bool := d = 0#n ∨ d = 1#n

/-- The coordinate and the ones on either side. -/
def line {n : Nat} (d : BitVec n) : Bool := d = 0#n - 1#n ∨ d = 0#n ∨ d = 1#n

/-- What a coordinate may be to a line of three: how many of the line are near it, whether it is on the
line, and whether it is the middle. -/
def lineProfiles : List (Nat × Bool × Bool) :=
  [(3, true, true), (2, true, false), (1, false, false), (0, false, false)]

/-- What a coordinate may be to a dot: whether the dot is near, whether it is the dot, and whether it is on
the line of three around the dot. -/
def dotProfiles : List (Nat × Bool × Bool) := [(1, true, true), (1, false, true), (0, false, false)]

/-- What a coordinate may be to a pair: how many of the pair are near it, and whether it is in the pair. -/
def pairProfiles : List (Nat × Bool) := [(2, true), (1, false), (0, false)]

theorem line_profile : (∀ d : Col, (near line d, line d, dot d) ∈ lineProfiles) ∧
    ∀ d : Row, (near line d, line d, dot d) ∈ lineProfiles := by decide

theorem dot_profile : (∀ d : Col, (near dot d, dot d, line d) ∈ dotProfiles) ∧
    ∀ d : Row, (near dot d, dot d, line d) ∈ dotProfiles := by decide

theorem pair_profile : (∀ d : Col, (near pair d, pair d) ∈ pairProfiles) ∧
    ∀ d : Row, (near pair d, pair d) ∈ pairProfiles := by decide

/-- A line in one coordinate that is a dot in the other becomes a dot in the one and a line in the other. -/
theorem rule_line_dot : ∀ a ∈ lineProfiles, ∀ b ∈ dotProfiles,
    (a.2.2 && b.2.2) = productRule a.1 b.1 (a.2.1 && b.2.1) := by decide

theorem rule_pair_pair : ∀ a ∈ pairProfiles, ∀ b ∈ pairProfiles,
    (a.2 && b.2) = productRule a.1 b.1 (a.2 && b.2) := by decide

theorem productRule_comm (n m : Nat) (cell : Bool) : productRule n m cell = productRule m n cell := by
  rw [productRule, productRule, Nat.mul_comm]

section
variable (x : Col) (y : Row)

theorem isProduct_block : IsProductAt (gridWithCells [(x, y), (right x, y), (x, down y), (right x, down y)])
    x y pair pair := by
  intro a b
  rw [getCell_gridWithCells, Bool.eq_iff_iff]
  simp [pair, right, down, sub_eq_iff_eq_add', and_or_left, or_and_right, or_assoc]

theorem isProduct_row : IsProductAt (gridWithCells [(left x, y), (x, y), (right x, y)]) x y line dot := by
  intro a b
  rw [getCell_gridWithCells, Bool.eq_iff_iff]
  simp [line, dot, left, right, sub_eq_iff_eq_add', or_and_right]

theorem isProduct_column : IsProductAt (gridWithCells [(x, up y), (x, y), (x, down y)]) x y dot line := by
  intro a b
  rw [getCell_gridWithCells, Bool.eq_iff_iff]
  simp [line, dot, up, down, sub_eq_iff_eq_add', and_or_left]

theorem nextGen_block : nextGen (gridWithCells [(x, y), (right x, y), (x, down y), (right x, down y)]) =
    gridWithCells [(x, y), (right x, y), (x, down y), (right x, down y)] :=
  nextGen_eq_of_products (isProduct_block x y) (isProduct_block x y) fun c d =>
    rule_pair_pair _ (pair_profile.1 c) _ (pair_profile.2 d)

theorem nextGen_row : nextGen (gridWithCells [(left x, y), (x, y), (right x, y)]) =
    gridWithCells [(x, up y), (x, y), (x, down y)] :=
  nextGen_eq_of_products (isProduct_row x y) (isProduct_column x y) fun c d =>
    rule_line_dot _ (line_profile.1 c) _ (dot_profile.2 d)

theorem nextGen_column : nextGen (gridWithCells [(x, up y), (x, y), (x, down y)]) =
    gridWithCells [(left x, y), (x, y), (right x, y)] :=
  nextGen_eq_of_products (isProduct_column x y) (isProduct_row x y) fun c d => by
    rw [productRule_comm, Bool.and_comm, Bool.and_comm (dot c)]
    exact rule_line_dot _ (line_profile.2 d) _ (dot_profile.1 c)

end

/-- Settles O15: (a) and (b) are products of a set of columns and a set of rows, (c) and (d) counts of at
most one live cell. -/
theorem sourcePatternsBehaveAsStated : Obligations.SourcePatternsBehaveAsStated := by
  refine ⟨nextGen_block, fun x y => ⟨nextGen_row x y, nextGen_column x y⟩, generations_empty,
    fun x y => ⟨liveCount_empty x y, ?_⟩⟩
  simp only [liveCount_single, mem_neighbours_origin]

end Sys2Proof.Machine
end

section
/-! PROOFS. The micro-steps of STEP (spec/41_stepper.md R156 to R160): O27, O28, O29 and O30. -/

namespace Sys2Proof.Machine

/-! ### Acceptance (R156) -/

theorem exec_step_seeded {s : State} (h : s.seeded = true) :
    exec .step s = .next (s.moveTo .copy s.idx s.pos) := by
  simp only [exec, execStep, ifSeeded_true _ h]

theorem exec_step_unseeded {s : State} (h : s.seeded = false) :
    exec .step s = .next (s.respond .unseeded false) := by
  simp only [exec, execStep, ifSeeded_false _ h]

/-- Settles O27: the move to COPY keeps both positions, and R28 has `IDX` at 0 in IDLE. -/
theorem stepAcceptanceEntersPhaseCopy : Obligations.StepAcceptanceEntersPhaseCopy := fun _ =>
  ⟨exec_step_unseeded, exec_step_seeded, fun hs hp => (hs.resting (.inl hp)).1⟩

/-! ### COPY and SCAN as one write and one move (R157, R158) -/

theorem copyByte_eq_moveTo (s : State) : ∃ ph i p,
    copyByte s = (s.memWrite (!s.cur) s.idx (s.memRead s.cur s.idx)).moveTo ph i p := by
  simp only [copyByte]
  split <;> exact ⟨_, _, _, rfl⟩

/-- The write of a SCAN micro-step: the scanned cell is toggled in the next buffer if it changes. -/
def scanWrite (s : State) : State :=
  if cellChanges (s.bytes s.cur) (scanCol s.pos) (scanRow s.pos)
  then s.toggleAt (!s.cur) (scanCol s.pos) (scanRow s.pos) else s

theorem scanCell_eq_moveTo (s : State) : ∃ ph i p, scanCell s = (scanWrite s).moveTo ph i p := by
  simp only [scanCell]
  split <;> exact ⟨_, _, _, rfl⟩

theorem copyByte_memRead (s : State) (b : Bool) (i : Index) : (copyByte s).memRead b i =
    if b = !s.cur ∧ i = s.idx then s.memRead s.cur s.idx else s.memRead b i := by
  obtain ⟨ph, j, p, h⟩ := copyByte_eq_moveTo s
  rw [h, moveTo_memRead, memRead_memWrite]

/-- The scan toggles in the next buffer what R151 toggles in a copy. -/
theorem scanCell_bytes_next (s : State) : (scanCell s).bytes (!s.cur) =
    toggleChanged (s.bytes s.cur) (s.bytes (!s.cur)) (scanCol s.pos, scanRow s.pos) := by
  obtain ⟨ph, j, p, h⟩ := scanCell_eq_moveTo s
  rw [h, moveTo_bytes, scanWrite, toggleChanged]
  split
  · exact toggleAt_bytes_same s (!s.cur) _ _
  · rfl

/-! ### What a STEP leaves alone until it ends -/

theorem State.SameFlags.trans {s t u : State} (h : s.SameFlags t) (h' : t.SameFlags u) : s.SameFlags u :=
  ⟨h'.cur.trans h.cur, h'.seeded.trans h.seeded, h'.halted.trans h.halted, h'.resets.trans h.resets⟩

/-- From `s` to `t` no flag, no byte of the current grid and nothing at the ports has changed. -/
structure State.KeepsGrid (s t : State) : Prop where
  flags : s.SameFlags t
  trace : t.trace = s.trace
  grid : t.bytes s.cur = s.bytes s.cur

theorem State.KeepsGrid.refl (s : State) : s.KeepsGrid s := ⟨⟨rfl, rfl, rfl, rfl⟩, rfl, rfl⟩

theorem State.KeepsGrid.trans {s t u : State} (h : s.KeepsGrid t) (h' : t.KeepsGrid u) : s.KeepsGrid u :=
  ⟨h.flags.trans h'.flags, h'.trace.trans h.trace, by rw [← h.grid, ← h.flags.cur, h'.grid]⟩

theorem consume_keepsGrid (s : State) : s.KeepsGrid s.consume :=
  ⟨⟨consume_cur s, consume_seeded s, consume_halted s, consume_resets s⟩, consume_trace s,
    consume_bytes s _⟩

theorem moveTo_keepsGrid (s : State) (ph : Phase) (i : Index) (p : ScanPos) : s.KeepsGrid (s.moveTo ph i p) :=
  ⟨⟨rfl, rfl, rfl, rfl⟩, rfl, rfl⟩

/-- A byte of the next buffer is none of the current grid. -/
theorem memWrite_keepsGrid (s : State) (i : Index) (v : Byte) : s.KeepsGrid (s.memWrite (!s.cur) i v) :=
  ⟨⟨memWrite_cur .., memWrite_seeded .., memWrite_halted .., memWrite_resets ..⟩, memWrite_trace ..,
    by simp [memWrite_bytes]⟩

theorem copyByte_keepsGrid (s : State) : s.KeepsGrid (copyByte s) := by
  obtain ⟨ph, i, p, h⟩ := copyByte_eq_moveTo s
  rw [h]
  exact (memWrite_keepsGrid s _ _).trans (moveTo_keepsGrid _ ph i p)

theorem scanWrite_keepsGrid (s : State) : s.KeepsGrid (scanWrite s) := by
  unfold scanWrite
  split
  · exact memWrite_keepsGrid s _ _
  · exact .refl s

theorem scanCell_keepsGrid (s : State) : s.KeepsGrid (scanCell s) := by
  obtain ⟨ph, i, p, h⟩ := scanCell_eq_moveTo s
  rw [h]
  exact (scanWrite_keepsGrid s).trans (moveTo_keepsGrid _ ph i p)

/-! ### Every step uses up one input -/

/-- `t` finds the same inputs at its coming steps as `s`. -/
def State.SameEnvironment (s t : State) : Prop := t.inputs = s.inputs ∧ t.freeTicks = s.freeTicks

theorem exec_sameEnvironment {i : Instr} {s t : State} (h : exec i s = .next t) : s.SameEnvironment t := by
  rcases exec_cases h with ⟨-, rfl⟩ | ⟨x, y, -, -, rfl⟩ | ⟨x, y, -, -, rfl⟩ | ⟨-, -, rfl⟩ |
    ⟨-, rfl⟩ | ⟨-, -, rfl⟩ | ⟨-, -, -, rfl⟩ <;> simp [State.SameEnvironment]

theorem copyByte_sameEnvironment (s : State) : s.SameEnvironment (copyByte s) := by
  obtain ⟨ph, i, p, h⟩ := copyByte_eq_moveTo s
  simp [State.SameEnvironment, h]

theorem scanCell_sameEnvironment (s : State) : s.SameEnvironment (scanCell s) := by
  obtain ⟨ph, i, p, h⟩ := scanCell_eq_moveTo s
  rw [h, scanWrite]
  split <;> simp [State.SameEnvironment]

theorem drawByte_sameEnvironment (s : State) : s.SameEnvironment (drawByte s) := by
  simp only [drawByte]
  split <;> simp [State.SameEnvironment]

theorem clock_sameEnvironment {p : PortIn} {s t : State} (h : clock p s = .next t) :
    s.SameEnvironment t := by
  rcases clock_cases h with ⟨-, rfl⟩ | ⟨-, -, rfl⟩ | ⟨-, -, hrow⟩
  · exact ⟨rfl, rfl⟩
  · exact ⟨rfl, rfl⟩
  · rcases hrow with ⟨-, -, rfl⟩ | ⟨-, -, -, rfl⟩ | ⟨w, r, -, -, -, -, rfl⟩ | ⟨w, i, -, -, -, -, hx⟩ |
      ⟨-, -, rfl⟩ | ⟨v, -, -, rfl⟩ | ⟨-, rfl⟩ | ⟨-, rfl⟩ | ⟨-, rfl⟩ | ⟨-, -, rfl⟩ | ⟨-, -, -, rfl⟩ |
      ⟨-, -, -, rfl⟩
    · exact ⟨raiseSinkFail_inputs s, raiseSinkFail_freeTicks s⟩
    · exact ⟨rfl, rfl⟩
    · exact ⟨rfl, rfl⟩
    · have hexec := exec_sameEnvironment hx
      exact hexec
    · exact ⟨rfl, rfl⟩
    · exact ⟨fillByte_inputs v s, fillByte_freeTicks v s⟩
    · exact copyByte_sameEnvironment s
    · exact scanCell_sameEnvironment s
    · exact ⟨rfl, rfl⟩
    · exact ⟨raiseSinkFail_inputs s, raiseSinkFail_freeTicks s⟩
    · exact drawByte_sameEnvironment s
    · exact ⟨rfl, rfl⟩

theorem step_usedInput {s t : State} (h : step s = .next t) : s.UsedInput t := clock_sameEnvironment h

/-- A run uses up as many inputs as it has steps. -/
theorem run_usedInputs {n : Nat} {s t : State} (h : run n s = .next t) :
    (s.consumeN n).SameEnvironment t := by
  induction n generalizing s with
  | zero => cases h; exact ⟨rfl, rfl⟩
  | succ n ih =>
    simp only [run] at h
    cases hst : step s with
    | next u =>
      rw [hst] at h
      have hu := step_usedInput hst
      have hn := consumeN_congr n hu.1 hu.2
      obtain ⟨hi, hf⟩ := ih h
      exact ⟨hi.trans hn.1, hf.trans hn.2⟩
    | fault f => rw [hst] at h; cases h
    | refused r => rw [hst] at h; cases h

theorem noReset_consumeN {s : State} {n m : Nat} (h : s.noReset (n + m)) : (s.consumeN n).noReset m := by
  induction n generalizing s with
  | zero => simpa [State.consumeN] using h
  | succ n ih => exact ih (noReset_succ (Nat.add_right_comm n 1 m ▸ h)).2

/-- What is left of a stretch without a reset after a run. -/
theorem noReset_after_run {s t : State} {n m : Nat} (h : s.noReset (n + m)) (hrun : run n s = .next t) :
    t.noReset m :=
  have hused := run_usedInputs hrun
  noReset_congr hused.1 hused.2 (noReset_consumeN h)

/-- A numbered invariant that each of the first `N` micro-steps keeps holds after that many steps without
a reset: the induction over a command in progress. -/
theorem run_numbered_invariant {P : Nat → State → Prop} {N : Nat} {s : State} (hstart : P 0 s)
    (hstep : ∀ n v, n < N → P n v → v.nextInput.rst = false → ∃ w, step v = .next w ∧ P (n + 1) w)
    {n : Nat} (hn : n ≤ N) (hr : s.noReset n) : ∃ v, run n s = .next v ∧ P n v := by
  induction n with
  | zero => exact ⟨s, rfl, hstart⟩
  | succ n ih =>
    obtain ⟨v, hrun, hv⟩ := ih (by omega) (noReset_le hr (by omega))
    obtain ⟨w, hw, hP⟩ := hstep n v hn hv (noReset_succ (noReset_after_run hr hrun)).1
    exact ⟨w, by rw [run_add n 1 hrun, run_succ 0 hw, run_zero], hP⟩

/-! ### The phase COPY (R157) -/

/-- `t` is `s`, in COPY at index 0, after `n` COPY micro-steps: the bytes below `n` are copied. -/
structure State.Copied (s : State) (n : Nat) (t : State) : Prop where
  position : t.At (if n < 1024 then .copy else .scan) (nthIndex n) s.pos
  keeps : s.KeepsGrid t
  copied : ∀ i : Index, i.toNat < n → t.bytes (!s.cur) i = s.bytes s.cur i

theorem nthIndex_toNat {n : Nat} (h : n < 1024) : (nthIndex n).toNat = n :=
  Nat.mod_eq_of_lt h

theorem nthIndex_succ (n : Nat) : nthIndex (n + 1) = nthIndex n + 1#10 := BitVec.ofNat_add n 1

theorem copyByte_at {s : State} {n : Nat} (hi : s.idx = nthIndex n) (hn : n < 1024) :
    (copyByte s).At (if n + 1 < 1024 then .copy else .scan) (nthIndex (n + 1)) s.pos := by
  have hidx : s.idx.toNat = n := by rw [hi, nthIndex_toNat hn]
  rcases index_below_or_last s.idx with h | h
  · rw [if_pos (by omega), nthIndex_succ, ← hi]
    exact copyByte_at_below h
  · obtain rfl : n = 1023 := hidx.symm.trans h
    exact copyByte_at_last h

theorem State.Copied.succ {s t : State} {n : Nat} (hh : s.halted = false) (hn : n < 1024)
    (h : s.Copied n t) (hr : t.nextInput.rst = false) :
    ∃ u, step t = .next u ∧ s.Copied (n + 1) u := by
  obtain ⟨⟨hp, hi, hpos⟩, hkeep, hcopied⟩ := h
  rw [if_pos hn] at hp
  have hc : s.KeepsGrid t.consume := hkeep.trans (consume_keepsGrid t)
  refine ⟨copyByte t.consume, step_copy ⟨hr, hkeep.flags.halted.trans hh, hp⟩, ?_,
    hc.trans (copyByte_keepsGrid t.consume), fun i hlt => ?_⟩
  · have hat := copyByte_at (s := t.consume) (by rw [consume_idx, hi]) hn
    rwa [consume_pos, hpos] at hat
  · have hread := copyByte_memRead t.consume (!s.cur) i
    rw [consume_cur, hkeep.flags.cur, consume_idx, hi, consume_memRead, consume_memRead] at hread
    refine hread.trans ?_
    by_cases hlast : i = nthIndex n
    · subst hlast
      rw [if_pos ⟨rfl, rfl⟩]
      exact congrFun hkeep.grid _
    · have hne : i.toNat ≠ n := fun e => hlast (BitVec.eq_of_toNat_eq (by rw [e, nthIndex_toNat hn]))
      rw [if_neg fun e => hlast e.2]
      exact hcopied i (by omega)

theorem run_copy {s : State} (hp : s.phase = .copy) (hi : s.idx = 0#10) (hh : s.halted = false) {n : Nat}
    (hn : n ≤ 1024) (hr : s.noReset n) : ∃ t, run n s = .next t ∧ s.Copied n t :=
  run_numbered_invariant ⟨⟨hp, hi, rfl⟩, .refl s, fun _ h => absurd h (Nat.not_lt_zero _)⟩
    (fun _ _ hlt h => h.succ hh hlt) hn hr

theorem State.Copied.bytes_next {s t : State} (h : s.Copied 1024 t) : t.bytes (!s.cur) = s.bytes s.cur :=
  funext fun i => h.copied i i.isLt

/-- Copying some indices in any order, repeated or not, copies the bytes at these indices (R157). -/
theorem foldl_copy_memRead (s : State) (c : Bool) (order : List Index) (b : Bool) (i : Index) :
    (order.foldl (fun t i => t.memWrite (!c) i (t.memRead c i)) s).memRead b i =
      if b = !c ∧ i ∈ order then s.memRead c i else s.memRead b i := by
  induction order generalizing s with
  | nil => simp
  | cons j order ih =>
    rw [List.foldl_cons, ih]
    by_cases hb : b = !c
    · subst hb
      by_cases hj : i = j <;> simp [memRead_memWrite, hj]
    · simp [memRead_memWrite, hb]

/-- Settles O28: one COPY micro-step, the numbered invariant of the phase at 1024, and the copy in any
order. -/
theorem copyPhaseCopiesTheGrid : Obligations.CopyPhaseCopiesTheGrid := by
  refine ⟨fun s hw => ?_, fun s hp hi hh hr => ?_, fun s c order hall => ?_⟩
  · have hstep := step_copy hw
    have hkeep := (consume_keepsGrid s).trans (copyByte_keepsGrid s.consume)
    refine ⟨_, hstep, fun b i => ?_, hkeep.flags, step_usedInput hstep, hkeep.trace, fun h => ?_, fun h => ?_⟩
    · simpa using copyByte_memRead s.consume b i
    · simpa using copyByte_at_below (s := s.consume) (by simpa using h)
    · simpa using copyByte_at_last (s := s.consume) (by simpa using h)
  · obtain ⟨u, hrun, hu⟩ := run_copy hp hi hh le_rfl hr
    exact ⟨u, hrun, hu.position, hu.keeps.flags, hu.bytes_next, hu.keeps.grid, hu.keeps.trace⟩
  · funext i
    exact (foldl_copy_memRead s c order (!c) i).trans (if_pos ⟨rfl, hall i⟩)

/-! ### One cell of the scan (R158) -/

theorem scanCol_eq_ofNat (p : ScanPos) : scanCol p = BitVec.ofNat 7 (p.toNat % 128) :=
  BitVec.eq_of_toNat_eq (by simp [scanCol_toNat])

theorem scanRow_eq_ofNat (p : ScanPos) : scanRow p = BitVec.ofNat 6 (p.toNat / 128) := by
  have hp := p.isLt
  refine BitVec.eq_of_toNat_eq ?_
  rw [scanRow_toNat, BitVec.toNat_ofNat]
  omega

theorem toggleChanged_eq_ite (B N : Buffer) (x : Col) (y : Row) : toggleChanged B N (x, y) =
    if lifeRule (getCell B x y) (liveCount B x y) ≠ getCell B x y then toggleCell N x y else N := by
  simp only [toggleChanged, cellChanges, lifeChg_eq_decide_ne, decide_eq_true_eq]

/-- Settles O29: one toggle of R151 in the next buffer, and the current grid kept. -/
theorem scanEvaluatesOneCell : Obligations.ScanEvaluatesOneCell := by
  intro s hw x y hx hy
  rw [← scanCol_eq_ofNat] at hx
  rw [← scanRow_eq_ofNat] at hy
  subst hx hy
  have hstep := step_scan hw
  have hkeep := (consume_keepsGrid s).trans (scanCell_keepsGrid s.consume)
  refine ⟨_, hstep, hkeep.grid, ?_, hkeep.flags, step_usedInput hstep, hkeep.trace, fun h => ?_, fun h => ?_⟩
  · rw [← toggleChanged_eq_ite]
    simpa using scanCell_bytes_next s.consume
  · simpa using scanCell_at_below (s := s.consume) (by simpa using h)
  · simpa using scanCell_at_last (s := s.consume) (by simpa using h)

/-! ### SWAP (R160) -/

/-- Settles O30: the three writes of SWAP, on the state that has used up its input. -/
theorem swapHandsTheNextGridOver : Obligations.SwapHandsTheNextGridOver := by
  intro s hw
  rw [step_swap hw]
  simp [swapBuffers, State.flipCur, State.moveTo, State.respond, State.log]

end Sys2Proof.Machine
end

section
/-! PROOFS. STEP as a whole, and STEPs in a row (spec/41_stepper.md R155, R162, R163): O31 and O32. -/

namespace Sys2Proof.Machine

/-! ### The cells in raster order (R24, R158) -/

/-- The cell at a scan position. -/
def scanCellAt (p : ScanPos) : Col × Row := (scanCol p, scanRow p)

theorem scanCellAt_injective : Function.Injective scanCellAt := fun p q h => by
  obtain ⟨hcol, hrow⟩ := Prod.mk.inj h
  rw [← scanPos_of p, ← scanPos_of q, hcol, hrow]

/-- The first `n` cells in raster order. -/
def rasterCells (n : Nat) : List (Col × Row) :=
  (List.range n).map fun k => scanCellAt (BitVec.ofNat 13 k)

theorem rasterCells_succ (n : Nat) :
    rasterCells (n + 1) = rasterCells n ++ [scanCellAt (BitVec.ofNat 13 n)] := by
  simp [rasterCells, List.range_succ]

theorem rasterCells_nodup : (rasterCells 8192).Nodup := by
  refine List.Nodup.map_on (fun j hj k hk h => ?_) List.nodup_range
  have hn := congrArg BitVec.toNat (scanCellAt_injective h)
  rwa [BitVec.toNat_ofNat, BitVec.toNat_ofNat, Nat.mod_eq_of_lt (List.mem_range.mp hj),
    Nat.mod_eq_of_lt (List.mem_range.mp hk)] at hn

theorem mem_rasterCells (c : Col × Row) : c ∈ rasterCells 8192 := by
  refine List.mem_map.mpr ⟨(scanPos c.1 c.2).toNat, List.mem_range.mpr (scanPos c.1 c.2).isLt, ?_⟩
  simp [scanCellAt]

/-! ### The phase SCAN (R158) -/

/-- `t` is `s`, in SCAN at position 0, after `n` SCAN micro-steps: the first `n` cells are evaluated. -/
structure State.Scanned (s : State) (n : Nat) (t : State) : Prop where
  position : t.At (if n < 8192 then .scan else .swap) s.idx (BitVec.ofNat 13 n)
  keeps : s.KeepsGrid t
  next : t.bytes (!s.cur) = (rasterCells n).foldl (toggleChanged (s.bytes s.cur)) (s.bytes (!s.cur))

theorem scanCell_at {s : State} {n : Nat} (hp : s.pos = BitVec.ofNat 13 n) (hn : n < 8192) :
    (scanCell s).At (if n + 1 < 8192 then .scan else .swap) s.idx (BitVec.ofNat 13 (n + 1)) := by
  have hpos : s.pos.toNat = n := by rw [hp, BitVec.toNat_ofNat, Nat.mod_eq_of_lt hn]
  rcases scanPos_below_or_last s.pos with h | h
  · rw [if_pos (by omega), BitVec.ofNat_add, ← hp]
    exact scanCell_at_below h
  · obtain rfl : n = 8191 := hpos.symm.trans h
    exact scanCell_at_last h

theorem State.Scanned.succ {s t : State} {n : Nat} (hh : s.halted = false) (hn : n < 8192)
    (h : s.Scanned n t) (hr : t.nextInput.rst = false) :
    ∃ u, step t = .next u ∧ s.Scanned (n + 1) u := by
  obtain ⟨⟨hp, hi, hpos⟩, hkeep, hnext⟩ := h
  rw [if_pos hn] at hp
  have hc : s.KeepsGrid t.consume := hkeep.trans (consume_keepsGrid t)
  refine ⟨scanCell t.consume, step_scan ⟨hr, hkeep.flags.halted.trans hh, hp⟩, ?_,
    hc.trans (scanCell_keepsGrid t.consume), ?_⟩
  · have hat := scanCell_at (s := t.consume) (by rw [consume_pos, hpos]) hn
    rwa [consume_idx, hi] at hat
  · have hwrite := scanCell_bytes_next t.consume
    rw [hc.flags.cur, hc.grid, consume_bytes t (!s.cur), hnext, consume_pos, hpos] at hwrite
    rw [hwrite, rasterCells_succ, List.foldl_append]
    rfl

theorem run_scan {s : State} (hp : s.phase = .scan) (hpos : s.pos = 0#13) (hh : s.halted = false) {n : Nat}
    (hn : n ≤ 8192) (hr : s.noReset n) : ∃ t, run n s = .next t ∧ s.Scanned n t :=
  run_numbered_invariant ⟨⟨hp, rfl, hpos⟩, .refl s, rfl⟩ (fun _ _ hlt h => h.succ hh hlt) hn hr

/-! ### A STEP in progress: COPY, then SCAN -/

theorem busy_of_phase_ite {s : State} {c : Prop} [Decidable c] {ph ph' : Phase}
    (h : s.phase = if c then ph else ph') (hph : ph ≠ .idle) (hph' : ph' ≠ .idle) : s.busy = true := by
  rw [State.busy, h]
  split <;> simpa

section
variable {s : State} (hp : s.phase = .copy) (hi : s.idx = 0#10) (hpos : s.pos = 0#13) (hh : s.halted = false)
include hp hi hpos hh

theorem run_copy_scan {n : Nat} (hn : n ≤ 8192) (hr : s.noReset (1024 + n)) :
    ∃ t, run (1024 + n) s = .next t ∧ s.KeepsGrid t ∧
      t.At (if n < 8192 then .scan else .swap) 0#10 (BitVec.ofNat 13 n) ∧
      t.bytes (!s.cur) = (rasterCells n).foldl (toggleChanged (s.bytes s.cur)) (s.bytes s.cur) := by
  obtain ⟨u, hrun, hu⟩ := run_copy hp hi hh le_rfl (noReset_le hr (by omega))
  obtain ⟨hup, hui, hupos⟩ := hu.position
  obtain ⟨t, hrun', ht⟩ := run_scan hup (hupos.trans hpos) (hu.keeps.flags.halted.trans hh) hn
    (noReset_after_run hr hrun)
  have hat := ht.position
  have hnext := ht.next
  rw [hui] at hat
  refine ⟨t, by rw [run_add 1024 n hrun, hrun'], hu.keeps.trans ht.keeps, hat, ?_⟩
  rwa [hu.keeps.flags.cur, hu.bytes_next, hu.keeps.grid] at hnext

/-- Before SWAP the block is busy, and nothing has shown at the ports. -/
theorem run_copy_scan_busy {k : Nat} (hk : k < 9217) (hr : s.noReset k) :
    ∃ v, run k s = .next v ∧ v.busy = true ∧ v.trace = s.trace := by
  by_cases h : k ≤ 1024
  · obtain ⟨v, hrun, hv⟩ := run_copy hp hi hh h hr
    exact ⟨v, hrun, busy_of_phase_ite hv.position.1 (by simp) (by simp), hv.keeps.trace⟩
  · obtain ⟨n, rfl⟩ : ∃ n, k = 1024 + n := ⟨k - 1024, by omega⟩
    obtain ⟨v, hrun, hkeep, hat, -⟩ := run_copy_scan hp hi hpos hh (by omega) hr
    exact ⟨v, hrun, busy_of_phase_ite hat.1 (by simp) (by simp), hkeep.trace⟩

/-- COPY, SCAN and SWAP: the next buffer becomes the next generation (R151) and then the current one. -/
theorem run_copy_scan_swap (hr : s.noReset 9217) :
    ∃ u, run 9217 s = .next u ∧ u.bytes (!s.cur) = nextGen (s.bytes s.cur) ∧
      u.bytes s.cur = s.bytes s.cur ∧ u.cur = !s.cur ∧ u.seeded = s.seeded ∧ u.Resting ∧
      u.resets = s.resets ∧ u.trace = s.trace ++ [.response 0x0#4] := by
  obtain ⟨t, hrun, hkeep, ⟨htp, hti, htpos⟩, hnext⟩ :=
    run_copy_scan hp hi hpos hh le_rfl (noReset_le hr (by omega))
  obtain ⟨hrst, -⟩ := noReset_succ (noReset_after_run (n := 9216) (m := 1) hr hrun)
  have hswap := step_swap ⟨hrst, hkeep.flags.halted.trans hh, htp⟩
  have hc : s.KeepsGrid t.consume := hkeep.trans (consume_keepsGrid t)
  refine ⟨swapBuffers t.consume, by rw [run_add 9216 1 hrun, run_succ 0 hswap, run_zero], ?_, hc.grid,
    congrArg (!·) hc.flags.cur, hc.flags.seeded, ⟨rfl, hc.flags.halted.trans hh, ?_, ?_⟩, hc.flags.resets,
    congrArg (· ++ _) hc.trace⟩
  · calc (swapBuffers t.consume).bytes (!s.cur) = t.bytes (!s.cur) := consume_bytes t _
      _ = _ := hnext
      _ = nextGen (s.bytes s.cur) :=
        foldl_toggleChanged_eq_nextGen _ rasterCells_nodup mem_rasterCells
  · exact (consume_idx t).trans hti
  · exact (consume_pos t).trans htpos

end

/-- Settles O31: acceptance starts COPY at index 0, and the rest is the run through COPY, SCAN and SWAP. -/
theorem stepComputesTheNextGeneration : Obligations.StepComputesTheNextGeneration := by
  intro s hrest hseed
  refine ⟨_, exec_step_seeded hseed,
    fun k hk hr => run_copy_scan_busy (s := s.moveTo .copy s.idx s.pos) rfl hrest.idx hrest.pos
      hrest.running hk hr, fun hr => ?_⟩
  obtain ⟨u, hrun, hnext, hgrid, hcur, hu, hresting, hresets, htrace⟩ :=
    run_copy_scan_swap (s := s.moveTo .copy s.idx s.pos) rfl hrest.idx hrest.pos hrest.running hr
  exact ⟨u, hrun, hnext, hgrid, hcur, hu.trans hseed, hresting, hresets, htrace⟩

/-! ### STEPs in a row (R163) -/

theorem State.Resting.accepting {s : State} {w : CmdWord} {ps : List PortIn} (h : s.Resting)
    (hin : s.inputs = offer w :: ps) : s.Accepting w := by
  have hnext := nextInput_cons s _ _ hin
  exact ⟨by rw [hnext]; rfl, h.running, h.idle, by rw [hnext]; rfl, by rw [hnext]; rfl⟩

theorem quiet_noReset {s : State} {n : Nat} {rest : List PortIn}
    (h : s.inputs = List.replicate n quiet ++ rest) :
    s.noReset n := by
  have hr := noReset_listed s _ _ h fun p hp => by rw [List.eq_of_mem_replicate hp]; rfl
  rwa [List.length_replicate] at hr

/-- One STEP that is offered to the block at rest: 9218 micro-steps (R162). -/
theorem run_stepInputs {s : State} {rest : List PortIn} (hrest : s.Resting) (hseed : s.seeded = true)
    (hin : s.inputs = stepInputs ++ rest) :
    ∃ u, run 9218 s = .next u ∧ u.bytes u.cur = nextGen (s.bytes s.cur) ∧ u.cur = (!s.cur) ∧
      u.seeded = true ∧ u.Resting ∧ u.inputs = rest := by
  have hcons := consume_cons s _ _ hin
  have hstep := (step_accepted (hrest.accepting hin) (decode_encode .step)).trans
    (exec_step_seeded (by simp [hseed]))
  generalize ht : ((s.consume.log (.accepted (encode .step))).moveTo .copy _ _) = t at hstep
  have htin : t.inputs = List.replicate 9217 quiet ++ rest := by rw [← ht, hcons]; rfl
  have hkeep : t.cur = s.cur ∧ t.seeded = s.seeded ∧ t.bytes s.cur = s.bytes s.cur := by simp [← ht]
  obtain ⟨hcur, htseed, hgrid⟩ := hkeep
  obtain ⟨u, hrun, hnext, -, hucur, huseed, hresting, -, -⟩ := run_copy_scan_swap (s := t)
    (by simp [← ht]) (by simp [← ht, hrest.idx]) (by simp [← ht, hrest.pos]) (by simp [← ht, hrest.running])
    (quiet_noReset htin)
  rw [hcur] at hucur hnext
  refine ⟨u, (run_succ 9217 hstep).trans hrun, ?_, hucur, huseed.trans (htseed.trans hseed), hresting, ?_⟩
  · rw [hucur, hnext, hgrid]
  · have hused := (run_usedInputs hrun).1
    have hlisted := consumeN_listed t _ _ htin
    rw [List.length_replicate] at hlisted
    rw [hused, hlisted]

/-- Settles O32, by induction on the number of STEPs: after the first one the block rests again. -/
theorem repeatedStepsIterateNextGen : Obligations.RepeatedStepsIterateNextGen := by
  intro s k rest hrest hseed hin
  induction k generalizing s with
  | zero => exact ⟨s, by simp, rfl, rfl, hseed, hrest, hin⟩
  | succ k ih =>
    rw [List.replicate_succ, List.flatten_cons, List.append_assoc] at hin
    obtain ⟨t, hrun, hnext, hcur, htseed, htrest, htin⟩ := run_stepInputs hrest hseed hin
    obtain ⟨u, hrun', hnext', hcur', hu⟩ := ih t htrest htseed htin
    refine ⟨u, ?_, by rw [hnext', hnext, Function.iterate_succ_apply], ?_, hu⟩
    · rw [Nat.succ_mul, Nat.add_comm, run_add 9218 _ hrun, hrun']
    · rw [hcur', hcur]
      rcases Nat.mod_two_eq_zero_or_one k with h | h
      · simp [h, Nat.add_mod]
      · simp [h, Nat.add_mod]

end Sys2Proof.Machine
end

section
/-! PROOFS. NOP (spec/42_render_and_control.md R186), and the two kinds of micro-step of DRAW (R181, R182):
O17, O33 and O34. -/

namespace Sys2Proof.Machine

/-! ### NOP (R186) -/

theorem exec_nop (s : State) : exec .nop s = .next (s.respond .ok false) := rfl

/-- Settles O17: the word decodes to NOP, and the answer follows the acceptance in the record. -/
theorem nopAnswersOkAndChangesNothing : Obligations.NopAnswersOkAndChangesNothing := by
  refine ⟨rfl, exec_nop, fun s ha => ?_⟩
  rw [step_accepted ha (decode_encode .nop), exec_nop]
  simp [State.respond, State.log]

/-! ### DRAW, acceptance (R181) -/

theorem exec_draw_seeded {s : State} (h : s.seeded = true) :
    exec .draw s = .next (s.moveTo .draw s.idx s.pos) := by
  simp only [exec, execDraw, ifSeeded_true _ h]

theorem exec_draw_unseeded {s : State} (h : s.seeded = false) :
    exec .draw s = .next (s.respond .unseeded false) := by
  simp only [exec, execDraw, ifSeeded_false _ h]

theorem pixValid_of_draw {s : State} {p : PortIn} (hp : s.phase = .draw) (hr : p.rst = false) :
    s.pixValid p = true := by
  simp [State.pixValid, hp, hr]

theorem pixPort_of_draw {s : State} {p : PortIn} (hp : s.phase = .draw) (hr : p.rst = false) :
    s.pixPort p = some (s.idx, s.memRead s.cur s.idx) :=
  if_pos (pixValid_of_draw hp hr)

/-- Settles O33: the move to DRAW keeps both positions, R28 has `IDX` at 0 in IDLE, and the port shows the
byte at `IDX` in every state in DRAW. -/
theorem drawAcceptanceEntersPhaseDraw : Obligations.DrawAcceptanceEntersPhaseDraw := fun _ =>
  ⟨exec_draw_unseeded, exec_draw_seeded, fun hs hp => (hs.resting (.inl hp)).1,
    fun _ hr => ⟨pixValid_of_draw rfl hr, pixPort_of_draw rfl hr⟩⟩

/-! ### DRAW, byte micro-step (R182) -/

theorem step_draw_failing {s : State} (hw : s.Working .draw) (hf : s.nextInput.sinkFail = true) :
    step s = .next s.consume.raiseSinkFail := by
  rw [step_draw hw, drawStep, if_pos hf]

theorem step_draw_byte {s : State} (hw : s.Working .draw) (hf : s.nextInput.sinkFail = false)
    (hrdy : s.nextInput.pixReady = true) : step s = .next (drawByte s.consume) := by
  simp [step_draw hw, drawStep, hf, hrdy]

theorem step_draw_waiting {s : State} (hw : s.Working .draw) (hf : s.nextInput.sinkFail = false)
    (hrdy : s.nextInput.pixReady = false) : step s = .next s.consume := by
  simp [step_draw hw, drawStep, hf, hrdy]

theorem raiseSinkFail_eq_of_draw {s : State} (hp : s.phase = .draw) :
    s.raiseSinkFail = { s with idx := 0#10, phase := .idle, halted := true,
                               trace := s.trace ++ [.sinkFailed, .response 0x6#4] } := by
  simp [raiseSinkFail_draw hp, State.moveTo, State.markHalted, State.respond, State.log]

theorem drawByte_eq_below {s : State} (hp : s.phase = .draw) (h : s.idx.toNat < 1023) :
    drawByte s = { s with idx := s.idx + 1#10,
                          trace := s.trace ++ [.sent s.idx (s.memRead s.cur s.idx)] } := by
  simp [drawByte, lt_lastIndex_iff, h, hp, State.emit, State.moveTo, State.log]

theorem drawByte_eq_last {s : State} (h : s.idx.toNat = 1023) :
    drawByte s = { s with idx := 0#10, phase := .idle,
                          trace := s.trace ++ [.sent s.idx (s.memRead s.cur s.idx), .response 0x0#4] } := by
  simp [drawByte, lt_lastIndex_iff, h, State.emit, State.moveTo, State.respond, State.log]

/-! ### What a byte micro-step keeps and sends -/

theorem drawByte_sameFlags (s : State) : s.SameFlags (drawByte s) := by
  simp only [drawByte]
  split <;> exact ⟨rfl, rfl, rfl, rfl⟩

@[simp] theorem drawByte_bytes (s : State) (b : Bool) : (drawByte s).bytes b = s.bytes b := by
  simp only [drawByte]
  split <;> rfl

theorem sentOf_append (es es' : List Event) : sentOf (es ++ es') = sentOf es ++ sentOf es' :=
  List.filterMap_append

theorem responsesOf_append (es es' : List Event) :
    responsesOf (es ++ es') = responsesOf es ++ responsesOf es' :=
  List.filterMap_append

theorem sentOf_drawByte (s : State) :
    sentOf (drawByte s).trace = sentOf s.trace ++ [(s.idx, s.bytes s.cur s.idx)] := by
  rw [drawByte_trace, sentOf_append]
  split <;> rfl

theorem responsesOf_drawByte (s : State) : responsesOf (drawByte s).trace =
    responsesOf s.trace ++ if s.idx.toNat = 1023 then [0x0#4] else [] := by
  rw [drawByte_trace, responsesOf_append, responsesOf_sent, apply_ite responsesOf]
  rfl

/-- A failed sink is sent nothing (R212). -/
theorem sentOf_raiseSinkFail (s : State) : sentOf s.raiseSinkFail.trace = sentOf s.trace := by
  rw [raiseSinkFail_trace, sentOf_append]
  split <;> exact List.append_nil _

/-! ### A DRAW in progress (R180, R182) -/

theorem take_succ_frameOf (B : Buffer) {k : Nat} (hk : k < 1024) :
    (frameOf B).take (k + 1) = (frameOf B).take k ++ [(nthIndex k, B (nthIndex k))] := by
  rw [List.take_succ_eq_append_getElem (by simpa [frameOf, Config.bufSize] using hk)]
  simp [frameOf]

/-- `t` is `s`, in DRAW at index 0, after the sink has taken `k` bytes: the first `k` bytes of the frame
are sent, and the command is answered once they are all. -/
structure State.Drawn (s : State) (k : Nat) (t : State) : Prop where
  position : t.At (if k < 1024 then .draw else .idle) (nthIndex k) s.pos
  flags : s.SameFlags t
  bytes : ∀ b, t.bytes b = s.bytes b
  sent : sentOf t.trace = sentOf s.trace ++ (frameOf (s.bytes s.cur)).take k
  answered : responsesOf t.trace = responsesOf s.trace ++ if k < 1024 then [] else [0x0#4]

theorem State.Drawn.start {s : State} (hp : s.phase = .draw) (hi : s.idx = 0#10) : s.Drawn 0 s :=
  ⟨⟨hp, hi, rfl⟩, ⟨rfl, rfl, rfl, rfl⟩, fun _ => rfl, by simp, by simp⟩

/-- A DRAW that waits (R182). -/
theorem State.Drawn.consume {s t : State} {k : Nat} (h : s.Drawn k t) : s.Drawn k t.consume where
  position := by simpa [State.At] using h.position
  flags := h.flags.trans (consume_keepsGrid t).flags
  bytes b := (consume_bytes t b).trans (h.bytes b)
  sent := by rw [consume_trace, h.sent]
  answered := by rw [consume_trace, h.answered]

theorem drawByte_at {s : State} {k : Nat} (hi : s.idx = nthIndex k) (hk : k < 1024) :
    (drawByte s).At (if k + 1 < 1024 then .draw else .idle) (nthIndex (k + 1)) s.pos := by
  have hidx : s.idx.toNat = k := by rw [hi, nthIndex_toNat hk]
  rcases index_below_or_last s.idx with h | h
  · rw [if_pos (by omega), nthIndex_succ, ← hi]
    exact drawByte_at_below h
  · obtain rfl : k = 1023 := hidx.symm.trans h
    exact drawByte_at_last h

/-- A DRAW whose sink takes the next byte (R182). -/
theorem State.Drawn.drawByte {s t : State} {k : Nat} (hk : k < 1024) (h : s.Drawn k t) :
    s.Drawn (k + 1) (drawByte t) := by
  obtain ⟨⟨-, hi, hpos⟩, hflags, hbytes, hsent, hanswered⟩ := h
  refine ⟨hpos ▸ drawByte_at hi hk, hflags.trans (drawByte_sameFlags t),
    fun b => (drawByte_bytes t b).trans (hbytes b), ?_, ?_⟩
  · rw [sentOf_drawByte, hsent, hi, hflags.cur, hbytes, take_succ_frameOf _ hk, List.append_assoc]
  · have hlast : k = 1023 ↔ ¬ k + 1 < 1024 := by omega
    rw [responsesOf_drawByte, hanswered, hi, nthIndex_toNat hk, if_pos hk, List.append_nil]
    simp only [hlast, ite_not]

theorem State.Drawn.working {s t : State} {k : Nat} (hh : s.halted = false) (hk : k < 1024)
    (h : s.Drawn k t) (hr : t.nextInput.rst = false) : t.Working .draw :=
  ⟨hr, h.flags.halted.trans hh, h.position.1.trans (if_pos hk)⟩

/-- One micro-step without a failure: one byte more where the sink is ready. -/
theorem State.Drawn.step {s t : State} {k : Nat} (hh : s.halted = false) (hk : k < 1024)
    (h : s.Drawn k t) (hr : t.nextInput.rst = false) (hf : t.nextInput.sinkFail = false) :
    ∃ u, step t = .next u ∧ s.Drawn (k + t.nextInput.pixReady.toNat) u := by
  have hw := h.working hh hk hr
  cases hrdy : t.nextInput.pixReady with
  | true => exact ⟨_, step_draw_byte hw hf hrdy, h.consume.drawByte hk⟩
  | false => exact ⟨_, step_draw_waiting hw hf hrdy, h.consume⟩

/-- A DRAW goes on, without a failure, as long as the sink has not taken all its bytes: it has sent as many
more as the sink was ready for. -/
theorem State.Drawn.run {s t : State} {n k : Nat} (hh : s.halted = false) (h : s.Drawn k t)
    (hr : t.noReset n) (hf : ∀ p ∈ t.comingInputs n, p.sinkFail = false)
    (hk : k + ((t.comingInputs n).filter (·.pixReady)).length < 1024) :
    ∃ u, run n t = .next u ∧ s.Drawn (k + ((t.comingInputs n).filter (·.pixReady)).length) u := by
  induction n generalizing k t with
  | zero => exact ⟨t, rfl, h⟩
  | succ n ih =>
    obtain ⟨hrst, hr'⟩ := noReset_succ hr
    obtain ⟨hsink, hf'⟩ := List.forall_mem_cons.mp hf
    obtain ⟨v, hstep, hv⟩ := h.step hh (by omega) hrst hsink
    obtain ⟨hin, hfree⟩ := step_usedInput hstep
    have hcoming := comingInputs_congr hin hfree n
    have hcount : k + ((t.comingInputs (n + 1)).filter (·.pixReady)).length =
        k + t.nextInput.pixReady.toNat + ((v.comingInputs n).filter (·.pixReady)).length := by
      rw [hcoming]
      simp [State.comingInputs, length_filter_eq_sum_toNat, Nat.add_assoc]
    rw [hcount] at hk ⊢
    rw [run_succ n hstep]
    exact ih hv (noReset_congr hin hfree hr') (hcoming ▸ hf') hk

/-! ### A failure after `k` bytes (R182) -/

theorem comingInputs_succ_eq_append (s : State) (n : Nat) :
    s.comingInputs (n + 1) = s.comingInputs n ++ [(s.consumeN n).nextInput] := by
  induction n generalizing s with
  | zero => rfl
  | succ n ih => exact congrArg (s.nextInput :: ·) (ih s.consume)

theorem nextInput_after_run {s t : State} {n : Nat} (h : run n s = .next t) :
    t.nextInput = (s.consumeN n).nextInput :=
  nextInput_congr (run_usedInputs h).1 (run_usedInputs h).2

/-- Settles O34: each clause on one micro-step is one equation above, and a failure after `k` bytes ends a
run that has sent the first `k` bytes of the frame. -/
theorem drawSendsTheByteAtTheIndex : Obligations.DrawSendsTheByteAtTheIndex := by
  refine ⟨fun s hw => ⟨fun hf => ?_, fun hf hrdy hi => ?_, fun hf hrdy hi => ?_, step_draw_waiting hw⟩, ?_⟩
  · rw [step_draw_failing hw hf, raiseSinkFail_eq_of_draw (by simp [hw.phase]), consume_trace]
  · rw [step_draw_byte hw hf hrdy, drawByte_eq_below (by simp [hw.phase]) (by simpa using hi)]
    simp
  · rw [step_draw_byte hw hf hrdy, drawByte_eq_last (by simpa using hi)]
    simp
  · rintro s n k hp hh hi hr hf rfl hk hlast
    rw [← Nat.zero_add (List.length _)] at hk
    obtain ⟨t, hrun, ht⟩ := (State.Drawn.start hp hi).run hh (noReset_le hr (Nat.le_succ n)) hf hk
    have hfail : t.nextInput.sinkFail = true := by
      simpa [comingInputs_succ_eq_append, nextInput_after_run hrun] using hlast
    have hstep := step_draw_failing (ht.working hh hk (noReset_succ (noReset_after_run hr hrun)).1) hfail
    refine ⟨_, by rw [run_add n 1 hrun, run_succ 0 hstep, run_zero], raiseSinkFail_halted _, ?_⟩
    rw [sentOf_raiseSinkFail, consume_trace, ht.sent, Nat.zero_add]

end Sys2Proof.Machine
end

section
/-! PROOFS. The errors and the halt (spec/60_exceptions.md): ILLEGAL (R204), UNSEEDED (R205), the halt entry and
the halted state (R211, R212, R217), and the order of the checks (R214): O22, O23 and O39 to O42. -/

namespace Sys2Proof.Machine

/-! ### The answer of an accepted word that is not executed (R204, R205) -/

theorem log_consume (s : State) (e : Event) :
    s.consume.log e = { s.consume with trace := s.trace ++ [e] } := by
  rw [State.log, consume_trace]

theorem respond_log_consume (s : State) (w : CmdWord) (c : Code) :
    (s.consume.log (.accepted w)).respond c false =
      { s.consume with trace := s.trace ++ [.accepted w, .response (rspWord c false)] } := by
  simp [State.respond, State.log]

theorem step_illegal {s : State} {w : CmdWord} {r : Reserved} (ha : s.Accepting w) (hd : decode w = .error r) :
    step s = .next { s.consume with trace := s.trace ++ [.accepted w, .response 0x2#4] } := by
  rw [step_rejected ha hd, respond_log_consume, rspWord_illegal]

/-- Settles O23: the word is rejected before `SEEDED` is looked at. -/
theorem reservedWordsAreAnsweredIllegal : Obligations.ReservedWordsAreAnsweredIllegal :=
  fun _ _ _ hd ha => step_illegal ha hd

theorem exec_unseeded {s : State} {i : Instr} (hseed : s.seeded = false) (hnop : i ≠ .nop) (hfill : i ≠ .fill) :
    exec i s = .next (s.respond .unseeded false) := by
  cases i with
  | nop => contradiction
  | fill => contradiction
  | get x y => simp only [exec, execGet, ifSeeded_false _ hseed]
  | tgl x y => simp only [exec, execTgl, ifSeeded_false _ hseed]
  | step => exact exec_step_unseeded hseed
  | draw => exact exec_draw_unseeded hseed

theorem step_unseeded {s : State} {w : CmdWord} {i : Instr} (ha : s.Accepting w) (hd : decode w = .ok i)
    (hseed : s.seeded = false) (hnop : i ≠ .nop) (hfill : i ≠ .fill) :
    step s = .next { s.consume with trace := s.trace ++ [.accepted w, .response 0x4#4] } := by
  rw [step_accepted ha hd, exec_unseeded (by simpa using hseed) hnop hfill, respond_log_consume,
    rspWord_unseeded]

/-! ### The answers of a command that is executed (R214) -/

theorem mem_responsesOf (r : RspWord) (es : List Event) : r ∈ responsesOf es ↔ .response r ∈ es := by
  induction es with
  | nil => simp
  | cons e es ih =>
    rw [List.mem_cons, ← ih]
    cases e <;> simp [responsesOf]

theorem response_notMem_drop_iff (s t : State) (r : RspWord) :
    .response r ∉ t.trace.drop s.trace.length ↔ r ∉ newResponses s t :=
  (not_congr (mem_responsesOf r _)).symm

/-- A command that passes the check of `SEEDED` gets no answer at acceptance but OK. -/
theorem exec_trace_of_executed {i : Instr} {s t : State} (h : exec i s = .next t)
    (hi : i = .nop ∨ i = .fill ∨ s.seeded = true) :
    t.trace = s.trace ∨ ∃ q, t.trace = s.trace ++ [.response (rspWord .ok q)] := by
  rcases exec_cases h with ⟨-, rfl⟩ | ⟨x, y, -, -, rfl⟩ | ⟨x, y, -, -, rfl⟩ | ⟨-, -, rfl⟩ |
    ⟨-, rfl⟩ | ⟨-, -, rfl⟩ | ⟨hnop, hfill, hseed, -⟩
  · exact .inr ⟨_, rfl⟩
  · exact .inr ⟨_, rfl⟩
  · exact .inr ⟨false, by simp⟩
  · exact .inl rfl
  · exact .inl rfl
  · exact .inl rfl
  · simp [hnop, hfill, hseed] at hi

theorem rspWord_ok_not_error (q : Bool) : rspWord .ok q ≠ 0x2#4 ∧ rspWord .ok q ≠ 0x4#4 := by
  revert q
  decide

/-- An executed command is answered with neither error, ILLEGAL nor UNSEEDED. -/
theorem executed_newResponses {s t : State} {w : CmdWord} {i : Instr} (ha : s.Accepting w)
    (hd : decode w = .ok i) (hi : i = .nop ∨ i = .fill ∨ s.seeded = true) (h : step s = .next t) :
    0x2#4 ∉ newResponses s t ∧ 0x4#4 ∉ newResponses s t := by
  rw [step_accepted ha hd] at h
  rcases exec_trace_of_executed h (by simpa using hi) with ht | ⟨q, ht⟩
  · rw [newResponses_eq (es := [.accepted w]) (by simp [ht])]
    simp
  · rw [newResponses_eq (es := [.accepted w, .response (rspWord .ok q)]) (by simp [ht])]
    simpa [eq_comm] using rspWord_ok_not_error q

/-! ### `SEEDED` stays 1 until a reset (R205) -/

theorem exec_seeded {i : Instr} {s t : State} (h : exec i s = .next t) : t.seeded = s.seeded := by
  rcases exec_cases h with ⟨-, rfl⟩ | ⟨x, y, -, -, rfl⟩ | ⟨x, y, -, -, rfl⟩ | ⟨-, -, rfl⟩ |
    ⟨-, rfl⟩ | ⟨-, -, rfl⟩ | ⟨-, -, -, rfl⟩ <;> simp

theorem fillByte_keeps_seeded {s : State} (v : Byte) (hseed : s.seeded = true) :
    (fillByte v s).seeded = true := by
  rcases index_below_or_last s.idx with h | h
  · rw [fillByte_seeded_below v h, hseed]
  · exact fillByte_seeded_last v h

theorem clock_keeps_seeded {p : PortIn} {s t : State} (hseed : s.seeded = true) (hr : p.rst = false)
    (h : clock p s = .next t) : t.seeded = true := by
  rcases clock_cases h with ⟨hr', -⟩ | ⟨-, -, rfl⟩ | ⟨-, -, hrow⟩
  · simp [hr] at hr'
  · exact hseed
  · rcases hrow with ⟨-, -, rfl⟩ | ⟨-, -, -, rfl⟩ | ⟨w, r, -, -, -, -, rfl⟩ | ⟨w, i, -, -, -, -, hx⟩ |
      ⟨-, -, rfl⟩ | ⟨v, -, -, rfl⟩ | ⟨-, rfl⟩ | ⟨-, rfl⟩ | ⟨-, rfl⟩ | ⟨-, -, rfl⟩ | ⟨-, -, -, rfl⟩ |
      ⟨-, -, -, rfl⟩
    · exact (raiseSinkFail_seeded s).trans hseed
    · exact hseed
    · exact hseed
    · exact (exec_seeded hx).trans hseed
    · exact hseed
    · exact fillByte_keeps_seeded v hseed
    · exact (copyByte_keepsGrid s).flags.seeded.trans hseed
    · exact (scanCell_keepsGrid s).flags.seeded.trans hseed
    · exact hseed
    · exact (raiseSinkFail_seeded s).trans hseed
    · exact (drawByte_sameFlags s).seeded.trans hseed
    · exact hseed

/-! ### A seeded block never answers UNSEEDED (R205) -/

section
variable {s t : State} (hseed : s.seeded = true) (hr : s.nextInput.rst = false) (h : step s = .next t)
include hseed hr h

theorem seeded_idle_newResponses (hh : s.halted = false) (hp : s.phase = .idle) :
    0x4#4 ∉ newResponses s t := by
  by_cases hno : s.nextInput.sinkFail = true ∨ s.nextInput.cmd = none
  · simp [idle_newResponses hr hh h hp hno]
  · obtain ⟨hsink, hcmd⟩ := not_or.mp hno
    obtain ⟨w, hw⟩ := Option.ne_none_iff_exists'.mp hcmd
    have ha : s.Accepting w := ⟨hr, hh, hp, by simpa using hsink, hw⟩
    cases hd : decode w with
    | error r =>
      obtain rfl := eq_of_step h (step_illegal ha hd)
      simp [newResponses]
    | ok i => exact (executed_newResponses ha hd (.inr (.inr hseed)) h).2

theorem seeded_newResponses : 0x4#4 ∉ newResponses s t := by
  cases hh : s.halted with
  | true =>
    obtain rfl := eq_of_step h (step_halted hr hh)
    simp [newResponses]
  | false =>
    cases hp : s.phase with
    | idle => exact seeded_idle_newResponses hseed hr h hh hp
    | fill =>
      rw [fill_newResponses hr hh h hp]
      split <;> simp
    | copy => simp [copy_or_scan_newResponses hr hh h (.inl hp)]
    | scan => simp [copy_or_scan_newResponses hr hh h (.inr hp)]
    | swap => simp [swap_newResponses hr hh h hp]
    | draw =>
      rw [draw_newResponses hr hh h hp]
      split
      · simp
      · split <;> simp

end

/-- Settles O22: the check of `SEEDED` answers, and past it, in every phase, no other code 2 is given. -/
theorem unseededCommandsAreAnsweredUnseeded : Obligations.UnseededCommandsAreAnsweredUnseeded := by
  refine ⟨fun s i => exec_unseeded, fun s w i => step_unseeded, fun s t w i ha hd hi h => ?_,
    fun s t hseed hr h => ⟨clock_keeps_seeded (by simpa using hseed) hr h, ?_⟩⟩
  · rw [response_notMem_drop_iff]
    exact (executed_newResponses ha hd (hi.imp_right .inl) h).2
  · rw [response_notMem_drop_iff]
    exact seeded_newResponses hseed hr h

/-! ### Where `sink_fail` is looked at (R211) -/

theorem clock_failing {p : PortIn} {s : State} (hr : p.rst = false) (hh : s.halted = false)
    (hf : p.sinkFail = true) (hp : s.phase = .idle ∨ s.phase = .draw) :
    clock p s = .next s.raiseSinkFail := by
  rcases hp with hp | hp
  · simp [clock, hr, hh, phaseStep, hp, idleStep, hf]
  · simp [clock, hr, hh, phaseStep, hp, drawStep, hf]

theorem step_failing {s : State} (hr : s.nextInput.rst = false) (hh : s.halted = false)
    (hf : s.nextInput.sinkFail = true) (hp : s.phase = .idle ∨ s.phase = .draw) :
    step s = .next s.consume.raiseSinkFail :=
  clock_failing hr (by simpa using hh) hf (by simpa using hp)

theorem phaseStep_sinkFail (p : PortIn) {s : State} (b : Bool)
    (hp : s.phase = .fill ∨ s.phase = .copy ∨ s.phase = .scan ∨ s.phase = .swap) :
    phaseStep { p with sinkFail := b } s = phaseStep p s := by
  rcases hp with hp | hp | hp | hp <;> simp only [phaseStep, hp, fillStep]

theorem clock_sinkFail (p : PortIn) {s : State} (b : Bool)
    (h : s.halted = true ∨ s.phase = .fill ∨ s.phase = .copy ∨ s.phase = .scan ∨ s.phase = .swap) :
    clock { p with sinkFail := b } s = clock p s := by
  rcases h with hh | hp
  · simp only [clock, hh, if_true]
  · simp only [clock, phaseStep_sinkFail p b hp]

/-- Settles O42: no other micro-step has `sink_fail` among what it depends on. -/
theorem sinkFailIsSampledOnlyInIdleAndDraw : Obligations.SinkFailIsSampledOnlyInIdleAndDraw :=
  ⟨fun _ p b => clock_sinkFail p b,
    fun _ _ hr hf hh hp => ⟨_, clock_failing hr hh hf hp, raiseSinkFail_halted _⟩⟩

/-! ### The halt entry (R212) -/

theorem raiseSinkFail_eq_of_idle {s : State} (hp : s.phase = .idle) :
    s.raiseSinkFail = { s with halted := true, trace := s.trace ++ [.sinkFailed] } := by
  simp [raiseSinkFail_idle, hp, State.markHalted, State.log]

theorem raiseSinkFail_phase {s : State} (hp : s.phase = .idle ∨ s.phase = .draw) :
    s.raiseSinkFail.phase = .idle :=
  hp.elim (fun hp => (raiseSinkFail_at_of_idle hp).1) (fun hp => (raiseSinkFail_at_of_draw hp).1)

theorem status_of_halted {s : State} (hh : s.halted = true) (hp : s.phase = .idle) :
    s.status = 0b100#3 ||| (if s.seeded then 0b010#3 else 0b000#3) := by
  simp only [State.status, State.busy, hh, hp]
  cases s.seeded <;> rfl

/-- A halted block offers and takes nothing at its ports (R217). -/
theorem ports_of_halted {s : State} (hh : s.halted = true) (hp : s.phase = .idle) (p : PortIn) :
    s.cmdReady p = false ∧ s.rndReady p = false ∧ s.pixValid p = false := by
  simp [State.cmdReady, State.rndReady, State.pixValid, hh, hp]

/-- Settles O39: in both phases the step is the halt entry, which ends in IDLE with `HALTED` set. -/
theorem sinkFailureHaltsTheBlock : Obligations.SinkFailureHaltsTheBlock := by
  refine fun s hh hr hf => ⟨fun hp => ?_, fun hp => ?_, fun hp => ⟨_, step_failing hr hh hf hp, ?_⟩⟩
  · rw [step_failing hr hh hf (.inl hp), raiseSinkFail_eq_of_idle (by simp [hp]), consume_trace]
  · rw [step_failing hr hh hf (.inr hp), raiseSinkFail_eq_of_draw (by simp [hp]), consume_trace]
  · have hhalted := raiseSinkFail_halted s.consume
    have hidle : s.consume.raiseSinkFail.phase = .idle := raiseSinkFail_phase (by simpa using hp)
    exact ⟨by simpa using status_of_halted hhalted hidle, by simp, ports_of_halted hhalted hidle⟩

/-! ### The halted state (R217) -/

@[simp] theorem consumeN_trace (s : State) (n : Nat) : (s.consumeN n).trace = s.trace := by
  induction n generalizing s with
  | zero => rfl
  | succ n ih => exact (ih s.consume).trans (consume_trace s)

theorem run_halted {s : State} {n : Nat} (hh : s.halted = true) (hr : s.noReset n) :
    run n s = .next (s.consumeN n) := by
  induction n generalizing s with
  | zero => rfl
  | succ n ih =>
    obtain ⟨hrst, hrest⟩ := noReset_succ hr
    rw [run_succ n (step_halted hrst hh)]
    exact ih (by simpa using hh) hrest

/-- Settles O40: each step only uses up its input, and R28 has the halted block in IDLE. -/
theorem haltedBlockStaysAsItIs : Obligations.HaltedBlockStaysAsItIs := by
  intro s n hs hh hr
  obtain ⟨-, -, hbit⟩ := status_bits s
  exact ⟨run_halted hh hr, consumeN_trace s n, hbit.trans hh, ports_of_halted hh (hs.halted hh)⟩

/-! ### The order of the checks (R214) -/

/-- With a failed sink no command is accepted. -/
theorem acceptedOf_raiseSinkFail (s : State) : acceptedOf s.raiseSinkFail.trace = acceptedOf s.trace := by
  rw [raiseSinkFail_trace, acceptedOf, List.filterMap_append]
  split <;> exact List.append_nil _

theorem responsesOf_raiseSinkFail {s : State} (hp : s.phase = .idle) :
    responsesOf s.raiseSinkFail.trace = responsesOf s.trace := by
  simp [hp, responsesOf_append]

theorem exec_answers (i : Instr) (s : State) : ∃ t, exec i s = .next t := by
  cases i <;> exact ⟨_, rfl⟩

/-- Settles O41: each check in its order is one equation of the step above. -/
theorem checksAreTakenInOrder : Obligations.ChecksAreTakenInOrder := by
  refine fun s => ⟨fun hr => ⟨_, clock_rst hr, ?_⟩, step_halted, fun hr hh hf hp => ?_,
    fun w r => step_illegal, fun w i ha hd hnop hfill hseed => step_unseeded ha hd hseed hnop hfill,
    fun w i ha hd hi => ?_⟩
  · exact ⟨⟨rfl, rfl, rfl⟩, rfl, rfl, by simp⟩
  · refine ⟨_, step_failing hr hh hf hp, raiseSinkFail_halted _, ?_, ?_, fun hidle => ?_⟩
    · rw [acceptedOf_raiseSinkFail, consume_trace]
    · rw [sentOf_raiseSinkFail, consume_trace]
    · rw [responsesOf_raiseSinkFail (by simpa using hidle), consume_trace]
  · have hstep := step_accepted ha hd
    obtain ⟨t, ht⟩ := exec_answers i (s.consume.log (.accepted w))
    simp only [response_notMem_drop_iff]
    exact ⟨log_consume s _ ▸ hstep, t, hstep.trans ht, executed_newResponses ha hd hi (hstep.trans ht)⟩

end Sys2Proof.Machine
end

section
/-! PROOFS. Reset (spec/70_reset_and_hazards.md R240, R241): O43. -/

namespace Sys2Proof.Machine

theorem step_reset {s : State} (hr : s.nextInput.rst = true) : step s = .next s.consume.doReset :=
  clock_rst hr

theorem status_of_unseeded_rest {s : State} (hh : s.halted = false) (hs : s.seeded = false)
    (hp : s.phase = .idle) : s.status = 0b000#3 := by
  simp only [State.status, State.busy, hh, hs, hp]
  rfl

/-- Nothing is written where no buffer lists a byte (R40). -/
theorem isWritten_of_unlisted {s : State} (hb : ∀ b, s.buf b = []) (b : Bool) (i : Index) :
    s.isWritten b i = false := by
  rw [State.isWritten, hb]
  rfl

@[simp] theorem reset_buf (b : Bool) : State.reset.buf b = [] := ite_self _

/-- The ready and valid ports are 0 while `rst = 1` (R240). -/
theorem ports_of_rst (s : State) {p : PortIn} (hr : p.rst = true) :
    s.cmdReady p = false ∧ s.rndReady p = false ∧ s.pixValid p = false := by
  simp [State.cmdReady, State.rndReady, State.pixValid, hr]

/-- Settles O43: the registers of the start state and of `doReset` are 0 and their buffers list no byte; the
reset is the only event `doReset` adds, so a command in progress gets no response. -/
theorem resetGivesTheResetState : Obligations.ResetGivesTheResetState := by
  refine ⟨?start, fun s hr => ⟨_, step_reset hr, ?afterReset⟩, fun s _ => ports_of_rst s⟩
  case start =>
    exact ⟨rfl, rfl, rfl, ⟨rfl, rfl, rfl⟩, status_of_unseeded_rest rfl rfl rfl, isWritten_of_unlisted reset_buf⟩
  case afterReset =>
    have htrace : s.consume.doReset.trace = s.trace ++ [.reset] := by simp
    exact ⟨rfl, rfl, rfl, ⟨rfl, rfl, rfl⟩, status_of_unseeded_rest rfl rfl rfl, doReset_isWritten _, htrace⟩

end Sys2Proof.Machine
end

section
/-! PROOFS. FILL and DRAW as wholes, however long the far side waits between its bytes
(spec/40_bitgrid_ops.md section 4, spec/42_render_and_control.md section 1): O26 and O35. -/

namespace Sys2Proof.Machine

/-! ### A FILL in progress (R119) -/

@[simp] theorem fillByte_bytes_other (v : Byte) (s : State) :
    (fillByte v s).bytes (!s.cur) = s.bytes (!s.cur) := by
  funext i
  refine (fillByte_memRead v s _ i).trans (if_neg ?_)
  simp

theorem takenOf_append (es es' : List Event) : takenOf (es ++ es') = takenOf es ++ takenOf es' :=
  List.filterMap_append

@[simp] theorem takenOf_map_taken (bs : List Byte) : takenOf (bs.map .taken) = bs := by
  simp [takenOf, List.filterMap_map]

@[simp] theorem responsesOf_map_taken (bs : List Byte) : responsesOf (bs.map .taken) = [] := by
  simp [responsesOf]

@[simp] theorem sentOf_map_taken (bs : List Byte) : sentOf (bs.map .taken) = [] := by
  simp [sentOf]

theorem fillByte_at {s : State} {k : Nat} (v : Byte) (hi : s.idx = nthIndex k) (hk : k < 1024) :
    (fillByte v s).At (if k + 1 < 1024 then .fill else .idle) (nthIndex (k + 1)) s.pos := by
  have hidx : s.idx.toNat = k := by rw [hi, nthIndex_toNat hk]
  rcases index_below_or_last s.idx with h | h
  · rw [if_pos (by omega), nthIndex_succ, ← hi]
    exact fillByte_at_below v h
  · obtain rfl : k = 1023 := hidx.symm.trans h
    exact fillByte_at_last v h

/-- One byte more at the end of the stream is one more byte of the grid. -/
theorem gridOf_append_single (bs : List Byte) (v : Byte) {i : Index} (hi : i.toNat ≤ bs.length) :
    gridOf (bs ++ [v]) i = if i.toNat = bs.length then v else gridOf bs i := by
  simp only [gridOf, List.getD_eq_getElem?_getD]
  split
  · next h => simp [h]
  · next h => rw [List.getElem?_append_left (by omega)]

/-- `t` is `s`, in FILL at index 0, after the bytes `bs` have been taken from the source: they are the
first bytes of the current buffer, and the command is answered once they are 1024. -/
structure State.Filled (s : State) (bs : List Byte) (t : State) : Prop where
  position : t.At (if bs.length < 1024 then .fill else .idle) (nthIndex bs.length) s.pos
  cur : t.cur = s.cur
  halted : t.halted = s.halted
  resets : t.resets = s.resets
  seeded : bs.length = 1024 → t.seeded = true
  loaded : ∀ i : Index, i.toNat < bs.length → t.bytes s.cur i = gridOf bs i
  other : t.bytes (!s.cur) = s.bytes (!s.cur)
  record : t.trace = s.trace ++ (bs.map .taken ++ if bs.length < 1024 then [] else [.response 0x0#4])

theorem State.Filled.start {s : State} (hp : s.phase = .fill) (hi : s.idx = 0#10) : s.Filled [] s where
  position := ⟨hp, hi, rfl⟩
  cur := rfl
  halted := rfl
  resets := rfl
  seeded := nofun
  loaded := nofun
  other := rfl
  record := by simp

/-- A FILL that waits (R119). -/
theorem State.Filled.consume {s t : State} {bs : List Byte} (h : s.Filled bs t) : s.Filled bs t.consume where
  position := by simpa [State.At] using h.position
  cur := by simp [h.cur]
  halted := by simp [h.halted]
  resets := by simp [h.resets]
  seeded hlen := by simp [h.seeded hlen]
  loaded i hi := by simp [h.loaded i hi]
  other := by simp [h.other]
  record := by rw [consume_trace, h.record]

/-- A FILL that takes the byte offered (R119). -/
theorem State.Filled.fillByte {s t : State} {bs : List Byte} (v : Byte) (hk : bs.length < 1024)
    (h : s.Filled bs t) : s.Filled (bs ++ [v]) (fillByte v t) := by
  obtain ⟨⟨-, hi, hpos⟩, hcur, hhalted, hresets, -, hloaded, hother, hrecord⟩ := h
  have hidx : t.idx.toNat = bs.length := by rw [hi, nthIndex_toNat hk]
  have hlen : (bs ++ [v]).length = bs.length + 1 := by simp
  refine ⟨?_, by simp [hcur], by simp [hhalted], by simp [hresets], fun hlast => ?_, fun i hlt => ?_,
    ?_, ?_⟩
  · rw [hlen, ← hpos]
    exact fillByte_at v hi hk
  · exact fillByte_seeded_last v (by omega)
  · have hread := fillByte_memRead v t s.cur i
    have hlast : i = t.idx ↔ i.toNat = bs.length := by rw [← BitVec.toNat_inj, hidx]
    simp only [hcur, hlast, true_and] at hread
    rw [gridOf_append_single bs v (by omega)]
    refine hread.trans ?_
    by_cases h : i.toNat = bs.length
    · rw [if_pos h, if_pos h]
    · rw [if_neg h, if_neg h]
      exact hloaded i (by omega)
  · rw [← hother, ← hcur]
    exact fillByte_bytes_other v t
  · have hlast : bs.length = 1023 ↔ ¬ (bs ++ [v]).length < 1024 := by omega
    rw [fillByte_trace, hrecord, hidx, if_pos hk]
    simp only [hlast, ite_not]
    simp

/-- One micro-step: one byte more where the source offers one. -/
theorem State.Filled.step {s t : State} {bs : List Byte} (hh : s.halted = false) (hk : bs.length < 1024)
    (h : s.Filled bs t) (hr : t.nextInput.rst = false) :
    ∃ u, step t = .next u ∧ s.Filled (bs ++ t.nextInput.rnd.toList) u := by
  have hw : t.Working .fill := ⟨hr, h.halted.trans hh, h.position.1.trans (if_pos hk)⟩
  cases hv : t.nextInput.rnd with
  | none => exact ⟨_, step_fill_waiting hw hv, by simpa using h.consume⟩
  | some v => exact ⟨_, step_fill_byte hw hv, h.consume.fillByte v hk⟩

/-- The bytes that the source offers at the next `n` steps. -/
def State.comingBytes (s : State) (n : Nat) : List Byte := (s.comingInputs n).filterMap (·.rnd)

theorem comingBytes_succ (s : State) (n : Nat) :
    s.comingBytes (n + 1) = s.nextInput.rnd.toList ++ s.consume.comingBytes n := by
  simp only [State.comingBytes, State.comingInputs, List.filterMap_cons]
  cases s.nextInput.rnd <;> rfl

/-- A FILL goes on as long as the source has not given all its bytes: it has taken those offered. -/
theorem State.Filled.run {s t : State} {n : Nat} {bs : List Byte} (hh : s.halted = false)
    (h : s.Filled bs t) (hr : t.noReset n) (hk : (bs ++ t.comingBytes n).length < 1024) :
    ∃ u, run n t = .next u ∧ s.Filled (bs ++ t.comingBytes n) u := by
  induction n generalizing bs t with
  | zero => exact ⟨t, rfl, by simpa [State.comingBytes, State.comingInputs] using h⟩
  | succ n ih =>
    obtain ⟨hrst, hr'⟩ := noReset_succ hr
    obtain ⟨v, hstep, hv⟩ := h.step hh (by rw [List.length_append] at hk; omega) hrst
    obtain ⟨hin, hfree⟩ := step_usedInput hstep
    have hcoming : v.comingBytes n = t.consume.comingBytes n :=
      congrArg _ (comingInputs_congr hin hfree n)
    rw [comingBytes_succ, ← List.append_assoc, ← hcoming] at hk ⊢
    rw [run_succ n hstep]
    exact ih hv (noReset_congr hin hfree hr') hk

/-! ### FILL as a whole -/

/-- The last step of a FILL is the one at which the last byte is offered. -/
theorem run_fill {s : State} {n : Nat} (hp : s.phase = .fill) (hi : s.idx = 0#10) (hh : s.halted = false)
    (hr : s.noReset n) (hlen : (s.comingBytes n).length = 1024)
    (hlast : ((s.comingInputs n).getLast?.bind (·.rnd)).isSome) :
    ∃ u, run n s = .next u ∧ s.Filled (s.comingBytes n) u := by
  cases n with
  | zero => simp [State.comingInputs] at hlast
  | succ m =>
    have hbytes : s.comingBytes (m + 1) = s.comingBytes m ++ (s.consumeN m).nextInput.rnd.toList := by
      simp only [State.comingBytes, comingInputs_succ_eq_append, List.filterMap_append]
      cases hv : (s.consumeN m).nextInput.rnd <;> simp [hv]
    rw [comingInputs_succ_eq_append] at hlast
    obtain ⟨v, hv⟩ : ∃ v, (s.consumeN m).nextInput.rnd = some v := by
      simpa [Option.isSome_iff_exists] using hlast
    rw [hbytes] at hlen ⊢
    have hbelow : (s.comingBytes m).length < 1024 := by
      rw [hv, List.length_append, Option.toList_some, List.length_singleton] at hlen
      omega
    obtain ⟨t, hrun, ht⟩ := (State.Filled.start hp hi).run hh (noReset_le hr (Nat.le_succ m)) hbelow
    obtain ⟨u, hstep, hu⟩ := ht.step hh hbelow (noReset_succ (noReset_after_run hr hrun)).1
    rw [nextInput_after_run hrun] at hu
    exact ⟨u, by rw [run_add m 1 hrun, run_succ 0 hstep, run_zero], hu⟩

theorem State.Filled.bytes_cur {s t : State} {bs : List Byte} (h : s.Filled bs t) (hlen : bs.length = 1024) :
    t.bytes s.cur = gridOf bs :=
  funext fun i => h.loaded i (by have := i.isLt; omega)

theorem State.Filled.resting {s t : State} {bs : List Byte} (h : s.Filled bs t) (hlen : bs.length = 1024)
    (hh : s.halted = false) (hpos : s.pos = 0#13) : t.Resting := by
  obtain ⟨hp, hi, htpos⟩ := h.position
  rw [hlen] at hp hi
  exact ⟨hp, h.halted.trans hh, hi, htpos.trans hpos⟩

theorem State.Filled.record_full {s t : State} {bs : List Byte} (h : s.Filled bs t)
    (hlen : bs.length = 1024) : t.trace = s.trace ++ (bs.map .taken ++ [.response 0x0#4]) := by
  rw [h.record, hlen, if_neg (Nat.lt_irrefl 1024)]

/-- FILL from acceptance to response: the claim on a FILL in progress, started at index 0. -/
theorem exec_fill_run {s : State} (hrest : s.Resting) :
    ∃ t, exec .fill s = .next t ∧ ∀ n, t.noReset n → (t.comingBytes n).length = 1024 →
      ((t.comingInputs n).getLast?.bind (·.rnd)).isSome →
      ∃ u, run n t = .next u ∧ s.Filled (t.comingBytes n) u := by
  refine ⟨_, exec_fill s, fun n hr hlen hlast => ?_⟩
  obtain ⟨u, hrun, hu⟩ := run_fill (s := s.moveTo .fill s.idx s.pos) rfl hrest.idx hrest.running hr hlen hlast
  exact ⟨u, hrun, hu.position, hu.cur, hu.halted, hu.resets, hu.seeded, hu.loaded, hu.other, hu.record⟩

/-- Settles O26: after all 1024 bytes the invariant of the FILL in progress is the claim. -/
theorem fillLoadsTheBytesOfTheSource : Obligations.FillLoadsTheBytesOfTheSource := by
  intro s hrest
  obtain ⟨t, hx, hwhole⟩ := exec_fill_run hrest
  refine ⟨t, hx, fun n hr hlen hlast => ?_⟩
  obtain ⟨u, hrun, hu⟩ := hwhole n hr hlen hlast
  have hrecord := hu.record_full hlen
  refine ⟨u, hrun, hu.bytes_cur hlen, hu.other, hu.cur, hu.seeded hlen,
    hu.resting hlen hrest.running hrest.pos, hu.resets, ?_, ?_⟩
  · rw [hrecord, takenOf_append, takenOf_append, takenOf_map_taken]
    exact congrArg (takenOf s.trace ++ ·) (List.append_nil _)
  · rw [hrecord, responsesOf_append, responsesOf_append, responsesOf_map_taken]
    rfl

/-! ### DRAW as a whole -/

/-- The last step of a DRAW is the one at which the sink takes the last byte. -/
theorem run_draw {s : State} {n : Nat} (hp : s.phase = .draw) (hi : s.idx = 0#10) (hh : s.halted = false)
    (hr : s.noReset n) (hf : ∀ p ∈ s.comingInputs n, p.sinkFail = false)
    (hlen : ((s.comingInputs n).filter (·.pixReady)).length = 1024)
    (hlast : (s.comingInputs n).getLast?.map (·.pixReady) = some true) :
    ∃ u, run n s = .next u ∧ s.Drawn 1024 u := by
  cases n with
  | zero => simp [State.comingInputs] at hlast
  | succ m =>
    rw [comingInputs_succ_eq_append] at hf hlen hlast
    obtain ⟨hf, hsink⟩ := List.forall_mem_append.mp hf
    have hready : (s.consumeN m).nextInput.pixReady = true := by simpa using hlast
    have hcount : ((s.comingInputs m).filter (·.pixReady)).length = 1023 := by
      simpa [hready] using hlen
    have hrun := (State.Drawn.start hp hi).run hh (noReset_le hr (Nat.le_succ m)) hf (by omega)
    rw [hcount] at hrun
    obtain ⟨t, hrun, ht⟩ := hrun
    have hnext := nextInput_after_run hrun
    obtain ⟨u, hstep, hu⟩ := ht.step hh (by omega) (noReset_succ (noReset_after_run hr hrun)).1
      (by rw [hnext]; exact hsink _ (List.mem_singleton_self _))
    rw [hnext, hready] at hu
    exact ⟨u, by rw [run_add m 1 hrun, run_succ 0 hstep, run_zero], hu⟩

theorem take_frameOf (B : Buffer) : (frameOf B).take 1024 = frameOf B :=
  List.take_of_length_le (by simp [frameOf, Config.bufSize])

theorem State.Drawn.resting {s t : State} (h : s.Drawn 1024 t) (hh : s.halted = false)
    (hpos : s.pos = 0#13) : t.Resting := by
  obtain ⟨hp, hi, htpos⟩ := h.position
  exact ⟨hp, h.flags.halted.trans hh, hi, htpos.trans hpos⟩

/-- Settles O35: acceptance starts DRAW at index 0, and after 1024 bytes taken the invariant of the DRAW in
progress is the claim. -/
theorem drawSendsTheWholeFrame : Obligations.DrawSendsTheWholeFrame := by
  refine fun s hrest hseed => ⟨_, exec_draw_seeded hseed, fun n hr hf hlen hlast => ?_⟩
  obtain ⟨u, hrun, hu⟩ := run_draw (s := s.moveTo .draw s.idx s.pos) rfl hrest.idx hrest.running hr hf hlen hlast
  exact ⟨u, hrun, hu.sent.trans (by rw [take_frameOf]; rfl), hu.answered, hu.bytes,
    (moveTo_keepsGrid s _ _ _).flags.trans hu.flags, hu.resting hrest.running hrest.pos⟩

end Sys2Proof.Machine
end

section
/-! PROOFS. The loop of the source (spec/42_render_and_control.md section 3): O36. -/

namespace Sys2Proof.Machine

/-! ### A command that is offered to the block at rest -/

/-- The block with the command `i` accepted and not yet executed: its input used up, its word recorded. -/
def State.accept (s : State) (i : Instr) : State := s.consume.log (.accepted (encode i))

theorem State.Resting.accept {s : State} (h : s.Resting) (i : Instr) : (s.accept i).Resting :=
  ⟨by simp [State.accept, h.idle], by simp [State.accept, h.running], by simp [State.accept, h.idx],
    by simp [State.accept, h.pos]⟩

@[simp] theorem accept_cur (s : State) (i : Instr) : (s.accept i).cur = s.cur := consume_cur s

@[simp] theorem accept_seeded (s : State) (i : Instr) : (s.accept i).seeded = s.seeded := consume_seeded s

@[simp] theorem accept_bytes (s : State) (i : Instr) (b : Bool) : (s.accept i).bytes b = s.bytes b :=
  consume_bytes s b

@[simp] theorem sentOf_accept (s : State) (i : Instr) : sentOf (s.accept i).trace = sentOf s.trace := by
  rw [State.accept, log_trace, consume_trace, sentOf_append]
  exact List.append_nil _

/-- The block at rest to which `i` is offered begins it, and then finds the inputs listed after the offer. -/
theorem run_offered {s t : State} {i : Instr} {ps rest : List PortIn} (hrest : s.Resting)
    (hin : s.inputs = offer (encode i) :: ps ++ rest) (hx : exec i (s.accept i) = .next t) :
    t.inputs = ps ++ rest ∧ ∀ n, run (n + 1) s = run n t := by
  have hstep := (step_accepted (hrest.accepting hin) (decode_encode i)).trans hx
  have hused := (step_usedInput hstep).1
  rw [consume_cons s _ _ hin] at hused
  exact ⟨hused, fun n => run_succ n hstep⟩

/-- A run through all inputs listed first leaves the others. -/
theorem inputs_after_run {s t : State} {ps rest : List PortIn} (hin : s.inputs = ps ++ rest)
    (h : run ps.length s = .next t) : t.inputs = rest := by
  rw [(run_usedInputs h).1, consumeN_listed s ps rest hin]

/-! ### FILL, DRAW and STEP with far sides that do not wait -/

theorem filterMap_rnd_sourceByte (bs : List Byte) : (bs.map sourceByte).filterMap (·.rnd) = bs := by
  rw [List.filterMap_map]
  exact List.filterMap_some

theorem run_fillInputs {s : State} {bs : List Byte} {rest : List PortIn} (hrest : s.Resting)
    (hlen : bs.length = 1024) (hin : s.inputs = fillInputs bs ++ rest) :
    ∃ u, run 1025 s = .next u ∧ u.Resting ∧ u.seeded = true ∧ u.inputs = rest ∧
      u.bytes u.cur = gridOf bs ∧ sentOf u.trace = sentOf s.trace := by
  have hacc := hrest.accept .fill
  obtain ⟨t, hx, hwhole⟩ := exec_fill_run hacc
  obtain ⟨htin, hrun⟩ := run_offered hrest hin hx
  have hn : (bs.map sourceByte).length = 1024 := by rw [List.length_map, hlen]
  have hcoming := comingInputs_listed t _ _ htin
  have hr := noReset_listed t _ _ htin (by simp [sourceByte, quiet])
  rw [hn] at hcoming hr
  have hbytes : t.comingBytes 1024 = bs := by
    rw [State.comingBytes, hcoming, filterMap_rnd_sourceByte]
  have hlast : ((t.comingInputs 1024).getLast?.bind (·.rnd)).isSome := by
    rw [hcoming, List.getLast?_map, List.getLast?_eq_some_getLast (List.ne_nil_of_length_pos (by omega))]
    rfl
  obtain ⟨u, hrun', hu⟩ := hwhole 1024 hr (by rw [hbytes, hlen]) hlast
  rw [hbytes] at hu
  refine ⟨u, (hrun 1024).trans hrun', hu.resting hlen hacc.running hacc.pos, hu.seeded hlen,
    inputs_after_run htin (hn ▸ hrun'), by rw [hu.cur, hu.bytes_cur hlen], ?_⟩
  rw [hu.record_full hlen, sentOf_append, sentOf_append, sentOf_map_taken, sentOf_accept]
  exact List.append_nil _

theorem sinkReady_noReset_noFailure {n : Nat} : ∀ p ∈ List.replicate n sinkReady,
    p.rst = false ∧ p.sinkFail = false := by
  intro p hp
  rw [List.eq_of_mem_replicate hp]
  exact ⟨rfl, rfl⟩

theorem length_filter_sinkReady (n : Nat) : ((List.replicate n sinkReady).filter (·.pixReady)).length = n := by
  simp [sinkReady]

theorem getLast?_sinkReady (n : Nat) :
    (List.replicate (n + 1) sinkReady).getLast?.map (·.pixReady) = some true := by
  rw [List.replicate_succ', List.getLast?_concat]
  rfl

theorem run_drawInputs {s : State} {rest : List PortIn} (hrest : s.Resting) (hseed : s.seeded = true)
    (hin : s.inputs = drawInputs ++ rest) :
    ∃ u, run 1025 s = .next u ∧ u.Resting ∧ u.seeded = true ∧ u.inputs = rest ∧
      u.bytes u.cur = s.bytes s.cur ∧ sentOf u.trace = sentOf s.trace ++ frameOf (s.bytes s.cur) := by
  obtain ⟨t, hx, hwhole⟩ := drawSendsTheWholeFrame _ (hrest.accept .draw) (by simp [hseed])
  obtain ⟨htin, hrun⟩ := run_offered hrest hin hx
  have hcoming := comingInputs_listed t _ _ htin
  have hr := noReset_listed t _ _ htin fun p hp => (sinkReady_noReset_noFailure p hp).1
  rw [List.length_replicate] at hcoming hr
  obtain ⟨u, hrun', hsent, -, hbytes, hflags, hurest⟩ := hwhole 1024 hr
    (by rw [hcoming]; exact fun p hp => (sinkReady_noReset_noFailure p hp).2)
    (by rw [hcoming, length_filter_sinkReady]) (by rw [hcoming, getLast?_sinkReady 1023])
  refine ⟨u, (hrun 1024).trans hrun', hurest, by simp [hflags.seeded, hseed],
    inputs_after_run htin (by rwa [List.length_replicate]), by simp [hflags.cur, hbytes], ?_⟩
  rw [hsent, sentOf_accept, accept_bytes, accept_cur]

/-- `run_stepInputs`, with what the sink is sent: nothing. -/
theorem run_stepInputs_silent {s : State} {rest : List PortIn} (hrest : s.Resting) (hseed : s.seeded = true)
    (hin : s.inputs = stepInputs ++ rest) :
    ∃ u, run 9218 s = .next u ∧ u.Resting ∧ u.seeded = true ∧ u.inputs = rest ∧
      u.bytes u.cur = nextGen (s.bytes s.cur) ∧ sentOf u.trace = sentOf s.trace := by
  obtain ⟨u, hrun, hnext, -, hu, huRest, huin⟩ := run_stepInputs hrest hseed hin
  obtain ⟨t, hx, -, hwhole⟩ := stepComputesTheNextGeneration _ (hrest.accept .step) (by simp [hseed])
  obtain ⟨htin, hrunt⟩ := run_offered hrest hin hx
  obtain ⟨u', hrun', -, -, -, -, -, -, htrace⟩ := hwhole (quiet_noReset htin)
  obtain rfl := Host.Outcome.next.inj (hrun.symm.trans ((hrunt 9217).trans hrun'))
  refine ⟨u, hrun, huRest, hu, huin, hnext, ?_⟩
  rw [htrace, sentOf_append, sentOf_accept]
  exact List.append_nil _

/-! ### The loop -/

theorem framesFrom_succ (n : Nat) (B : Buffer) :
    framesFrom (n + 1) B = framesFrom n B ++ frameOf (generations (n + 1) B) := by
  simp [framesFrom, List.range_succ]

theorem generations_succ (n : Nat) (B : Buffer) : generations (n + 1) B = nextGen (generations n B) :=
  Function.iterate_succ_apply' nextGen n B

/-- The loop after `n` rounds of STEP and DRAW, with the grid seeded for the next one. -/
theorem run_loop {bs : List Byte} {s : State} (hrest : s.Resting) (hlen : bs.length = 1024) (n : Nat)
    {rest : List PortIn} (hin : s.inputs = fillInputs bs ++ drawInputs ++
      (List.replicate n (stepInputs ++ drawInputs)).flatten ++ rest) :
    ∃ u, run (2050 + n * 10243) s = .next u ∧ u.Resting ∧ u.seeded = true ∧ u.inputs = rest ∧
      u.bytes u.cur = generations n (gridOf bs) ∧
      sentOf u.trace = sentOf s.trace ++ framesFrom n (gridOf bs) := by
  induction n generalizing rest with
  | zero =>
    have hin : s.inputs = fillInputs bs ++ (drawInputs ++ rest) := by simpa using hin
    obtain ⟨t, hfill, htrest, htseed, htin, htgrid, htsent⟩ := run_fillInputs hrest hlen hin
    obtain ⟨u, hdraw, hurest, huseed, huin, hugrid, husent⟩ := run_drawInputs htrest htseed htin
    refine ⟨u, (run_add 1025 1025 hfill).trans hdraw, hurest, huseed, huin, hugrid.trans htgrid, ?_⟩
    rw [husent, htsent, htgrid]
    simp [framesFrom, generations]
  | succ n ih =>
    have hin : s.inputs = fillInputs bs ++ drawInputs ++
        (List.replicate n (stepInputs ++ drawInputs)).flatten ++ (stepInputs ++ (drawInputs ++ rest)) := by
      simpa [List.replicate_succ'] using hin
    obtain ⟨t, hloop, htrest, htseed, htin, htgrid, htsent⟩ := ih hin
    obtain ⟨v, hstep, hvrest, hvseed, hvin, hvgrid, hvsent⟩ := run_stepInputs_silent htrest htseed htin
    obtain ⟨u, hdraw, hurest, huseed, huin, hugrid, husent⟩ := run_drawInputs hvrest hvseed hvin
    have hgen : v.bytes v.cur = generations (n + 1) (gridOf bs) := by
      rw [hvgrid, htgrid, generations_succ]
    refine ⟨u, ?_, hurest, huseed, huin, hugrid.trans hgen, ?_⟩
    · rw [Nat.succ_mul, ← Nat.add_assoc, run_add _ 10243 hloop, run_add 9218 1025 hstep, hdraw]
    · rw [husent, hvsent, htsent, hgen, framesFrom_succ, List.append_assoc]

/-- Settles O36: FILL and DRAW, then by induction one more round of STEP and DRAW. -/
theorem loopSendsSuccessiveGenerations : Obligations.LoopSendsSuccessiveGenerations := by
  intro s bs n rest hrest hlen hin
  obtain ⟨u, hrun, hurest, -, huin, hgrid, hsent⟩ := run_loop hrest hlen n hin
  exact ⟨u, hrun, hsent, hgrid, hurest, huin⟩

end Sys2Proof.Machine
end

section
/-! PROOFS. Rules of the whole machine: that every step answers (spec/60_exceptions.md section 1), what an
accepted word does (spec/30_encoding.md sections 4 and 8), the waits (spec/70_reset_and_hazards.md section 3),
and which flag and which byte a step changes (spec/10_state.md sections 2, 4 and 7): O16, O38, O47, O51 and
O52. -/

namespace Sys2Proof.Machine

/-! ### Every step answers a next state (R202, R262) -/

theorem idleStep_answers (p : PortIn) (s : State) : ∃ t, idleStep p s = .next t := by
  unfold idleStep
  split
  · exact ⟨_, rfl⟩
  · split
    · exact ⟨_, rfl⟩
    · unfold acceptWord
      split
      · exact ⟨_, rfl⟩
      · exact exec_answers _ _

theorem clock_answers (p : PortIn) (s : State) : ∃ t, clock p s = .next t := by
  unfold clock
  split
  · exact ⟨_, rfl⟩
  · split
    · exact ⟨_, rfl⟩
    · unfold phaseStep
      split
      · exact idleStep_answers p s
      all_goals exact ⟨_, rfl⟩

/-- Settles O47: no micro-step and no arm of `exec` stops. -/
theorem everyStepAnswersANextState : Obligations.EveryStepAnswersANextState := fun s =>
  ⟨clock_answers _ _, fun i => exec_answers i s⟩

/-! ### What a step can do, by its micro-step -/

/-- What `exec i` leaves of `s`: an answer, the toggle of TGL, or the start of FILL, STEP or DRAW. -/
inductive Executed (i : Instr) (s : State) : State → Prop where
  | answer (c : Code) (q : Bool) : Executed i s (s.respond c q)
  | toggle (x : Col) (y : Row) (hi : i = .tgl x y) :
      Executed i s ((s.toggleAt s.cur x y).respond .ok false)
  | start (ph : Phase) (hph : ph = .fill ∨ ph = .copy ∨ ph = .draw) (hseed : ph ≠ .fill → s.seeded = true) :
      Executed i s (s.moveTo ph s.idx s.pos)

theorem executed_of_exec {i : Instr} {s t : State} (h : exec i s = .next t) : Executed i s t := by
  rcases exec_cases h with ⟨-, rfl⟩ | ⟨x, y, -, -, rfl⟩ | ⟨x, y, hi, -, rfl⟩ | ⟨-, hseed, rfl⟩ |
    ⟨-, rfl⟩ | ⟨-, hseed, rfl⟩ | ⟨-, -, -, rfl⟩
  · exact .answer _ _
  · exact .answer _ _
  · exact .toggle x y hi
  · exact .start .copy (.inr (.inl rfl)) fun _ => hseed
  · exact .start .fill (.inl rfl) (absurd rfl)
  · exact .start .draw (.inr (.inr rfl)) fun _ => hseed
  · exact .answer _ _

/-- What a step with the inputs `p` leaves of `s`: `clock_cases`, with the steps that change nothing as one
case and the two of a sink failure as another. -/
inductive MicroStep (p : PortIn) (s : State) : State → Prop where
  | reset (hr : p.rst = true) : MicroStep p s s.doReset
  | wait : MicroStep p s s
  | fail (hp : s.phase = .idle ∨ s.phase = .draw) (hf : p.sinkFail = true) : MicroStep p s s.raiseSinkFail
  | reject (w : CmdWord) (hp : s.phase = .idle) :
      MicroStep p s ((s.log (.accepted w)).respond .illegal false)
  | command {w : CmdWord} {i : Instr} {t : State} (hh : s.halted = false) (hp : s.phase = .idle)
      (hf : p.sinkFail = false) (hc : p.cmd = some w) (hd : decode w = .ok i)
      (hx : Executed i (s.log (.accepted w)) t) : MicroStep p s t
  | fill (v : Byte) (hp : s.phase = .fill) (hv : p.rnd = some v) : MicroStep p s (fillByte v s)
  | copy (hp : s.phase = .copy) : MicroStep p s (copyByte s)
  | scan (hp : s.phase = .scan) : MicroStep p s (scanCell s)
  | swap (hp : s.phase = .swap) : MicroStep p s (swapBuffers s)
  | draw (hp : s.phase = .draw) : MicroStep p s (drawByte s)

theorem microStep_of_clock {p : PortIn} {s t : State} (h : clock p s = .next t) : MicroStep p s t := by
  rcases clock_cases h with ⟨hr, rfl⟩ | ⟨-, -, rfl⟩ | ⟨-, hh, hrow⟩
  · exact .reset hr
  · exact .wait
  · rcases hrow with ⟨hp, hf, rfl⟩ | ⟨-, -, -, rfl⟩ | ⟨w, r, hp, -, -, -, rfl⟩ | ⟨w, i, hp, hf, hc, hd, hx⟩ |
      ⟨-, -, rfl⟩ | ⟨v, hp, hv, rfl⟩ | ⟨hp, rfl⟩ | ⟨hp, rfl⟩ | ⟨hp, rfl⟩ | ⟨hp, hf, rfl⟩ | ⟨hp, -, -, rfl⟩ |
      ⟨-, -, -, rfl⟩
    · exact .fail (.inl hp) hf
    · exact .wait
    · exact .reject w hp
    · exact .command hh hp hf hc hd (executed_of_exec hx)
    · exact .wait
    · exact .fill v hp hv
    · exact .copy hp
    · exact .scan hp
    · exact .swap hp
    · exact .fail (.inr hp) hf
    · exact .draw hp
    · exact .wait

/-! ### An accepted word is its command (R94) -/

/-- Settles O16: the accepted word is recorded, and then its command is executed. -/
theorem stepRunsTheDecodedCommand : Obligations.StepRunsTheDecodedCommand := fun s w _ ha hd =>
  log_consume s (.accepted w) ▸ step_accepted ha hd

/-! ### Waiting for the far side (R119, R182) -/

/-- A block in phase `ph` that is only waiting at inputs such as `Q` waits for ever: the induction over a
wait. -/
theorem run_waiting {ph : Phase} {Q : PortIn → Prop}
    (hwait : ∀ s : State, s.Working ph → Q s.nextInput → step s = .next s.consume) {s : State} {n : Nat}
    (hh : s.halted = false) (hp : s.phase = ph) (hr : s.noReset n) (hQ : ∀ p ∈ s.comingInputs n, Q p) :
    run n s = .next (s.consumeN n) := by
  induction n generalizing s with
  | zero => rfl
  | succ n ih =>
    obtain ⟨hrst, hr'⟩ := noReset_succ hr
    obtain ⟨hnow, hlater⟩ := List.forall_mem_cons.mp hQ
    rw [run_succ n (hwait s ⟨hrst, hh, hp⟩ hnow)]
    exact ih (by simpa using hh) (by simpa using hp) hr' hlater

/-- Settles O38: each such step only uses up its input. -/
theorem silentSourceOrSinkIsAWait : Obligations.SilentSourceOrSinkIsAWait := fun _ _ hh hr =>
  ⟨fun hp => run_waiting (fun _ => step_fill_waiting) hh hp hr,
    fun hp => run_waiting (fun _ hw hq => step_draw_waiting hw hq.1 hq.2) hh hp hr⟩

/-! ### Which flag a step changes (R22, R30, R31) -/

theorem State.SameFlags.refl (s : State) : s.SameFlags s := ⟨rfl, rfl, rfl, rfl⟩

theorem Executed.sameFlags {i : Instr} {s t : State} (h : Executed i s t) : s.SameFlags t := by
  cases h with
  | answer c q => exact ⟨rfl, rfl, rfl, rfl⟩
  | toggle x y _ => constructor <;> simp
  | start ph _ _ => exact ⟨rfl, rfl, rfl, rfl⟩

/-- A step without a reset changes no flag, or it is the last byte of a FILL, a sink failure or SWAP, and
changes the one flag of these. -/
theorem MicroStep.flags {p : PortIn} {s t : State} (hr : p.rst = false) (h : MicroStep p s t) :
    s.SameFlags t ∨
    (s.phase = .fill ∧ s.idx.toNat = 1023 ∧ p.rnd.isSome ∧ s.markSeeded.SameFlags t) ∨
    ((s.phase = .idle ∨ s.phase = .draw) ∧ p.sinkFail = true ∧ s.markHalted.SameFlags t) ∨
    (s.phase = .swap ∧ s.flipCur.SameFlags t) := by
  cases h with
  | reset hr' => simp [hr] at hr'
  | wait => exact .inl (.refl s)
  | fail hp hf => exact .inr (.inr (.inl ⟨hp, hf, by constructor <;> simp⟩))
  | reject w _ => exact .inl ⟨rfl, rfl, rfl, rfl⟩
  | command _ _ _ _ _ hx =>
    obtain ⟨hcur, hseeded, hhalted, hresets⟩ := hx.sameFlags
    exact .inl ⟨hcur, hseeded, hhalted, hresets⟩
  | fill v hp hv =>
    have hcur := fillByte_cur v s
    rcases index_below_or_last s.idx with hi | hi
    · exact .inl ⟨hcur, fillByte_seeded_below v hi, fillByte_halted v s, fillByte_resets v s⟩
    · exact .inr (.inl ⟨hp, hi, by simp [hv],
        hcur, fillByte_seeded_last v hi, fillByte_halted v s, fillByte_resets v s⟩)
  | copy _ => exact .inl (copyByte_keepsGrid s).flags
  | scan _ => exact .inl (scanCell_keepsGrid s).flags
  | swap hp => exact .inr (.inr (.inr ⟨hp, rfl, rfl, rfl, rfl⟩))
  | draw _ => exact .inl (drawByte_sameFlags s)

theorem MicroStep.flag_changes {p : PortIn} {s t : State} (hr : p.rst = false) (h : MicroStep p s t) :
    (t.seeded ≠ s.seeded → t.seeded = true ∧ s.phase = .fill ∧ s.idx = 1023#10 ∧ p.rnd.isSome) ∧
    (t.halted ≠ s.halted → t.halted = true ∧ p.sinkFail = true ∧ (s.phase = .idle ∨ s.phase = .draw)) ∧
    (t.cur ≠ s.cur → s.phase = .swap) ∧ t.resets = s.resets := by
  rcases h.flags hr with ⟨hc, hs, hh, hn⟩ | ⟨hp, hi, hv, hc, hs, hh, hn⟩ |
    ⟨hp, hf, hc, hs, hh, hn⟩ | ⟨hp, -, hs, hh, hn⟩
  · exact ⟨fun hne => absurd hs hne, fun hne => absurd hh hne, fun hne => absurd hc hne, hn⟩
  · exact ⟨fun _ => ⟨hs, hp, BitVec.eq_of_toNat_eq hi, hv⟩, fun hne => absurd hh hne,
      fun hne => absurd hc hne, hn⟩
  · exact ⟨fun hne => absurd hs hne, fun _ => ⟨hh, hf, hp⟩, fun hne => absurd hc hne, hn⟩
  · exact ⟨fun hne => absurd hs hne, fun hne => absurd hh hne, fun _ => hp, hn⟩

/-- Settles O51: a step changes at most the one flag of its micro-step. -/
theorem flagsChangeOnlyWhereStated : Obligations.FlagsChangeOnlyWhereStated := fun s t h hr => by
  simpa using (microStep_of_clock h).flag_changes hr

/-! ### Which byte a step writes (R58, R114, R119, R157, R158) -/

/-- Of all bytes of both buffers, `t` differs from `s` in none but byte `i` of buffer `b`. -/
def State.SameBytesBut (s t : State) (b : Bool) (i : Index) : Prop :=
  ∀ c j, ¬ (c = b ∧ j = i) → t.memRead c j = s.memRead c j

theorem memWrite_sameBytesBut (s : State) (b : Bool) (i : Index) (v : Byte) :
    s.SameBytesBut (s.memWrite b i v) b i := fun c j hne => by
  rw [memRead_memWrite, if_neg hne]

theorem fillByte_sameBytesBut (v : Byte) (s : State) : s.SameBytesBut (fillByte v s) s.cur s.idx :=
  fun c j hne => by rw [fillByte_memRead, if_neg hne]

theorem copyByte_sameBytesBut (s : State) : s.SameBytesBut (copyByte s) (!s.cur) s.idx :=
  fun c j hne => by rw [copyByte_memRead, if_neg hne]

theorem scanCell_sameBytesBut (s : State) :
    s.SameBytesBut (scanCell s) (!s.cur) (cellIndex (scanCol s.pos) (scanRow s.pos)) := by
  obtain ⟨ph, i, p, h⟩ := scanCell_eq_moveTo s
  rw [h, scanWrite]
  split
  · exact memWrite_sameBytesBut s _ _ _
  · exact fun _ _ _ => rfl

theorem Executed.sameBytesBut {i : Instr} {s t : State} (h : Executed i s t) :
    (∀ c j, t.memRead c j = s.memRead c j) ∨
    ∃ x y, i = .tgl x y ∧ s.SameBytesBut t s.cur (cellIndex x y) := by
  cases h with
  | answer c q => exact .inl fun _ _ => rfl
  | toggle x y hi => exact .inr ⟨x, y, hi, memWrite_sameBytesBut s _ _ _⟩
  | start ph _ _ => exact .inl fun _ _ => rfl

/-- A step without a reset writes no byte, or one byte in FILL, by an accepted TGL, in COPY or in SCAN. -/
theorem MicroStep.writes {p : PortIn} {s t : State} (hr : p.rst = false) (h : MicroStep p s t) :
    (∀ c j, t.memRead c j = s.memRead c j) ∨
    (s.phase = .fill ∧ s.SameBytesBut t s.cur s.idx) ∨
    (∃ w x y, s.phase = .idle ∧ s.halted = false ∧ p.sinkFail = false ∧ p.cmd = some w ∧
      decode w = .ok (.tgl x y) ∧ s.SameBytesBut t s.cur (cellIndex x y)) ∨
    (s.phase = .copy ∧ s.SameBytesBut t (!s.cur) s.idx) ∨
    (s.phase = .scan ∧ s.SameBytesBut t (!s.cur) (cellIndex (scanCol s.pos) (scanRow s.pos))) := by
  cases h with
  | reset hr' => simp [hr] at hr'
  | wait => exact .inl fun _ _ => rfl
  | fail _ _ => exact .inl (raiseSinkFail_memRead s)
  | reject w _ => exact .inl fun _ _ => rfl
  | command hh hp hf hc hd hx =>
    rcases hx.sameBytesBut with hsame | ⟨x, y, rfl, hbut⟩
    · exact .inl hsame
    · exact .inr (.inr (.inl ⟨_, x, y, hp, hh, hf, hc, hd, hbut⟩))
  | fill v hp _ => exact .inr (.inl ⟨hp, fillByte_sameBytesBut v s⟩)
  | copy hp => exact .inr (.inr (.inr (.inl ⟨hp, copyByte_sameBytesBut s⟩)))
  | scan hp => exact .inr (.inr (.inr (.inr ⟨hp, scanCell_sameBytesBut s⟩)))
  | swap _ => exact .inl fun _ _ => rfl
  | draw _ => exact .inl fun c j => congrFun (drawByte_bytes s c) j

theorem State.SameBytesBut.consume {s t : State} {b : Bool} {i : Index} (h : s.consume.SameBytesBut t b i) :
    s.SameBytesBut t b i := fun c j hne => (h c j hne).trans (consume_memRead s c j)

theorem State.SameBytesBut.eq_of_ne {s t : State} {b c : Bool} {i j : Index} (h : s.SameBytesBut t b i)
    (hne : t.memRead c j ≠ s.memRead c j) : c = b ∧ j = i := by
  by_contra hother
  exact hne (h c j hother)

/-- Settles O52: the one byte a step may write lies in the current buffer for FILL and TGL, in the other one
for COPY and SCAN. -/
theorem onlyTheStatedStepsWriteABuffer : Obligations.OnlyTheStatedStepsWriteABuffer := by
  intro s t h hr
  have hwrites := (microStep_of_clock h).writes hr
  simp only [consume_memRead, consume_cur, consume_phase, consume_idx, consume_pos, consume_halted] at hwrites
  rcases hwrites with hsame | ⟨hp, hbut⟩ | ⟨w, x, y, hp, hh, hf, hc, hd, hbut⟩ | ⟨hp, hbut⟩ | ⟨hp, hbut⟩
  · exact ⟨fun i hne => absurd (hsame _ i) hne, fun i hne => absurd (hsame _ i) hne⟩
  · exact ⟨fun i hne => .inl ⟨hp, (hbut.consume.eq_of_ne hne).2⟩,
      fun i hne => absurd (hbut.consume.eq_of_ne hne).1 (Bool.not_ne_self _)⟩
  · exact ⟨fun i hne => .inr ⟨w, x, y, ⟨hr, hh, hp, hf, hc⟩, hd, (hbut.consume.eq_of_ne hne).2⟩,
      fun i hne => absurd (hbut.consume.eq_of_ne hne).1 (Bool.not_ne_self _)⟩
  · exact ⟨fun i hne => absurd (hbut.consume.eq_of_ne hne).1 (Bool.self_ne_not _),
      fun i hne => .inl ⟨hp, (hbut.consume.eq_of_ne hne).2⟩⟩
  · exact ⟨fun i hne => absurd (hbut.consume.eq_of_ne hne).1 (Bool.self_ne_not _),
      fun i hne => .inr ⟨hp, (hbut.consume.eq_of_ne hne).2⟩⟩

end Sys2Proof.Machine
end

section
/-! PROOFS. The bytes that a coming command may read (spec/10_state.md R30, R40): what each micro-step makes
readable. The invariant (O46) says that they have been written, and noninterference (O53) that they alone
show. -/

namespace Sys2Proof.Machine

/-! ### The bytes that a coming command may read (R30, R40) -/

/-- Byte `i` of the current buffer (`next = false`) or of the next one (`next = true`) may be read by a
coming command: all of a seeded grid, what a FILL or COPY in progress has written, and all of the next
buffer after the COPY phase. -/
def State.Live (s : State) (next : Bool) (i : Index) : Prop :=
  match next with
  | false => s.seeded = true ∨ (s.phase = .fill ∧ i < s.idx)
  | true => (s.phase = .copy ∧ i < s.idx) ∨ s.phase = .scan ∨ s.phase = .swap

theorem live_current {s : State} {i : Index} :
    s.Live false i ↔ s.seeded = true ∨ (s.phase = .fill ∧ i < s.idx) := Iff.rfl

theorem live_next {s : State} {i : Index} :
    s.Live true i ↔ (s.phase = .copy ∧ i < s.idx) ∨ s.phase = .scan ∨ s.phase = .swap := Iff.rfl

theorem lt_or_eq_of_lt_succ {i j : Index} (hj : j.toNat < 1023) (h : i < j + 1#10) : i < j ∨ i = j := by
  bv_omega

theorem lt_or_eq_of_last {j : Index} (hj : j.toNat = 1023) (i : Index) : i < j ∨ i = j := by
  bv_omega

/-- The byte taken is the only one that FILL adds. -/
theorem live_of_fillByte {s : State} (hp : s.phase = .fill) {v : Byte} {next : Bool} {i : Index}
    (h : (fillByte v s).Live next i) : next = false ∧ (i = s.idx ∨ s.Live false i) := by
  rcases index_below_or_last s.idx with hi | hi
  · obtain ⟨htp, hti, -⟩ := fillByte_at_below v hi
    have hseed := fillByte_seeded_below v hi
    cases next with
    | true => simp [live_next, htp] at h
    | false =>
      rw [live_current, hseed, hti] at h
      rcases h with h | ⟨-, h⟩
      · exact ⟨rfl, .inr (.inl h)⟩
      · exact ⟨rfl, (lt_or_eq_of_lt_succ hi h).symm.imp_right fun h => .inr ⟨hp, h⟩⟩
  · obtain ⟨htp, -, -⟩ := fillByte_at_last v hi
    cases next with
    | true => simp [live_next, htp] at h
    | false => exact ⟨rfl, (lt_or_eq_of_last hi i).symm.imp_right fun h => .inr ⟨hp, h⟩⟩

/-- The byte copied is the only one that COPY adds. -/
theorem live_of_copyByte {s : State} (hp : s.phase = .copy) {next : Bool} {i : Index}
    (h : (copyByte s).Live next i) : (next = true ∧ i = s.idx) ∨ s.Live next i := by
  have hseed := (copyByte_keepsGrid s).flags.seeded
  rcases index_below_or_last s.idx with hi | hi
  · obtain ⟨htp, hti, -⟩ := copyByte_at_below hi
    cases next with
    | false => exact .inr (.inl (by simpa [live_current, htp, hseed] using h))
    | true =>
      have hlt : i < s.idx + 1#10 := by simpa [live_next, htp, hti] using h
      exact (lt_or_eq_of_lt_succ hi hlt).symm.imp (fun h => ⟨rfl, h⟩) fun h => .inl ⟨hp, h⟩
  · obtain ⟨htp, -, -⟩ := copyByte_at_last hi
    cases next with
    | false => exact .inr (.inl (by simpa [live_current, htp, hseed] using h))
    | true => exact (lt_or_eq_of_last hi i).symm.imp (fun h => ⟨rfl, h⟩) fun h => .inl ⟨hp, h⟩

theorem live_of_scanCell {s : State} (hp : s.phase = .scan) {next : Bool} {i : Index}
    (h : (scanCell s).Live next i) : s.Live next i := by
  have hseed := (scanCell_keepsGrid s).flags.seeded
  have htp : (scanCell s).phase = .scan ∨ (scanCell s).phase = .swap :=
    (scanPos_below_or_last s.pos).imp (fun h => (scanCell_at_below h).1) fun h => (scanCell_at_last h).1
  cases next with
  | true => exact .inr (.inl hp)
  | false => rcases htp with htp | htp <;> exact .inl (by simpa [live_current, htp, hseed] using h)

/-- SWAP makes the next buffer the current one. -/
theorem live_of_swapBuffers {s : State} (hp : s.phase = .swap) {next : Bool} {i : Index}
    (h : (swapBuffers s).Live next i) : next = false ∧ s.Live true i := by
  obtain ⟨htp, -, -⟩ := swapBuffers_at s
  cases next with
  | false => exact ⟨rfl, .inr (.inr hp)⟩
  | true => simp [live_next, htp] at h

/-- At the start and outside FILL and STEP only a seeded grid may be read. -/
theorem live_of_seeded {s t : State} (hseed : t.seeded = s.seeded)
    (hp : t.phase = .idle ∨ t.phase = .draw ∨ ((t.phase = .fill ∨ t.phase = .copy) ∧ t.idx = 0#10))
    {next : Bool} {i : Index} (h : t.Live next i) : s.Live next i := by
  cases next with
  | false =>
    rcases h with h | ⟨hfill, hlt⟩
    · exact .inl (hseed ▸ h)
    · have hi : t.idx = 0#10 := by simpa [hfill] using hp
      simp [hi] at hlt
  | true =>
    rcases h with ⟨hcopy, hlt⟩ | hscan | hswap
    · have hi : t.idx = 0#10 := by simpa [hcopy] using hp
      simp [hi] at hlt
    · simp [hscan] at hp
    · simp [hswap] at hp

theorem live_of_raiseSinkFail {s : State} (hp : s.phase = .idle ∨ s.phase = .draw) {next : Bool} {i : Index}
    (h : s.raiseSinkFail.Live next i) : s.Live next i :=
  live_of_seeded (raiseSinkFail_seeded s) (.inl (raiseSinkFail_phase hp)) h

theorem drawByte_phase (s : State) : (drawByte s).phase = .idle ∨ (drawByte s).phase = .draw :=
  (index_below_or_last s.idx).symm.imp (fun h => (drawByte_at_last h).1) fun h => (drawByte_at_below h).1

theorem live_of_drawByte {s : State} {next : Bool} {i : Index} (h : (drawByte s).Live next i) :
    s.Live next i :=
  live_of_seeded (drawByte_sameFlags s).seeded ((drawByte_phase s).imp_right .inl) h

theorem live_of_executed {j : Instr} {s t : State} (hp : s.phase = .idle) (hidx : s.idx = 0#10)
    (hx : Executed j s t) {next : Bool} {i : Index} (h : t.Live next i) : s.Live next i := by
  refine live_of_seeded hx.sameFlags.seeded ?_ h
  cases hx with
  | answer c q => exact .inl hp
  | toggle x y _ => exact .inl (by simpa using hp)
  | start ph hph _ => rcases hph with rfl | rfl | rfl <;> simp [hidx]

/-! ### A STEP or DRAW in progress has a seeded grid (R156, R181) -/

/-- A STEP or DRAW in progress was accepted with `SEEDED = 1`. -/
def State.SeededWork (s : State) : Prop :=
  s.phase = .copy ∨ s.phase = .scan ∨ s.phase = .swap ∨ s.phase = .draw → s.seeded = true

theorem seededWork_of_idle_or_fill {t : State} (h : t.phase = .idle ∨ t.phase = .fill) : t.SeededWork := by
  rcases h with h | h <;> simp [State.SeededWork, h]

theorem fillByte_phase (v : Byte) (s : State) :
    (fillByte v s).phase = .idle ∨ (fillByte v s).phase = .fill :=
  (index_below_or_last s.idx).symm.imp (fun h => (fillByte_at_last v h).1) fun h => (fillByte_at_below v h).1

theorem Executed.seededWork {i : Instr} {s t : State} (hp : s.phase = .idle) (h : Executed i s t) :
    t.SeededWork := by
  cases h with
  | answer c q => exact seededWork_of_idle_or_fill (.inl hp)
  | toggle x y _ => exact seededWork_of_idle_or_fill (.inl (by simpa using hp))
  | start ph _ hseed => exact fun hwork => hseed (by rintro rfl; simp at hwork)

theorem MicroStep.seededWork {p : PortIn} {s t : State} (hw : s.SeededWork) (h : MicroStep p s t) :
    t.SeededWork := by
  cases h with
  | reset _ => exact seededWork_of_idle_or_fill (.inl rfl)
  | wait => exact hw
  | fail hp _ => exact seededWork_of_idle_or_fill (.inl (raiseSinkFail_phase hp))
  | reject w hp => exact seededWork_of_idle_or_fill (.inl hp)
  | command _ hp _ _ _ hx => exact hx.seededWork (s := s.log _) hp
  | fill v _ _ => exact seededWork_of_idle_or_fill (fillByte_phase v s)
  | copy hp => exact fun _ => (copyByte_keepsGrid s).flags.seeded.trans (hw (by simp [hp]))
  | scan hp => exact fun _ => (scanCell_keepsGrid s).flags.seeded.trans (hw (by simp [hp]))
  | swap _ => exact seededWork_of_idle_or_fill (.inl rfl)
  | draw hp => exact fun _ => (drawByte_sameFlags s).seeded.trans (hw (by simp [hp]))

end Sys2Proof.Machine
end

section
/-! PROOFS. The machine's invariant (spec/10_state.md sections 3, 4 and 8, spec/30_encoding.md sections 7
and 8): O45 and O46. -/

namespace Sys2Proof.Machine

/-! ### Every byte that may be read has been written (R30, R40) -/

/-- Every byte that a coming command may read has been written since reset. -/
def State.LiveWritten (s : State) : Prop :=
  ∀ next i, s.Live next i → s.isWritten (s.cur ^^ next) i = true

theorem written_iff (s : State) : s.Written ↔ s.SeededWork ∧ s.LiveWritten := by
  constructor
  · rintro ⟨hseeded, hworking, hfilled, hcopied, hreplaced⟩
    refine ⟨hworking, fun next i h => ?_⟩
    cases next with
    | false =>
      rw [Bool.xor_false]
      rcases h with h | ⟨hp, hi⟩
      · exact hseeded h i
      · exact hfilled hp i hi
    | true =>
      rw [Bool.xor_true]
      rcases h with ⟨hp, hi⟩ | h
      · exact hcopied hp i hi
      · exact hreplaced h i
  · rintro ⟨hworking, hlive⟩
    have hcur := fun i => hlive false i
    have hnext := fun i => hlive true i
    simp only [Bool.xor_false, Bool.xor_true] at hcur hnext
    exact ⟨fun h i => hcur i (.inl h), hworking, fun hp i hi => hcur i (.inr ⟨hp, hi⟩),
      fun hp i hi => hnext i (.inl ⟨hp, hi⟩), fun h i => hnext i (.inr h)⟩

/-- No byte that has been written becomes unwritten. -/
def State.KeepsWritten (s t : State) : Prop := ∀ b i, s.isWritten b i = true → t.isWritten b i = true

theorem memWrite_keepsWritten (s : State) (b : Bool) (i : Index) (v : Byte) :
    s.KeepsWritten (s.memWrite b i v) := fun c j h => by
  rw [isWritten_memWrite, h, ite_self]

theorem isWritten_memWrite_same (s : State) (b : Bool) (i : Index) (v : Byte) :
    (s.memWrite b i v).isWritten b i = true := by
  simp [isWritten_memWrite]

theorem fillByte_isWritten (v : Byte) (s : State) (b : Bool) (i : Index) :
    (fillByte v s).isWritten b i = (s.memWrite s.cur s.idx v).isWritten b i := by
  simp only [fillByte]
  split <;> simp [isWritten_memWrite]

theorem copyByte_isWritten (s : State) (b : Bool) (i : Index) : (copyByte s).isWritten b i =
    (s.memWrite (!s.cur) s.idx (s.memRead s.cur s.idx)).isWritten b i := by
  obtain ⟨ph, j, p, h⟩ := copyByte_eq_moveTo s
  rw [h, moveTo_isWritten]

theorem scanCell_keepsWritten (s : State) : s.KeepsWritten (scanCell s) := by
  obtain ⟨ph, j, p, h⟩ := scanCell_eq_moveTo s
  rw [h, scanWrite]
  split
  · exact memWrite_keepsWritten s _ _ _
  · exact fun _ _ h => h

theorem drawByte_keepsWritten (s : State) : s.KeepsWritten (drawByte s) := fun b i h => by
  simp only [drawByte]
  split <;> simpa using h

theorem Executed.keepsWritten {i : Instr} {s t : State} (h : Executed i s t) : s.KeepsWritten t := by
  cases h with
  | answer c q => exact fun _ _ h => h
  | toggle x y _ => exact memWrite_keepsWritten s _ _ _
  | start ph _ _ => exact fun _ _ h => h

/-- A micro-step that makes no byte readable. -/
theorem State.LiveWritten.keep {s t : State} (h : s.LiveWritten) (hcur : t.cur = s.cur)
    (hkeep : s.KeepsWritten t) (hlive : ∀ {next i}, t.Live next i → s.Live next i) : t.LiveWritten :=
  fun next i hi => hkeep _ i (hcur ▸ h next i (hlive hi))

theorem State.LiveWritten.fillByte {s : State} (h : s.LiveWritten) (hp : s.phase = .fill) (v : Byte) :
    (fillByte v s).LiveWritten := by
  intro next i hi
  obtain ⟨rfl, rfl | hlive⟩ := live_of_fillByte hp hi
  · rw [fillByte_cur, Bool.xor_false, fillByte_isWritten, isWritten_memWrite_same]
  · rw [fillByte_cur, fillByte_isWritten]
    exact memWrite_keepsWritten s _ _ v _ i (h false i hlive)

theorem State.LiveWritten.copyByte {s : State} (h : s.LiveWritten) (hp : s.phase = .copy) :
    (copyByte s).LiveWritten := by
  intro next i hi
  rw [(copyByte_keepsGrid s).flags.cur, copyByte_isWritten]
  rcases live_of_copyByte hp hi with ⟨rfl, rfl⟩ | hlive
  · rw [Bool.xor_true, isWritten_memWrite_same]
  · exact memWrite_keepsWritten s _ _ _ _ i (h next i hlive)

theorem State.LiveWritten.swapBuffers {s : State} (h : s.LiveWritten) (hp : s.phase = .swap) :
    (swapBuffers s).LiveWritten := by
  intro next i hi
  obtain ⟨rfl, hlive⟩ := live_of_swapBuffers hp hi
  have hcur : ((Machine.swapBuffers s).cur ^^ false) = (s.cur ^^ true) := by simp [Machine.swapBuffers]
  rw [hcur]
  exact h true i hlive

theorem MicroStep.liveWritten {p : PortIn} {s t : State} (hs : s.Sequenced) (hw : s.LiveWritten)
    (h : MicroStep p s t) : t.LiveWritten := by
  cases h with
  | reset _ =>
    intro next i hi
    cases next <;> simp [live_current, live_next] at hi
  | wait => exact hw
  | fail hp _ =>
    exact hw.keep (raiseSinkFail_cur s) (fun b i h => (raiseSinkFail_isWritten s b i).trans h)
      (live_of_raiseSinkFail hp)
  | reject w _ => exact hw
  | command _ hp _ _ _ hx =>
    exact State.LiveWritten.keep (s := s.log _) hw hx.sameFlags.cur hx.keepsWritten
      (live_of_executed (s := s.log _) hp (hs.resting (.inl hp)).1 hx)
  | fill v hp _ => exact hw.fillByte hp v
  | copy hp => exact hw.copyByte hp
  | scan hp =>
    exact hw.keep (scanCell_keepsGrid s).flags.cur (scanCell_keepsWritten s) (live_of_scanCell hp)
  | swap hp => exact hw.swapBuffers hp
  | draw _ => exact hw.keep (drawByte_sameFlags s).cur (drawByte_keepsWritten s) live_of_drawByte

/-! ### The memories stay in canonical form (R37) -/

/-- Both memories are in canonical form. -/
def State.Canonical (s : State) : Prop := ∀ b, (s.buf b).wf = true

theorem canonical_iff (s : State) : s.Canonical ↔ s.buf0.wf = true ∧ s.buf1.wf = true :=
  Bool.forall_bool

theorem State.Canonical.congr {s t : State} (h : s.Canonical) (hb : ∀ b, t.buf b = s.buf b) :
    t.Canonical := fun b => by rw [hb, h b]

theorem State.Canonical.memWrite {s : State} (h : s.Canonical) (b : Bool) (i : Index) (v : Byte) :
    (s.memWrite b i v).Canonical := fun c => memWrite_canonical s b c i v (h c)

theorem State.Canonical.fillByte {s : State} (h : s.Canonical) (v : Byte) : (fillByte v s).Canonical := by
  have hwrite := (h.congr (t := s.takeRnd v) fun _ => rfl).memWrite s.cur s.idx v
  simp only [Machine.fillByte]
  split <;> exact hwrite

theorem State.Canonical.copyByte {s : State} (h : s.Canonical) : (copyByte s).Canonical := by
  obtain ⟨ph, j, p, he⟩ := copyByte_eq_moveTo s
  rw [he]
  exact h.memWrite _ _ _

theorem State.Canonical.scanCell {s : State} (h : s.Canonical) : (scanCell s).Canonical := by
  obtain ⟨ph, j, p, he⟩ := scanCell_eq_moveTo s
  rw [he, scanWrite]
  split
  · exact h.memWrite _ _ _
  · exact h

theorem State.Canonical.drawByte {s : State} (h : s.Canonical) : (drawByte s).Canonical := by
  simp only [Machine.drawByte]
  split <;> exact h

theorem Executed.canonical {i : Instr} {s t : State} (hc : s.Canonical) (h : Executed i s t) :
    t.Canonical := by
  cases h with
  | answer c q => exact hc
  | toggle x y _ => exact hc.memWrite _ _ _
  | start ph _ _ => exact hc

theorem MicroStep.canonical {p : PortIn} {s t : State} (hc : s.Canonical) (h : MicroStep p s t) :
    t.Canonical := by
  cases h with
  | reset _ => exact fun b => by rw [doReset_buf, nil_wf]
  | wait => exact hc
  | fail _ _ => exact hc.congr (raiseSinkFail_buf s)
  | reject w _ => exact hc
  | command _ _ _ _ _ hx => exact hx.canonical (s := s.log _) hc
  | fill v _ _ => exact hc.fillByte v
  | copy _ => exact hc.copyByte
  | scan _ => exact hc.scanCell
  | swap _ => exact hc
  | draw _ => exact hc.drawByte

/-! ### The order of the port events (R90, R94, R242) -/

theorem portOrder_none (es : List Event) : portOrder none es = none := by
  cases es <;> simp [portOrder]

theorem portOrder_append (b : Option Bool) (es es' : List Event) :
    portOrder b (es ++ es') = portOrder (portOrder b es) es' := by
  induction es generalizing b with
  | nil => rfl
  | cons e es ih =>
    rcases b with _ | _ | _
    · simp only [portOrder_none]
    · cases e <;> simp [portOrder, portOrder_none, ih]
    · cases e <;> simp [portOrder, portOrder_none, ih]

/-- The recorded events are in order, and a response is owed exactly while the block is busy. -/
def State.Ordered (s : State) : Prop := portOrder (some false) s.trace = some s.busy

theorem busy_of_idle {s : State} (h : s.phase = .idle) : s.busy = false := by simp [State.busy, h]

theorem busy_of_phase {s : State} {ph : Phase} (h : s.phase = ph) (hne : ph ≠ .idle) : s.busy = true := by
  simp [State.busy, h, hne]

/-- Events in order after events in order. -/
theorem State.Ordered.append {s t : State} {es : List Event} (h : s.Ordered) (ht : t.trace = s.trace ++ es)
    (hes : portOrder (some s.busy) es = some t.busy) : t.Ordered := by
  unfold State.Ordered
  rw [ht, portOrder_append, h, hes]

theorem State.Ordered.keep {s t : State} (h : s.Ordered) (ht : t.trace = s.trace) (hb : t.busy = s.busy) :
    t.Ordered :=
  h.append (es := []) (by simp [ht]) (by rw [hb]; rfl)

theorem State.Ordered.fillByte {s : State} (h : s.Ordered) (hp : s.phase = .fill) (v : Byte) :
    (fillByte v s).Ordered := by
  refine h.append (fillByte_trace v s) ?_
  rw [busy_of_phase hp nofun]
  rcases index_below_or_last s.idx with hi | hi
  · rw [busy_of_phase (fillByte_at_below v hi).1 nofun, if_neg hi.ne]
    rfl
  · rw [busy_of_idle (fillByte_at_last v hi).1, if_pos hi]
    rfl

theorem State.Ordered.copyByte {s : State} (h : s.Ordered) (hp : s.phase = .copy) :
    (copyByte s).Ordered := by
  refine h.keep (copyByte_trace s) ?_
  rw [busy_of_phase hp nofun]
  rcases index_below_or_last s.idx with hi | hi
  · exact busy_of_phase (copyByte_at_below hi).1 nofun
  · exact busy_of_phase (copyByte_at_last hi).1 nofun

theorem State.Ordered.scanCell {s : State} (h : s.Ordered) (hp : s.phase = .scan) :
    (scanCell s).Ordered := by
  refine h.keep (scanCell_trace s) ?_
  rw [busy_of_phase hp nofun]
  rcases scanPos_below_or_last s.pos with hi | hi
  · exact busy_of_phase (scanCell_at_below hi).1 nofun
  · exact busy_of_phase (scanCell_at_last hi).1 nofun

theorem State.Ordered.swapBuffers {s : State} (h : s.Ordered) (hp : s.phase = .swap) :
    (swapBuffers s).Ordered :=
  h.append (swapBuffers_trace s) (by rw [busy_of_phase hp nofun]; rfl)

theorem State.Ordered.drawByte {s : State} (h : s.Ordered) (hp : s.phase = .draw) :
    (drawByte s).Ordered := by
  refine h.append (drawByte_trace s) ?_
  rw [busy_of_phase hp nofun]
  rcases index_below_or_last s.idx with hi | hi
  · rw [busy_of_phase (drawByte_at_below hi).1 nofun, if_neg hi.ne]
    rfl
  · rw [busy_of_idle (drawByte_at_last hi).1, if_pos hi]
    rfl

theorem State.Ordered.raiseSinkFail {s : State} (h : s.Ordered) (hp : s.phase = .idle ∨ s.phase = .draw) :
    s.raiseSinkFail.Ordered := by
  refine h.append (raiseSinkFail_trace s) ?_
  rw [busy_of_idle (raiseSinkFail_phase hp)]
  rcases hp with hp | hp
  · rw [busy_of_idle hp, hp]
    rfl
  · rw [busy_of_phase hp nofun, if_pos hp]
    rfl

/-- An accepted command is answered at once and the block rests, or it is owed its response and the block
is busy. -/
theorem State.Ordered.command {i : Instr} {w : CmdWord} {s t : State} (h : s.Ordered) (hp : s.phase = .idle)
    (hx : Executed i (s.log (.accepted w)) t) : t.Ordered := by
  cases hx with
  | answer c q =>
    refine h.append (es := [.accepted w, .response (rspWord c q)]) (by simp) ?_
    rw [busy_of_idle hp, busy_of_idle (by simpa using hp)]
    rfl
  | toggle x y _ =>
    refine h.append (es := [.accepted w, .response 0x0#4]) (by simp) ?_
    rw [busy_of_idle hp, busy_of_idle (by simpa using hp)]
    rfl
  | start ph hph _ =>
    refine h.append (es := [.accepted w]) rfl ?_
    rw [busy_of_idle hp, busy_of_phase rfl (by rcases hph with rfl | rfl | rfl <;> nofun)]
    rfl

theorem MicroStep.ordered {p : PortIn} {s t : State} (ho : s.Ordered) (h : MicroStep p s t) : t.Ordered := by
  cases h with
  | reset _ => exact ho.append (doReset_trace s) (by cases s.busy <;> rfl)
  | wait => exact ho
  | fail hp _ => exact ho.raiseSinkFail hp
  -- a reserved word is answered at once, as NOP is
  | reject w hp => exact ho.command (i := .nop) hp (.answer .illegal false)
  | command _ hp _ _ _ hx => exact ho.command hp hx
  | fill v hp _ => exact ho.fillByte hp v
  | copy hp => exact ho.copyByte hp
  | scan hp => exact ho.scanCell hp
  | swap hp => exact ho.swapBuffers hp
  | draw hp => exact ho.drawByte hp

/-! ### The invariant -/

theorem inv_iff (s : State) : s.Inv ↔
    s.Sequenced ∧ s.SeededWork ∧ s.LiveWritten ∧ s.Canonical ∧ s.Ordered := by
  rw [canonical_iff, ← and_assoc (a := s.SeededWork), ← written_iff]
  constructor
  · rintro ⟨hseq, hwritten, hcan0, hcan1, hord⟩
    exact ⟨hseq, hwritten, ⟨hcan0, hcan1⟩, hord⟩
  · rintro ⟨hseq, hwritten, ⟨hcan0, hcan1⟩, hord⟩
    exact ⟨hseq, hwritten, hcan0, hcan1, hord⟩

theorem clock_inv {p : PortIn} {s t : State} (hi : s.Inv) (h : clock p s = .next t) : t.Inv := by
  rw [inv_iff] at hi ⊢
  obtain ⟨hseq, hwork, hlive, hcan, hord⟩ := hi
  have hmicro := microStep_of_clock h
  exact ⟨clock_sequenced hseq h, hmicro.seededWork hwork, hmicro.liveWritten hseq hlive,
    hmicro.canonical hcan, hmicro.ordered hord⟩

theorem consume_inv {s : State} (hi : s.Inv) : s.consume.Inv := by
  rw [inv_iff] at hi ⊢
  obtain ⟨hseq, hwork, hlive, hcan, hord⟩ := hi
  refine ⟨hseq.consume, ?_, ?_, hcan.congr (consume_buf s), ?_⟩
  · simpa [State.SeededWork] using hwork
  · refine hlive.keep (consume_cur s) (fun b i h => (consume_isWritten s b i).trans h) ?_
    intro next i
    cases next <;> simp [live_current, live_next]
  · simpa [State.Ordered, State.busy] using hord

/-- Settles O45: nothing is written, nothing may be read, and nothing is owed. -/
theorem invariantHoldsAtReset : Obligations.InvariantHoldsAtReset := by
  refine (inv_iff _).mpr ⟨reset_sequenced, seededWork_of_idle_or_fill (.inl rfl), ?_,
    fun b => by rw [reset_buf, nil_wf], rfl⟩
  intro next i hi
  cases next <;> simp [live_current, live_next, State.reset] at hi

/-- Settles O46: each part of the invariant is kept by every micro-step. -/
theorem everyStepKeepsTheInvariant : Obligations.EveryStepKeepsTheInvariant :=
  fun _ _ hi h => clock_inv (consume_inv hi) h

end Sys2Proof.Machine
end

section
/-! PROOFS. What cannot be observed never shows (spec/10_state.md sections 8 and 9, spec/20_memory.md
section 6): O53. The two blocks agree on everything but the buffers, `CUR` and the number of resets, and, seen
from `CUR`, on every byte that a coming command may read. -/

namespace Sys2Proof.Machine

/-! ### All but the buffers -/

/-- The state without the buffers, `CUR`, which only numbers them, and `resets`, which picks their
unspecified bytes. -/
def State.control (s : State) : State :=
  { s with buf0 := [], buf1 := [], cur := false, resets := 0 }

/-- The two blocks differ at most in the buffers, in `CUR` and in the number of resets. -/
def State.SameControl (s t : State) : Prop := t.control = s.control

theorem sameControl_iff (s t : State) : s.SameControl t ↔
    t.seeded = s.seeded ∧ t.halted = s.halted ∧ t.phase = s.phase ∧ t.idx = s.idx ∧ t.pos = s.pos ∧
      t.inputs = s.inputs ∧ t.freeTicks = s.freeTicks ∧ t.trace = s.trace := by
  simp [State.SameControl, State.control]

@[simp] theorem memWrite_control (s : State) (b : Bool) (i : Index) (v : Byte) :
    (s.memWrite b i v).control = s.control := by
  cases b <;> rfl

@[simp] theorem consume_control (s : State) : s.consume.control = s.control.consume := by
  have hin : s.control.inputs = s.inputs := rfl
  unfold State.consume
  rw [hin]
  split <;> rfl

theorem State.SameControl.read {α : Type} {s t : State} (h : s.SameControl t) (g : State → α)
    (hg : ∀ u : State, g u.control = g u) : g t = g s := by
  rw [← hg t, ← hg s, h]

theorem State.SameControl.map {s t : State} (h : s.SameControl t) (f : State → State)
    (hf : ∀ u : State, (f u.control).control = (f u).control) : (f s).SameControl (f t) := by
  rw [State.SameControl, ← hf t, ← hf s, h]

theorem scanWrite_control (s : State) : (scanWrite s).control = s.control := by
  unfold scanWrite
  split
  · exact memWrite_control s _ _ _
  · rfl

theorem scanCell_eq_scanWrite (s : State) : scanCell s =
    if s.pos < Config.lastPos then (scanWrite s).moveTo .scan s.idx (s.pos + 1#13)
    else (scanWrite s).moveTo .swap s.idx 0#13 := rfl

section
variable {s t : State} (h : s.SameControl t)
include h

theorem State.SameControl.seeded : t.seeded = s.seeded := h.read (·.seeded) fun _ => rfl

theorem State.SameControl.halted : t.halted = s.halted := h.read (·.halted) fun _ => rfl

theorem State.SameControl.phase : t.phase = s.phase := h.read (·.phase) fun _ => rfl

theorem State.SameControl.idx : t.idx = s.idx := h.read (·.idx) fun _ => rfl

theorem State.SameControl.pos : t.pos = s.pos := h.read (·.pos) fun _ => rfl

theorem State.SameControl.nextInput : t.nextInput = s.nextInput := h.read (·.nextInput) fun _ => rfl

theorem State.SameControl.log (e : Event) : (s.log e).SameControl (t.log e) := h.map (·.log e) fun _ => rfl

theorem State.SameControl.respond (c : Code) (q : Bool) : (s.respond c q).SameControl (t.respond c q) :=
  h.log _

theorem State.SameControl.moveTo (ph : Phase) (i : Index) (p : ScanPos) :
    (s.moveTo ph i p).SameControl (t.moveTo ph i p) := h.map (·.moveTo ph i p) fun _ => rfl

theorem State.SameControl.markSeeded : s.markSeeded.SameControl t.markSeeded :=
  h.map (·.markSeeded) fun _ => rfl

theorem State.SameControl.markHalted : s.markHalted.SameControl t.markHalted :=
  h.map (·.markHalted) fun _ => rfl

theorem State.SameControl.flipCur : s.flipCur.SameControl t.flipCur := h.map (·.flipCur) fun _ => rfl

theorem State.SameControl.doReset : s.doReset.SameControl t.doReset := h.map (·.doReset) fun _ => rfl

theorem State.SameControl.memWrite (b c : Bool) (i j : Index) (v u : Byte) :
    (s.memWrite b i v).SameControl (t.memWrite c j u) := by
  rw [State.SameControl, memWrite_control, memWrite_control, h]

theorem State.SameControl.consume : s.consume.SameControl t.consume := by
  rw [State.SameControl, consume_control, consume_control, h]

theorem State.SameControl.raiseSinkFail (hp : s.phase = .idle ∨ s.phase = .draw) :
    s.raiseSinkFail.SameControl t.raiseSinkFail := by
  rcases hp with hp | hp
  · rw [raiseSinkFail_idle (by simp [hp]), raiseSinkFail_idle (by simp [h.phase, hp])]
    exact h.markHalted.log _
  · rw [raiseSinkFail_draw hp, raiseSinkFail_draw (h.phase.trans hp), h.pos]
    exact ((h.moveTo _ _ _).markHalted.log _).respond _ _

theorem State.SameControl.fillByte (v : Byte) : (fillByte v s).SameControl (fillByte v t) := by
  have hwrite := (h.log (.taken v)).memWrite s.cur t.cur s.idx s.idx v v
  simp only [Machine.fillByte, h.idx, h.pos]
  split
  · exact hwrite.moveTo _ _ _
  · exact (hwrite.moveTo _ _ _).markSeeded.respond _ _

theorem State.SameControl.copyByte : (copyByte s).SameControl (copyByte t) := by
  have hwrite := h.memWrite (!s.cur) (!t.cur) s.idx s.idx (s.memRead s.cur s.idx) (t.memRead t.cur s.idx)
  simp only [Machine.copyByte, h.idx, h.pos]
  split
  · exact hwrite.moveTo _ _ _
  · exact hwrite.moveTo _ _ _

theorem State.SameControl.scanCell : (scanCell s).SameControl (scanCell t) := by
  have hwrite : (scanWrite s).SameControl (scanWrite t) := by
    rw [State.SameControl, scanWrite_control, scanWrite_control, h]
  simp only [scanCell_eq_scanWrite, h.idx, h.pos]
  split
  · exact hwrite.moveTo _ _ _
  · exact hwrite.moveTo _ _ _

theorem State.SameControl.swapBuffers : (swapBuffers s).SameControl (swapBuffers t) := by
  simp only [Machine.swapBuffers, h.idx, h.pos]
  exact (h.flipCur.moveTo _ _ _).respond _ _

theorem State.SameControl.drawByte (hbyte : t.memRead t.cur s.idx = s.memRead s.cur s.idx) :
    (drawByte s).SameControl (drawByte t) := by
  simp only [Machine.drawByte, h.idx, h.pos, hbyte]
  split
  · exact (h.log _).moveTo _ _ _
  · exact ((h.log _).moveTo _ _ _).respond _ _

end

/-! ### The buffers as seen from `CUR` -/

/-- The current buffer (`next = false`) or the next one (`next = true`) as the array of its bytes. -/
def State.view (s : State) (next : Bool) : Buffer := s.bytes (s.cur ^^ next)

theorem view_apply (s : State) (next : Bool) (i : Index) : s.view next i = s.memRead (s.cur ^^ next) i := rfl

theorem view_current (s : State) : s.view false = s.bytes s.cur := by
  rw [State.view, Bool.xor_false]

theorem view_next (s : State) : s.view true = s.bytes (!s.cur) := by
  rw [State.view, Bool.xor_true]

@[simp] theorem consume_view (s : State) (next : Bool) : s.consume.view next = s.view next := by
  simp [State.view]

@[simp] theorem raiseSinkFail_view (s : State) (next : Bool) : s.raiseSinkFail.view next = s.view next := by
  simp [State.view]

@[simp] theorem drawByte_view (s : State) (next : Bool) : (drawByte s).view next = s.view next := by
  rw [State.view, drawByte_bytes, (drawByte_sameFlags s).cur, State.view]

theorem fillByte_view (v : Byte) (s : State) (next : Bool) (i : Index) : (fillByte v s).view next i =
    if next = false ∧ i = s.idx then v else s.view next i := by
  rw [view_apply, fillByte_cur, fillByte_memRead]
  cases next <;> simp [view_apply]

theorem copyByte_view (s : State) (next : Bool) (i : Index) : (copyByte s).view next i =
    if next = true ∧ i = s.idx then s.view false s.idx else s.view next i := by
  rw [view_apply, (copyByte_keepsGrid s).flags.cur, copyByte_memRead]
  cases next <;> simp [view_apply]

theorem scanCell_view_current (s : State) : (scanCell s).view false = s.view false := by
  have hkeep := scanCell_keepsGrid s
  rw [view_current, hkeep.flags.cur, hkeep.grid, view_current]

theorem scanCell_view_next (s : State) : (scanCell s).view true =
    toggleChanged (s.view false) (s.view true) (scanCellAt s.pos) := by
  rw [view_next, (scanCell_keepsGrid s).flags.cur, scanCell_bytes_next, view_current, view_next]
  rfl

theorem swapBuffers_view (s : State) (next : Bool) : (swapBuffers s).view next = s.view (!next) := by
  have hcur : (swapBuffers s).cur = !s.cur := rfl
  rw [State.view, hcur, Bool.not_xor, ← Bool.xor_not]
  rfl

theorem toggleAt_view (s : State) (x : Col) (y : Row) (next : Bool) : (s.toggleAt s.cur x y).view next =
    if next then s.view true else toggleCell (s.view false) x y := by
  cases next with
  | false => simp [view_current, toggleAt_bytes_same]
  | true => simp [view_next]

/-! ### Two blocks that look alike -/

/-- Every byte of `s` that a coming command may read is the same in `t`. -/
def State.SameLive (s t : State) : Prop := ∀ next i, s.Live next i → t.view next i = s.view next i

/-- The relation of the obligation, but for what the one block says of itself. -/
structure State.Alike (s t : State) : Prop where
  control : s.SameControl t
  live : s.SameLive t

theorem obsEq_iff (s t : State) : s.ObsEq t ↔ s.SeededWork ∧ s.Alike t := by
  constructor
  · rintro ⟨hseed, hhalt, hp, hi, hpos, hin, hfree, htrace, hwork, hcur, hfill, hcopy, hnext⟩
    refine ⟨hwork, (sameControl_iff s t).mpr ⟨hseed, hhalt, hp, hi, hpos, hin, hfree, htrace⟩,
      fun next i h => ?_⟩
    cases next with
    | false =>
      rw [view_current, view_current]
      rcases h with h | ⟨hp, hi⟩
      · exact hcur h i
      · exact hfill hp i hi
    | true =>
      rw [view_next, view_next]
      rcases h with ⟨hp, hi⟩ | h
      · exact hcopy hp i hi
      · exact hnext h i
  · rintro ⟨hwork, hcontrol, hlive⟩
    obtain ⟨hseed, hhalt, hp, hi, hpos, hin, hfree, htrace⟩ := (sameControl_iff s t).mp hcontrol
    have hcur := fun i => hlive false i
    have hnext := fun i => hlive true i
    simp only [view_current, view_next] at hcur hnext
    exact ⟨hseed, hhalt, hp, hi, hpos, hin, hfree, htrace, hwork, fun h i => hcur i (.inl h),
      fun hp i hi => hcur i (.inr ⟨hp, hi⟩), fun hp i hi => hnext i (.inl ⟨hp, hi⟩),
      fun h i => hnext i (.inr h)⟩

/-- The grids of two seeded blocks that look alike are the same. -/
theorem State.Alike.grid {s t : State} (h : s.Alike t) (hseed : s.seeded = true) :
    t.view false = s.view false :=
  funext fun i => h.live false i (.inl hseed)

/-- A micro-step that neither writes a byte nor makes one readable. -/
theorem State.Alike.keep {s t s' t' : State} (h : s.Alike t) (hcontrol : s'.SameControl t')
    (hs : ∀ next, s'.view next = s.view next) (ht : ∀ next, t'.view next = t.view next)
    (hlive : ∀ {next i}, s'.Live next i → s.Live next i) : s'.Alike t' :=
  ⟨hcontrol, fun next i hi => by rw [hs, ht, h.live next i (hlive hi)]⟩

section
variable {s t : State} (h : s.Alike t)
include h

theorem State.Alike.log (e : Event) : (s.log e).Alike (t.log e) :=
  h.keep (h.control.log e) (fun _ => rfl) (fun _ => rfl) id

theorem State.Alike.respond (c : Code) (q : Bool) : (s.respond c q).Alike (t.respond c q) := h.log _

theorem State.Alike.consume : s.consume.Alike t.consume :=
  h.keep h.control.consume (consume_view s) (consume_view t) fun {next i} => by
    cases next <;> simp [live_current, live_next]

theorem State.Alike.doReset : s.doReset.Alike t.doReset :=
  ⟨h.control.doReset, fun next i hi => by cases next <;> simp [live_current, live_next] at hi⟩

theorem State.Alike.raiseSinkFail (hp : s.phase = .idle ∨ s.phase = .draw) :
    s.raiseSinkFail.Alike t.raiseSinkFail :=
  h.keep (h.control.raiseSinkFail hp) (raiseSinkFail_view s) (raiseSinkFail_view t) (live_of_raiseSinkFail hp)

theorem State.Alike.fillByte (hp : s.phase = .fill) (v : Byte) : (fillByte v s).Alike (fillByte v t) := by
  refine ⟨h.control.fillByte v, fun next i hi => ?_⟩
  obtain ⟨rfl, hread⟩ := live_of_fillByte hp hi
  rw [fillByte_view, fillByte_view, h.control.idx]
  by_cases hlast : i = s.idx
  · rw [if_pos ⟨rfl, hlast⟩, if_pos ⟨rfl, hlast⟩]
  · rw [if_neg fun e => hlast e.2, if_neg fun e => hlast e.2, h.live false i (hread.resolve_left hlast)]

/-- COPY reads the seeded grid. -/
theorem State.Alike.copyByte (hp : s.phase = .copy) (hseed : s.seeded = true) :
    (copyByte s).Alike (copyByte t) := by
  refine ⟨h.control.copyByte, fun next i hi => ?_⟩
  rw [copyByte_view, copyByte_view, h.control.idx, h.grid hseed]
  by_cases hnow : next = true ∧ i = s.idx
  · rw [if_pos hnow, if_pos hnow]
  · rw [if_neg hnow, if_neg hnow, h.live next i ((live_of_copyByte hp hi).resolve_left hnow)]

/-- SCAN reads the seeded grid, and writes a buffer that is wholly written. -/
theorem State.Alike.scanCell (hp : s.phase = .scan) (hseed : s.seeded = true) :
    (scanCell s).Alike (scanCell t) := by
  refine ⟨h.control.scanCell, fun next i _ => ?_⟩
  have hgrid := h.grid hseed
  cases next with
  | false => rw [scanCell_view_current, scanCell_view_current, hgrid]
  | true =>
    have hnext : t.view true = s.view true := funext fun i => h.live true i (.inr (.inl hp))
    rw [scanCell_view_next, scanCell_view_next, hgrid, hnext, h.control.pos]

theorem State.Alike.swapBuffers (hp : s.phase = .swap) : (swapBuffers s).Alike (swapBuffers t) := by
  refine ⟨h.control.swapBuffers, fun next i hi => ?_⟩
  obtain ⟨rfl, hlive⟩ := live_of_swapBuffers hp hi
  rw [swapBuffers_view, swapBuffers_view]
  exact h.live true i hlive

/-- DRAW sends a byte of the seeded grid. -/
theorem State.Alike.drawByte (hseed : s.seeded = true) : (drawByte s).Alike (drawByte t) := by
  have hgrid := h.grid hseed
  rw [view_current, view_current] at hgrid
  exact h.keep (h.control.drawByte (congrFun hgrid s.idx)) (drawByte_view s) (drawByte_view t) live_of_drawByte

/-! ### An accepted command -/

/-- Two blocks that start FILL, STEP or DRAW alike. -/
theorem State.Alike.start (hi : s.idx = 0#10) {ph : Phase} (hph : ph = .fill ∨ ph = .copy ∨ ph = .draw) :
    (s.moveTo ph s.idx s.pos).Alike (t.moveTo ph t.idx t.pos) := by
  rw [h.control.idx, h.control.pos]
  refine h.keep (h.control.moveTo _ _ _) (fun _ => rfl) (fun _ => rfl) fun hlive =>
    live_of_seeded (moveTo_seeded s _ _ _) ?_ hlive
  rcases hph with rfl | rfl | rfl <;> simp [hi]

/-- GET answers from the seeded grid. -/
theorem State.Alike.get (hseed : s.seeded = true) (x : Col) (y : Row) :
    (s.respond .ok (getCell (s.bytes s.cur) x y)).Alike (t.respond .ok (getCell (t.bytes t.cur) x y)) := by
  rw [← view_current, ← view_current, h.grid hseed]
  exact h.respond _ _

/-- TGL toggles the cell of the seeded grid. -/
theorem State.Alike.toggle (hseed : s.seeded = true) (hp : s.phase = .idle) (x : Col) (y : Row) :
    (s.toggleAt s.cur x y).Alike (t.toggleAt t.cur x y) := by
  refine ⟨h.control.memWrite _ _ _ _ _ _, fun next i hi => ?_⟩
  rw [toggleAt_view, toggleAt_view, h.grid hseed]
  cases next with
  | false => rfl
  | true => simp [live_next, hp] at hi

theorem State.Alike.exec (hi : s.idx = 0#10) (hp : s.phase = .idle) (i : Instr) :
    ∃ s' t', exec i s = .next s' ∧ exec i t = .next t' ∧ s'.Alike t' := by
  have htseed := h.control.seeded
  cases hseed : s.seeded with
  | false =>
    rw [hseed] at htseed
    by_cases hnop : i = .nop
    · subst hnop
      exact ⟨_, _, exec_nop s, exec_nop t, h.respond _ _⟩
    by_cases hfill : i = .fill
    · subst hfill
      exact ⟨_, _, exec_fill s, exec_fill t, h.start hi (.inl rfl)⟩
    · exact ⟨_, _, exec_unseeded hseed hnop hfill, exec_unseeded htseed hnop hfill, h.respond _ _⟩
  | true =>
    rw [hseed] at htseed
    cases i with
    | nop => exact ⟨_, _, exec_nop s, exec_nop t, h.respond _ _⟩
    | get x y => exact ⟨_, _, exec_get_seeded x y hseed, exec_get_seeded x y htseed, h.get hseed x y⟩
    | tgl x y =>
      exact ⟨_, _, exec_tgl_seeded x y hseed, exec_tgl_seeded x y htseed,
        (h.toggle hseed hp x y).respond _ _⟩
    | step => exact ⟨_, _, exec_step_seeded hseed, exec_step_seeded htseed, h.start hi (.inr (.inl rfl))⟩
    | fill => exact ⟨_, _, exec_fill s, exec_fill t, h.start hi (.inl rfl)⟩
    | draw => exact ⟨_, _, exec_draw_seeded hseed, exec_draw_seeded htseed, h.start hi (.inr (.inr rfl))⟩

/-! ### One step of both blocks -/

theorem State.Alike.idleStep (hi : s.idx = 0#10) (hp : s.phase = .idle) (p : PortIn) :
    ∃ s' t', idleStep p s = .next s' ∧ idleStep p t = .next t' ∧ s'.Alike t' := by
  unfold Machine.idleStep
  split
  · exact ⟨_, _, rfl, rfl, h.raiseSinkFail (.inl hp)⟩
  · split
    · exact ⟨_, _, rfl, rfl, h⟩
    · next w _ =>
      unfold acceptWord
      split
      · exact ⟨_, _, rfl, rfl, (h.log _).respond _ _⟩
      · exact (h.log (.accepted w)).exec hi hp _

theorem State.Alike.fillStep (hp : s.phase = .fill) (p : PortIn) : (fillStep p s).Alike (fillStep p t) := by
  unfold Machine.fillStep
  split
  · exact h
  · exact h.fillByte hp _

theorem State.Alike.drawStep (hp : s.phase = .draw) (hseed : s.seeded = true) (p : PortIn) :
    (drawStep p s).Alike (drawStep p t) := by
  unfold Machine.drawStep
  split
  · exact h.raiseSinkFail (.inr hp)
  · split
    · exact h.drawByte hseed
    · exact h

theorem State.Alike.phaseStep (hs : s.Sequenced) (hw : s.SeededWork) (p : PortIn) :
    ∃ s' t', phaseStep p s = .next s' ∧ phaseStep p t = .next t' ∧ s'.Alike t' := by
  have htp := h.control.phase
  unfold Machine.phaseStep
  cases hp : s.phase with
  | idle =>
    rw [htp, hp]
    exact h.idleStep (hs.resting (.inl hp)).1 hp p
  | fill =>
    rw [htp, hp]
    exact ⟨_, _, rfl, rfl, h.fillStep hp p⟩
  | copy =>
    rw [htp, hp]
    exact ⟨_, _, rfl, rfl, h.copyByte hp (hw (by simp [hp]))⟩
  | scan =>
    rw [htp, hp]
    exact ⟨_, _, rfl, rfl, h.scanCell hp (hw (by simp [hp]))⟩
  | swap =>
    rw [htp, hp]
    exact ⟨_, _, rfl, rfl, h.swapBuffers hp⟩
  | draw =>
    rw [htp, hp]
    exact ⟨_, _, rfl, rfl, h.drawStep hp (hw (by simp [hp])) p⟩

theorem State.Alike.clock (hs : s.Sequenced) (hw : s.SeededWork) (p : PortIn) :
    ∃ s' t', clock p s = .next s' ∧ clock p t = .next t' ∧ s'.Alike t' := by
  unfold Machine.clock
  rw [h.control.halted]
  split
  · exact ⟨_, _, rfl, rfl, h.doReset⟩
  · split
    · exact ⟨_, _, rfl, rfl, h⟩
    · exact h.phaseStep hs hw p

end

/-! ### Runs of both blocks -/

theorem step_obsEq {s t : State} (hs : s.Sequenced) (h : s.ObsEq t) :
    ∃ s' t', step s = .next s' ∧ step t = .next t' ∧ s'.Sequenced ∧ s'.ObsEq t' := by
  obtain ⟨hw, hsame⟩ := (obsEq_iff s t).mp h
  have hwc : s.consume.SeededWork := by simpa [State.SeededWork] using hw
  obtain ⟨s', t', hstep, hstep', hsame'⟩ := hsame.consume.clock hs.consume hwc s.nextInput
  rw [← hsame.control.nextInput] at hstep'
  exact ⟨s', t', hstep, hstep', step_sequenced hs hstep,
    (obsEq_iff s' t').mpr ⟨(microStep_of_clock hstep).seededWork hwc, hsame'⟩⟩

theorem run_obsEq {s t : State} (hs : s.Sequenced) (h : s.ObsEq t) (n : Nat) :
    ∃ s' t', run n s = .next s' ∧ run n t = .next t' ∧ s'.ObsEq t' := by
  induction n generalizing s t with
  | zero => exact ⟨s, t, rfl, rfl, h⟩
  | succ n ih =>
    obtain ⟨s', t', hstep, hstep', hs', h'⟩ := step_obsEq hs h
    rw [run_succ n hstep, run_succ n hstep']
    exact ih hs' h'

theorem State.ObsEq.status {s t : State} (h : s.ObsEq t) : t.status = s.status := by
  simp only [State.status, State.busy, h.halted, h.seeded, h.phase]

/-- Settles O53: every step keeps the relation, and events and status are part of it. -/
theorem unobservableStateNeverShows : Obligations.UnobservableStateNeverShows := by
  intro s t n hs h
  obtain ⟨s', t', hrun, hrun', h'⟩ := run_obsEq hs h n
  exact ⟨s', t', hrun, hrun', h', h'.trace, h'.status⟩

end Sys2Proof.Machine
end

section
/-! PROOFS. The opcode map read from the word (spec/30_encoding.md sections 4 and 5): O1 and O3. -/

namespace Sys2Proof

/-- Settles O1: the words are closed terms, and decoding computes. -/
theorem wordsOfTheMapDecode : Obligations.WordsOfTheMapDecode := by
  unfold Obligations.WordsOfTheMapDecode
  decide

/-- Every opcode is that of a command without operands, of GET, of TGL, or reserved. -/
theorem opcode_cases (op : BitVec 3) :
    op ∈ bareRows.map Prod.fst ∨ op = 1#3 ∨ op = 2#3 ∨ op = 6#3 ∨ op = 7#3 := by
  revert op
  decide

theorem encode_of_bareRow {op : BitVec 3} {i : Instr} (h : (op, i) ∈ bareRows) :
    encode i = packWord op 0#6 0#7 := by
  simp only [bareRows, List.mem_cons, Prod.mk.injEq, List.not_mem_nil, or_false] at h
  rcases h with ⟨rfl, rfl⟩ | ⟨rfl, rfl⟩ | ⟨rfl, rfl⟩ | ⟨rfl, rfl⟩ <;> rfl

/-- A word whose low bits are 0 is its opcode packed with no operands. -/
theorem packWord_opField {w : CmdWord} (h : lowField w = 0#13) : packWord (opField w) 0#6 0#7 = w := by
  rw [lowField_eq_zero_iff] at h
  refine BitVec.eq_of_toNat_eq ?_
  rw [packWord_toNat, opField_toNat, BitVec.toNat_ofNat, BitVec.toNat_ofNat]
  omega

theorem encode_of_bare {w : CmdWord} {i j : Instr} (hrow : (opField w, i) ∈ bareRows)
    (h : bare w i = .ok j) : encode j = w := by
  unfold bare at h
  split at h
  · next hlow =>
    obtain rfl := Except.ok.inj h
    rw [encode_of_bareRow hrow, packWord_opField hlow]
  · cases h

/-- Settles O3, by the kind of the opcode: the three fields of the word are put together again. -/
theorem encodeInvertsDecode : Obligations.EncodeInvertsDecode := by
  intro w i h
  rcases opcode_cases (opField w) with hbare | hget | htgl | hreserved
  · obtain ⟨⟨op, j⟩, hrow, hop⟩ := List.mem_map.mp hbare
    obtain rfl : op = opField w := hop
    rw [decode_bare hrow] at h
    exact encode_of_bare hrow h
  · rw [decode_get hget] at h
    obtain rfl := Except.ok.inj h
    rw [encode, ← hget, packWord_fields]
  · rw [decode_tgl htgl] at h
    obtain rfl := Except.ok.inj h
    rw [encode, ← htgl, packWord_fields]
  · rw [decode_opcode hreserved] at h
    cases h

end Sys2Proof
end

section
/-! PROOFS. The assembler (spec/30_encoding.md section 9): O4. -/

namespace Sys2Proof.Machine

/-! ### Characters and digits -/

/-- A character that is no separator of a line: not a blank, a comma or the start of a comment. -/
def isPlain (c : Char) : Bool := !isBlank c && c != ',' && c != ';'

theorem digitChar_decimal : ∀ d < 10,
    isPlain (digitChar d) = true ∧ digitValue (digitChar d) = some d ∧ digitChar d ≠ 'x' := by decide

theorem digitsValue_digitChar {d : Nat} (hd : d < 10) (acc : Nat) (cs : List Char) :
    digitsValue 10 acc (digitChar d :: cs) = digitsValue 10 (acc * 10 + d) cs := by
  simp only [digitsValue, (digitChar_decimal d hd).2.1, if_pos hd]

/-- The digits of a number below 1000, the highest first. -/
theorem decimal_cases (n : Nat) :
    (n < 10 ∧ decimal n = [digitChar n]) ∨
    (n < 100 ∧ decimal n = [digitChar (n / 10), digitChar (n % 10)]) ∨
    decimal n = [digitChar (n / 100), digitChar (n / 10 % 10), digitChar (n % 10)] := by
  unfold decimal
  split
  · next h => exact .inl ⟨h, rfl⟩
  · split
    · next h => exact .inr (.inl ⟨h, rfl⟩)
    · exact .inr (.inr rfl)

theorem decimal_plain {n : Nat} (hn : n < 1000) : ∀ c ∈ decimal n, isPlain c = true := by
  have digit (d : Nat) (hd : d < 10) : isPlain (digitChar d) = true := (digitChar_decimal d hd).1
  rcases decimal_cases n with ⟨h, hdec⟩ | ⟨h, hdec⟩ | hdec <;> rw [hdec]
  · simp [digit n h]
  · simp [digit (n / 10) (by omega), digit (n % 10) (by omega)]
  · simp [digit (n / 100) (by omega), digit (n / 10 % 10) (by omega), digit (n % 10) (by omega)]

theorem decimal_ne_nil (n : Nat) : decimal n ≠ [] := by
  rcases decimal_cases n with ⟨-, hdec⟩ | ⟨-, hdec⟩ | hdec <;> rw [hdec] <;> simp

/-- No decimal number is read as a hexadecimal one. -/
theorem decimal_not_hexadecimal (n : Nat) : (decimal n).take 2 ≠ ['0', 'x'] := by
  rcases decimal_cases n with ⟨-, hdec⟩ | ⟨-, hdec⟩ | hdec <;> rw [hdec]
  · simp
  · simp [(digitChar_decimal (n % 10) (by omega)).2.2]
  · simp [(digitChar_decimal (n / 10 % 10) (by omega)).2.2]

theorem digitsValue_decimal {n : Nat} (hn : n < 1000) : digitsValue 10 0 (decimal n) = some n := by
  rcases decimal_cases n with ⟨h, hdec⟩ | ⟨h, hdec⟩ | hdec <;> rw [hdec]
  · rw [digitsValue_digitChar h, digitsValue]
    simp
  · rw [digitsValue_digitChar (by omega), digitsValue_digitChar (by omega), digitsValue]
    congr 1
    omega
  · rw [digitsValue_digitChar (by omega), digitsValue_digitChar (by omega),
      digitsValue_digitChar (by omega), digitsValue]
    congr 1
    omega

theorem parseNumber_decimal {n : Nat} (hn : n < 1000) : parseNumber (decimal n) = some n := by
  rw [parseNumber, if_neg (decimal_not_hexadecimal n), if_neg (decimal_ne_nil n), digitsValue_decimal hn]

/-! ### Blanks, commas and comments -/

theorem isPlain_iff (c : Char) : isPlain c = true ↔ isBlank c = false ∧ c ≠ ',' ∧ c ≠ ';' := by
  simp [isPlain, and_assoc]

/-- A word: characters without a separator among them, and at least one. -/
def IsWord (cs : List Char) : Prop := cs ≠ [] ∧ ∀ c ∈ cs, isPlain c = true

theorem decimal_isWord {n : Nat} (hn : n < 1000) : IsWord (decimal n) :=
  ⟨decimal_ne_nil n, decimal_plain hn⟩

theorem IsWord.reverse {cs : List Char} (h : IsWord cs) : IsWord cs.reverse :=
  ⟨by simpa using h.1, fun c hc => h.2 c (List.mem_reverse.mp hc)⟩

theorem IsWord.dropWhile_isBlank {cs : List Char} (h : IsWord cs) (rest : List Char) :
    (cs ++ rest).dropWhile isBlank = cs ++ rest := by
  obtain ⟨hne, hplain⟩ := h
  cases cs with
  | nil => contradiction
  | cons c cs =>
    have hc : isBlank c = false := ((isPlain_iff c).mp (hplain c (List.mem_cons_self ..))).1
    exact List.dropWhile_cons_of_neg (by simp [hc])

theorem trim_of_ends {cs : List Char} (hfront : cs.dropWhile isBlank = cs)
    (hback : cs.reverse.dropWhile isBlank = cs.reverse) : trim cs = cs := by
  rw [trim, hfront, hback, List.reverse_reverse]

theorem IsWord.trim {cs : List Char} (h : IsWord cs) : trim cs = cs :=
  trim_of_ends (by simpa using h.dropWhile_isBlank []) (by simpa using h.reverse.dropWhile_isBlank [])

/-- Nothing is trimmed off a text between two words. -/
theorem trim_between {u v : List Char} (hu : IsWord u) (hv : IsWord v) (mid : List Char) :
    trim (u ++ (mid ++ v)) = u ++ (mid ++ v) :=
  trim_of_ends (hu.dropWhile_isBlank _) (by simpa using hv.reverse.dropWhile_isBlank (mid.reverse ++ u.reverse))

theorem trim_blank_cons (cs : List Char) : trim (' ' :: cs) = trim cs := rfl

/-- A test that every character of a word passes and the character after it does not. -/
theorem takeWhile_word {p : Char → Bool} {cs : List Char} (h : ∀ c ∈ cs, p c = true) {d : Char}
    (hd : p d = false) (rest : List Char) : (cs ++ d :: rest).takeWhile p = cs := by
  rw [List.takeWhile_append_of_pos h, List.takeWhile_cons_of_neg (by simp [hd]), List.append_nil]

theorem dropWhile_word {p : Char → Bool} {cs : List Char} (h : ∀ c ∈ cs, p c = true) {d : Char}
    (hd : p d = false) (rest : List Char) : (cs ++ d :: rest).dropWhile p = d :: rest := by
  rw [List.dropWhile_append_of_pos h, List.dropWhile_cons_of_neg (by simp [hd])]

section
variable {cs : List Char} (h : IsWord cs)
include h

theorem IsWord.noBlank : ∀ c ∈ cs, (!isBlank c) = true := fun c hc => by
  simp [((isPlain_iff c).mp (h.2 c hc)).1]

theorem IsWord.noComma : ∀ c ∈ cs, (c != ',') = true := fun c hc => by
  simp [((isPlain_iff c).mp (h.2 c hc)).2.1]

theorem IsWord.noComment : ∀ c ∈ cs, (c != ';') = true := fun c hc => by
  simp [((isPlain_iff c).mp (h.2 c hc)).2.2]

end

/-! ### The line of a command with operands (R96) -/

theorem col_isWord (x : Col) : IsWord (decimal x.toNat) := decimal_isWord (by omega)

theorem row_isWord (y : Row) : IsWord (decimal y.toNat) := decimal_isWord (by omega)

theorem operandText_eq (x : Col) (y : Row) :
    operandText x y = decimal x.toNat ++ ([',', ' '] ++ decimal y.toNat) := List.append_assoc ..

theorem parseOperands_operandText (x : Col) (y : Row) :
    parseOperands (operandText x y) = some (x.toNat, y.toNat) := by
  have htext : operandText x y = decimal x.toNat ++ ',' :: ' ' :: decimal y.toNat := operandText_eq x y
  have hbefore := takeWhile_word (col_isWord x).noComma (d := ',') rfl (' ' :: decimal y.toNat)
  have hafter := dropWhile_word (col_isWord x).noComma (d := ',') rfl (' ' :: decimal y.toNat)
  rw [parseOperands, htext, hafter, hbefore]
  simp only [trim_blank_cons, (col_isWord x).trim, (row_isWord y).trim]
  rw [parseNumber_decimal (by omega), parseNumber_decimal (by omega)]

section
variable {m : List Char} (hm : IsWord m) (x : Col) (y : Row)
include hm

/-- The line has no comment, and a word at either end. -/
theorem trim_stripComment_line :
    trim (stripComment (m ++ ' ' :: operandText x y)) = m ++ ' ' :: operandText x y := by
  have hstrip : stripComment (m ++ ' ' :: operandText x y) = m ++ ' ' :: operandText x y := by
    rw [stripComment, List.takeWhile_eq_self_iff, operandText_eq]
    exact List.forall_mem_append.mpr ⟨hm.noComment, List.forall_mem_cons.mpr ⟨by decide,
      List.forall_mem_append.mpr ⟨(col_isWord x).noComment,
        List.forall_mem_append.mpr ⟨by simp, (row_isWord y).noComment⟩⟩⟩⟩
  rw [hstrip, operandText_eq]
  simpa using trim_between hm (row_isWord y) (' ' :: decimal x.toNat ++ [',', ' '])

theorem takeWhile_line : (m ++ ' ' :: operandText x y).takeWhile (fun c => !isBlank c) = m :=
  takeWhile_word hm.noBlank rfl _

theorem trim_dropWhile_line :
    trim ((m ++ ' ' :: operandText x y).dropWhile (fun c => !isBlank c)) = operandText x y := by
  rw [dropWhile_word hm.noBlank (d := ' ') rfl, trim_blank_cons, operandText_eq]
  exact trim_between (col_isWord x) (row_isWord y) [',', ' ']

end

theorem line_ne_nil (m : List Char) (x : Col) (y : Row) : m ++ ' ' :: operandText x y ≠ [] := by simp

theorem cellLine_operandText (x : Col) (y : Row) (c : Nat → Nat → AsmCmd) :
    cellLine (operandText x y) c = .ok (some (c x.toNat y.toNat)) := by
  rw [cellLine, parseOperands_operandText]

theorem parseLine_get (x : Col) (y : Row) :
    parseLine (asmText (.get x y)) = .ok (some (.get x.toNat y.toNat)) := by
  have hline : asmText (.get x y) = ['G', 'E', 'T'] ++ ' ' :: operandText x y := rfl
  have hm : IsWord ['G', 'E', 'T'] := ⟨by simp, by simp [isPlain, isBlank]⟩
  simp only [parseLine, hline, trim_stripComment_line hm, takeWhile_line hm, trim_dropWhile_line hm,
    line_ne_nil, cellLine_operandText]
  rfl

theorem parseLine_tgl (x : Col) (y : Row) :
    parseLine (asmText (.tgl x y)) = .ok (some (.tgl x.toNat y.toNat)) := by
  have hline : asmText (.tgl x y) = ['T', 'G', 'L'] ++ ' ' :: operandText x y := rfl
  have hm : IsWord ['T', 'G', 'L'] := ⟨by simp, by simp [isPlain, isBlank]⟩
  simp only [parseLine, hline, trim_stripComment_line hm, takeWhile_line hm, trim_dropWhile_line hm,
    line_ne_nil, cellLine_operandText]
  rfl

/-! ### The range of the coordinates (R96) -/

theorem coordsInRange_iff (x y : Nat) : coordsInRange x y = true ↔ x ≤ 127 ∧ y ≤ 63 := by
  rw [coordsInRange, Bool.and_eq_true, decide_eq_true_iff, decide_eq_true_iff]
  exact and_congr Nat.lt_succ_iff Nat.lt_succ_iff

theorem assembleCmd_in_range {x y : Nat} (h : x ≤ 127 ∧ y ≤ 63) :
    assembleCmd (.get x y) = some (.get (BitVec.ofNat 7 x) (BitVec.ofNat 6 y)) ∧
      assembleCmd (.tgl x y) = some (.tgl (BitVec.ofNat 7 x) (BitVec.ofNat 6 y)) :=
  ⟨if_pos ((coordsInRange_iff x y).mpr h), if_pos ((coordsInRange_iff x y).mpr h)⟩

theorem assembleCmd_out_of_range {x y : Nat} (h : 127 < x ∨ 63 < y) :
    assembleCmd (.get x y) = none ∧ assembleCmd (.tgl x y) = none := by
  have hout : ¬ coordsInRange x y = true := by
    rw [coordsInRange_iff]
    omega
  exact ⟨if_neg hout, if_neg hout⟩

theorem assembleLine_eq {line : List Char} {c : AsmCmd} {i : Instr} (hparse : parseLine line = .ok (some c))
    (hcmd : assembleCmd c = some i) : assembleLine line = .ok (some (encode i)) := by
  simp only [assembleLine, hparse, hcmd]

theorem assembleLine_asmText (i : Instr) : assembleLine (asmText i) = .ok (some (encode i)) := by
  have hrange (x : Col) (y : Row) : x.toNat ≤ 127 ∧ y.toNat ≤ 63 := by omega
  cases i with
  | nop => rfl
  | get x y =>
    refine assembleLine_eq (parseLine_get x y) ((assembleCmd_in_range (hrange x y)).1.trans ?_)
    rw [BitVec.ofNat_toNat, BitVec.ofNat_toNat, BitVec.setWidth_eq, BitVec.setWidth_eq]
  | tgl x y =>
    refine assembleLine_eq (parseLine_tgl x y) ((assembleCmd_in_range (hrange x y)).2.trans ?_)
    rw [BitVec.ofNat_toNat, BitVec.ofNat_toNat, BitVec.setWidth_eq, BitVec.setWidth_eq]
  | step => rfl
  | fill => rfl
  | draw => rfl

/-- Settles O4: a line is its words again once its blanks, comma and digits are read, and the range is that
of the two fields. -/
theorem assemblerGivesEachCommandItsWord : Obligations.AssemblerGivesEachCommandItsWord :=
  ⟨assembleLine_asmText, fun _ _ => ⟨assembleCmd_in_range, assembleCmd_out_of_range⟩⟩

end Sys2Proof.Machine
end

section
/-! PROOFS. The torus has no preferred cell (spec/41_stepper.md sections 1 and 4): O14. -/

namespace Sys2Proof.Machine

@[simp] theorem getCell_shiftGrid (dx : Col) (dy : Row) (B : Buffer) (x : Col) (y : Row) :
    getCell (shiftGrid dx dy B) x y = getCell B (x - dx) (y - dy) :=
  getCell_packed (fun x y => getCell B (x - dx) (y - dy)) x y

theorem left_sub (x d : Col) : left x - d = left (x - d) := by unfold left; ring

theorem right_sub (x d : Col) : right x - d = right (x - d) := by unfold right; ring

theorem up_sub (y d : Row) : up y - d = up (y - d) := by unfold up; ring

theorem down_sub (y d : Row) : down y - d = down (y - d) := by unfold down; ring

/-- The neighbours of a moved cell are the moved neighbours. -/
theorem liveCount_shiftGrid (dx : Col) (dy : Row) (B : Buffer) (x : Col) (y : Row) :
    liveCount (shiftGrid dx dy B) x y = liveCount B (x - dx) (y - dy) := by
  refine BitVec.eq_of_toNat_eq ?_
  simp only [liveCount_toNat, getCell_shiftGrid, left_sub, right_sub, up_sub, down_sub]

/-- Settles O14: cell and count are those of the cell moved back, and so is the rule. -/
theorem nextGenCommutesWithTranslation : Obligations.NextGenCommutesWithTranslation := by
  intro dx dy B
  refine (eq_nextGen_of_cells fun x y => ?_).symm
  rw [getCell_shiftGrid, getCell_nextGen, nextCell, nextCell, getCell_shiftGrid, liveCount_shiftGrid]

end Sys2Proof.Machine
end

section
/-! PROOFS. TGL and its frame (spec/40_bitgrid_ops.md section 3), and the macros SET and CLR
(spec/30_encoding.md section 9): O19 and O21. -/

namespace Sys2Proof.Machine

/-! ### TGL (R114) -/

/-- Settles O19: the toggle is one write, at its cell's byte of the current buffer, and the answer is all
else that TGL does. -/
theorem tglTogglesItsCellOnly : Obligations.TglTogglesItsCellOnly := by
  intro s x y hseed
  have hx := exec_tgl_seeded x y hseed
  obtain ⟨hin, hfree⟩ := exec_sameEnvironment hx
  refine ⟨_, hx, toggleAt_bytes_same s s.cur x y, toggleAt_bytes_other s s.cur x y,
    memWrite_sameBytesBut s _ _ _, fun x' y' => ?_, (executed_of_exec hx).sameFlags,
    exec_stays_at hx nofun (fun _ => nofun) (fun _ => nofun), hin, hfree, by simp⟩
  rw [← getCell_toggleCell]
  simp [toggleAt_bytes_same]

/-! ### A command of the host at rest -/

/-- A command sent to the block at rest is accepted. -/
theorem hostStep_send {s : State} (hrest : s.Resting) (i : Instr) :
    hostStep (.send i) s = exec i (s.log (.accepted (encode i))) :=
  clock_command rfl hrest.running hrest.idle rfl rfl (decode_encode i)

theorem hostStep_sendIf {s : State} (hrest : s.Resting) (i : Instr) {q : Bool} (hq : lastQ s = some q) :
    hostStep (.sendIf q i) s = exec i (s.log (.accepted (encode i))) := by
  rw [← hostStep_send hrest]
  simp only [hostStep, hostInput, hq, if_true]

/-- The host sends nothing where the last response has the other `q`. -/
theorem hostStep_sendIf_other {s : State} (hrest : s.Resting) (i : Instr) {q q' : Bool}
    (hq : lastQ s = some q') (hne : q' ≠ q) : hostStep (.sendIf q i) s = .next s := by
  have hinput : hostInput (.sendIf q i) s = quiet := if_neg (by simpa [hq] using hne)
  simp only [hostStep, hinput]
  simp [clock, quiet, hrest.running, phaseStep, hrest.idle, idleStep]

theorem lastQ_respond (s : State) (q : Bool) : lastQ (s.respond .ok q) = some q := by
  rw [lastQ, respond_trace, responsesOf_append, responsesOf_response, responsesOf_nil, List.getLast?_concat]
  cases q <;> rfl

/-- GET of a resting block shows the host the cell and leaves the block as it was. -/
theorem hostStep_get {s : State} (hrest : s.Resting) (hseed : s.seeded = true) (x : Col) (y : Row) :
    ∃ t, hostStep (.send (.get x y)) s = .next t ∧ t.Resting ∧ t.seeded = true ∧
      t.bytes t.cur = s.bytes s.cur ∧ lastQ t = some (getCell (s.bytes s.cur) x y) :=
  ⟨_, (hostStep_send hrest _).trans (exec_get_seeded x y hseed),
    ⟨hrest.idle, hrest.running, hrest.idx, hrest.pos⟩, hseed, rfl, lastQ_respond _ _⟩

/-! ### SET and CLR (R97) -/

theorem hostSteps_pair {a b : HostAct} {s t u : State} (ha : hostStep a s = .next t)
    (hb : hostStep b t = .next u) : hostSteps [a, b] s = .next u := by
  simp only [hostSteps, ha, hb]

/-- GET, then TGL if the cell is not as wanted. -/
theorem hostSteps_make_cell {s : State} (hrest : s.Resting) (hseed : s.seeded = true) (x : Col) (y : Row)
    (wanted : Bool) :
    ∃ t, hostSteps [.send (.get x y), .sendIf (!wanted) (.tgl x y)] s = .next t ∧
      getCell (t.bytes t.cur) x y = wanted ∧
      ∀ x' y', (x', y') ≠ (x, y) → getCell (t.bytes t.cur) x' y' = getCell (s.bytes s.cur) x' y' := by
  obtain ⟨t, hget, htrest, htseed, hgrid, hq⟩ := hostStep_get hrest hseed x y
  by_cases hcell : getCell (s.bytes s.cur) x y = wanted
  · have hkeep := hostStep_sendIf_other htrest (.tgl x y) hq (q := !wanted) (by simp [hcell])
    exact ⟨t, hostSteps_pair hget hkeep, by rw [hgrid, hcell], fun x' y' _ => by rw [hgrid]⟩
  · have hcell : getCell (s.bytes s.cur) x y = !wanted := Bool.eq_not.mpr hcell
    rw [hcell] at hq
    obtain ⟨u, htgl, -, hu⟩ := exec_tgl_toggles (s := t.log (.accepted (encode (.tgl x y)))) x y htseed
    have htoggled : u.bytes u.cur = toggleCell (s.bytes s.cur) x y := hgrid ▸ hu
    refine ⟨u, hostSteps_pair hget ((hostStep_sendIf htrest _ hq).trans htgl), ?_, fun x' y' hne => ?_⟩
    · rw [htoggled, getCell_toggleCell_self, hcell, Bool.not_not]
    · rw [htoggled, getCell_toggleCell_other _ hne]

/-- Settles O21: SET wants the cell alive, CLR wants it dead. -/
theorem setAndClrMakeTheCellAsWanted : Obligations.SetAndClrMakeTheCellAsWanted :=
  fun _ x y hrest hseed => ⟨hostSteps_make_cell hrest hseed x y true, hostSteps_make_cell hrest hseed x y false⟩

end Sys2Proof.Machine
end
